-- ==== Sys2Proof/Word.lean ====
section
/-! DEFINITION. The word types of TXRING and the small vocabularies (ports, bus directions, bus agents, environment steps, burst
states, sequencer steps, fault causes) that the spec names. Numeric codes of these names stand in Decode.lean and
Machine/Flags.lean. -/

namespace Sys2Proof

/-- One byte of system memory (R60, R61). -/
abbrev Byte := BitVec 8

/-- A 16-bit value: one ring slot, one frame (R5). -/
abbrev Half := BitVec 16

/-- A 32-bit value: an address, a register-window word, a command word (R5, R80, R87). -/
abbrev Word := BitVec 32

/-- A 64-bit adapter operation word (R92). -/
abbrev DWord := BitVec 64

/-- The two command ports (R80, R88). -/
inductive Port where
  | cmd
  | cpl
deriving DecidableEq, Repr

/-- The direction of a register-window access, a write with its value (R81). -/
inductive Dir where
  | read
  | write (v : Word)
deriving DecidableEq, Repr

/-- The agents that reach the register window and system memory over the bus (R10, R222): the PRODUCER, the DISPATCH, and
any further one. TXRING does not see which of them makes an access (R72, R223). SEQ and ENV take their steps without the bus. -/
inductive Agent where
  | producer
  | dispatch
  | other (k : Nat)
deriving DecidableEq, Repr

/-- The steps that are neither bus accesses nor sequencer steps (the ENV_STEP rows of the table): R180, R181, R182,
R189 and the block's own release of a pending WSB, R185. -/
inductive EnvStep where
  | dmaXfer
  | dmaTc
  | shift
  | dispatch
  | wsbDone
deriving DecidableEq, Repr

/-- The per-burst state machine STATE (R27). -/
inductive BurstState where
  | idle
  | armed
  | running
  | retiring
deriving DecidableEq, Repr

/-- What SEQ_PC can hold (R30): NONE, or the next micro-step. The codes 12 to 15 are never held and have no name. -/
inductive SeqStep where
  | none
  | arm0
  | arm1
  | arm2
  | arm3
  | arm4
  | arm5
  | arm6
  | arm7
  | ret0
  | ret1
  | ret2
deriving DecidableEq, Repr

/-- The fault causes FAULT_CAUSE can hold (R211). The codes 10 to 15 are never raised and have no name. -/
inductive FaultCause where
  | none
  | illegalCmd
  | notInit
  | reinit
  | badCapacity
  | misaligned
  | badAddress
  | singleWhileBurst
  | spuriousCompletion
  | badRegAccess
deriving DecidableEq, Repr

end Sys2Proof
end

