-- ==== Sys2Proof/Config.lean ====
section
/-! DEFINITION. What the platform fixes: the spec's two OPEN parameters (R5: REG_BASE, MEM_ADMIT) as plain data that a
state carries and no step changes, and what a byte of memory that nothing has written reads as. -/

namespace Sys2Proof

/-- The OPEN parameters of the platform (R5, D30, D31). `denied` writes the predicate MEM_ADMIT(addr, 2) out as data: the
ranges (first, last) of start addresses at which a 16-bit access is NOT admitted (R67). Every predicate over the 2^32
addresses is such a list. -/
structure Platform where
  /-- REG_BASE: the bus address of the 64-byte register window (R80). -/
  regBase : Word
  /-- MEM_ADMIT(addr, 2) is false exactly for an address inside one of these ranges (R67). -/
  denied : List (Nat × Nat)
deriving DecidableEq, Repr

/-- What a memory byte reads as that no entry of the memory list names. DESIGN CHOICE (notes/assumptions/2.md): the spec
leaves memory contents at reset unspecified (R45, U8). -/
def unlistedByte : Byte := 0

end Sys2Proof
end

