-- ==== Sys2Proof/Syntax.lean ====
section
/-! DEFINITION. The instructions of TXRING: one constructor for each row of spec/opcode_table.json. -/

namespace Sys2Proof

/-- One row of the opcode table, one constructor. -/
inductive Instr where
  -- CMD32: commands written to CMD or CPL (R87, R88)
  /-- INIT, with the requested slot count (R112). -/
  | init (n : Half)
  /-- ENQ, with the word count (R113). -/
  | enq (len : Half)
  /-- WSB, with the word to send (R184). -/
  | wsb (w : Half)
  /-- COMPLETE (R150). -/
  | complete
  /-- A command word that is illegal on the port it is written to (R90). -/
  | illegal (port : Port) (w : Word)
  -- MMIO32: register-window accesses (R190 to R201)
  | wrArg0 (v : Word)
  | rdArg0
  | wrArg1 (v : Word)
  | rdArg1
  | rdStatus
  | rdIndex
  | rdLevel
  | rdSession
  | rdBase
  | rdDsrc
  | rdDdst
  | rdDctl
  | rdFinfo
  /-- A read of CMD, CPL or a reserved offset, or a write of a read-only register or a reserved offset (R201). -/
  | inert (off : BitVec 6) (dir : Dir)
  /-- An access that is not 32 bits wide or not 4-byte aligned (R81, R201). `size` is in bits. -/
  | badRegAccess (off : BitVec 6) (size : Nat) (dir : Dir)
  -- SEQ_UOP: the chunker and the sequencer's micro-steps (R131 to R140, R151 to R153)
  | chunk
  | arm0
  | arm1
  | arm2
  | arm3
  | arm4
  | arm5
  | arm6
  | arm7
  | ret0
  | ret1
  | ret2
  -- ADAPTER64: adapter operations (R93, R171 to R179)
  | periphDisable
  | clearCflag
  | dmaProgram (src : Word) (len : BitVec 8)
  | dmaEnable
  | periphSetFrames (n : BitVec 8)
  | periphEnable
  | pushWord (w : Half)
  | periphStart
  | dmaDisable
  -- ENV_STEP: environment steps (R180 to R182, R185, R189)
  | envDmaXfer
  | envDmaTc
  | envShift
  | envDispatch
  | wsbDone
deriving DecidableEq, Repr

end Sys2Proof
end

