-- ==== Sys2Proof/WellFormed.lean ====
section
/-! DEFINITION. Which terms of Instr stand for something the machine can be given: the operands of the three rows that the
table describes by a condition (ILLEGAL, RD_WR_WO-RO-RESERVED, BAD_REG_ACCESS) meet that condition. Every other row
admits every value of its operands. -/

namespace Sys2Proof

/-- A reserved operation code: 0x0 or 0x5 to 0xF (R88, R90). -/
def reservedOpc (opc : BitVec 4) : Bool := opc == 0x0 || 0x5#4 ≤ opc

/-- An operation code on the port it is not legal on (R88, R90). -/
def wrongPort (port : Port) (opc : BitVec 4) : Bool :=
  match port with
  | .cmd => opc == 0x4
  | .cpl => opc == 0x1 || opc == 0x2 || opc == 0x3

/-- R90: a command word that is illegal on a port: a reserved opcode, RSV not 0, COMPLETE with an immediate, or an
opcode on the wrong port. -/
def illegalWord (port : Port) (w : Word) : Bool :=
  let opc := w.extractLsb' 0 4
  reservedOpc opc || w.extractLsb' 4 12 != 0 || (opc == 0x4 && w.extractLsb' 16 16 != 0) || wrongPort port opc

/-- R201: the accesses that read as 0 or whose write is ignored. -/
def inertAccess (off : BitVec 6) (dir : Dir) : Bool :=
  match dir with
  | .read => off == 0x00 || off == 0x04 || off == 0x34 || off == 0x38 || off == 0x3C
  | .write _ => off.toNat % 4 == 0 && 0x10 ≤ off.toNat

/-- R81: an access that is not 32 bits wide or not 4-byte aligned. -/
def badAccess (off : BitVec 6) (size : Nat) : Bool := size != 32 || off.toNat % 4 != 0

/-- The well-formedness check of a term. -/
def WellFormed (i : Instr) : Bool :=
  match i with
  | .illegal port w => illegalWord port w
  | .inert off dir => inertAccess off dir
  | .badRegAccess off size _ => badAccess off size
  | .init _ | .enq _ | .wsb _ | .complete
  | .wrArg0 _ | .rdArg0 | .wrArg1 _ | .rdArg1 | .rdStatus | .rdIndex | .rdLevel | .rdSession | .rdBase | .rdDsrc
  | .rdDdst | .rdDctl | .rdFinfo
  | .chunk | .arm0 | .arm1 | .arm2 | .arm3 | .arm4 | .arm5 | .arm6 | .arm7 | .ret0 | .ret1 | .ret2
  | .periphDisable | .clearCflag | .dmaProgram _ _ | .dmaEnable | .periphSetFrames _ | .periphEnable | .pushWord _
  | .periphStart | .dmaDisable
  | .envDmaXfer | .envDmaTc | .envShift | .envDispatch | .wsbDone => true

end Sys2Proof
end

