-- ==== Sys2Proof/Decode.lean ====
section
/-! DEFINITION. The decoder, total and rejecting by name, and the encoder, both written from 30_encoding.md and
opcode_table.json. TXRING fetches no instructions (R74): what is decoded is a register-window access (a command is a
write of CMD or CPL), a SEQ_PC code, an adapter operation word or the name of an environment step. -/

namespace Sys2Proof

/-- What one instruction looks like from outside, by the format of its row. `size` is in bits. -/
inductive Code where
  /-- A register-window access (R81); CMD32 words are the values written to offsets 0x00 and 0x04. -/
  | access (off : BitVec 6) (size : Nat) (dir : Dir)
  /-- A SEQ_UOP row: the SEQ_PC code (R30, R99). -/
  | seq (code : BitVec 4)
  /-- An ADAPTER64 word on the adapter port (R92). -/
  | adapter (w : DWord)
  /-- An ENV_STEP row: no bits, only a name. -/
  | env (e : EnvStep)
  /-- CHUNK, which has no command word and no SEQ_PC code (R99, R131). -/
  | chunk
deriving DecidableEq, Repr

/-- Why a code is no instruction. -/
inductive DecodeError where
  /-- SEQ_PC code 0: SEQ has no step (R30). -/
  | seqNone
  /-- SEQ_PC codes 12 to 15, which are never held (R30). -/
  | seqNeverHeld (code : BitVec 4)
  /-- An adapter word with a reserved operation code, or with a field set that its operation does not use (R93). -/
  | reservedAdapterWord (w : DWord)
deriving DecidableEq, Repr

/-! ### Fields of a command word (R87) -/

def opcOf (w : Word) : BitVec 4 := w.extractLsb' 0 4
def rsvOf (w : Word) : BitVec 12 := w.extractLsb' 4 12
def immOf (w : Word) : Half := w.extractLsb' 16 16

/-- R87: the command word {IMM16, RSV = 0, OPC}. -/
def commandWord (opc : BitVec 4) (imm : Half) : Word := imm ++ 0#12 ++ opc

/-- R90: the decode of a command word written to a port. -/
def decodeCommand (port : Port) (w : Word) : Instr :=
  if rsvOf w ≠ 0 then .illegal port w
  else match port with
    | .cmd =>
      if opcOf w = 0x1 then .init (immOf w)
      else if opcOf w = 0x2 then .enq (immOf w)
      else if opcOf w = 0x3 then .wsb (immOf w)
      else .illegal port w
    | .cpl => if opcOf w = 0x4 ∧ immOf w = 0 then .complete else .illegal port w

/-- R80, R81, R201: a read of the register window, 32 bits wide and aligned. -/
def decodeRead (off : BitVec 6) : Instr :=
  if off = 0x08 then .rdArg0
  else if off = 0x0C then .rdArg1
  else if off = 0x10 then .rdStatus
  else if off = 0x14 then .rdIndex
  else if off = 0x18 then .rdLevel
  else if off = 0x1C then .rdSession
  else if off = 0x20 then .rdBase
  else if off = 0x24 then .rdDsrc
  else if off = 0x28 then .rdDdst
  else if off = 0x2C then .rdDctl
  else if off = 0x30 then .rdFinfo
  else .inert off .read

/-- R80, R81, R201: a write of the register window, 32 bits wide and aligned. -/
def decodeWrite (off : BitVec 6) (v : Word) : Instr :=
  if off = 0x00 then decodeCommand .cmd v
  else if off = 0x04 then decodeCommand .cpl v
  else if off = 0x08 then .wrArg0 v
  else if off = 0x0C then .wrArg1 v
  else .inert off (.write v)

/-- R81: a register-window access; the width and alignment check comes before everything that the offset selects. -/
def decodeAccess (off : BitVec 6) (size : Nat) (dir : Dir) : Instr :=
  if size ≠ 32 ∨ off.toNat % 4 ≠ 0 then .badRegAccess off size dir
  else match dir with
    | .read => decodeRead off
    | .write v => decodeWrite off v

/-! ### Sequencer step codes (R30) -/

def SeqStep.code (p : SeqStep) : BitVec 4 :=
  match p with
  | .none => 0
  | .arm0 => 1
  | .arm1 => 2
  | .arm2 => 3
  | .arm3 => 4
  | .arm4 => 5
  | .arm5 => 6
  | .arm6 => 7
  | .arm7 => 8
  | .ret0 => 9
  | .ret1 => 10
  | .ret2 => 11

/-- The SEQ_PC value of a code; none for the codes 12 to 15, which are never held. -/
def seqStepOf (code : BitVec 4) : Option SeqStep :=
  match code.toNat with
  | 0 => some .none
  | 1 => some .arm0
  | 2 => some .arm1
  | 3 => some .arm2
  | 4 => some .arm3
  | 5 => some .arm4
  | 6 => some .arm5
  | 7 => some .arm6
  | 8 => some .arm7
  | 9 => some .ret0
  | 10 => some .ret1
  | 11 => some .ret2
  | _ => none

/-- The instruction of the SEQ_UOP row that SEQ_PC holds; none when SEQ has no step. -/
def seqInstr (p : SeqStep) : Option Instr :=
  match p with
  | .none => none
  | .arm0 => some .arm0
  | .arm1 => some .arm1
  | .arm2 => some .arm2
  | .arm3 => some .arm3
  | .arm4 => some .arm4
  | .arm5 => some .arm5
  | .arm6 => some .arm6
  | .arm7 => some .arm7
  | .ret0 => some .ret0
  | .ret1 => some .ret1
  | .ret2 => some .ret2

def decodeSeq (code : BitVec 4) : Except DecodeError Instr :=
  match seqStepOf code with
  | none => .error (.seqNeverHeld code)
  | some p =>
    match seqInstr p with
    | none => .error .seqNone
    | some i => .ok i

/-! ### Adapter operation words (R92, R93) -/

def aopOf (w : DWord) : BitVec 8 := w.extractLsb' 0 8
def b8Of (w : DWord) : BitVec 8 := w.extractLsb' 8 8
def h16Of (w : DWord) : Half := w.extractLsb' 16 16
def a32Of (w : DWord) : Word := w.extractLsb' 32 32

/-- R92: the adapter word {A32, H16, B8, AOP}. -/
def adapterWord (a32 : Word) (h16 : Half) (b8 : BitVec 8) (aop : BitVec 8) : DWord := a32 ++ h16 ++ b8 ++ aop

/-- R93: every field that the operation does not use is 0, or the word is no operation. -/
def decodeAdapter (w : DWord) : Except DecodeError Instr :=
  let bare : Bool := b8Of w == 0 && h16Of w == 0 && a32Of w == 0
  let i : Option Instr :=
    match (aopOf w).toNat with
    | 0x01 => if bare then some .periphDisable else none
    | 0x02 => if bare then some .clearCflag else none
    | 0x03 => if h16Of w = 0 then some (.dmaProgram (a32Of w) (b8Of w)) else none
    | 0x04 => if bare then some .dmaEnable else none
    | 0x05 => if h16Of w = 0 ∧ a32Of w = 0 then some (.periphSetFrames (b8Of w)) else none
    | 0x06 => if bare then some .periphEnable else none
    | 0x07 => if b8Of w = 0 ∧ a32Of w = 0 then some (.pushWord (h16Of w)) else none
    | 0x08 => if bare then some .periphStart else none
    | 0x09 => if bare then some .dmaDisable else none
    | _ => none
  match i with
  | some i => .ok i
  | none => .error (.reservedAdapterWord w)

def decodeEnv (e : EnvStep) : Instr :=
  match e with
  | .dmaXfer => .envDmaXfer
  | .dmaTc => .envDmaTc
  | .shift => .envShift
  | .dispatch => .envDispatch
  | .wsbDone => .wsbDone

/-- The decoder: total, and what is no instruction is rejected by name. -/
def decode (c : Code) : Except DecodeError Instr :=
  match c with
  | .access off size dir => .ok (decodeAccess off size dir)
  | .seq code => decodeSeq code
  | .adapter w => decodeAdapter w
  | .env e => .ok (decodeEnv e)
  | .chunk => .ok .chunk

/-- The encoder, from the register map (R80), the command word (R87, R88), the SEQ_PC codes (R30) and the adapter
operation codes (R93). -/
def encode (i : Instr) : Code :=
  match i with
  | .init n => .access 0x00 32 (.write (commandWord 0x1 n))
  | .enq len => .access 0x00 32 (.write (commandWord 0x2 len))
  | .wsb w => .access 0x00 32 (.write (commandWord 0x3 w))
  | .complete => .access 0x04 32 (.write (commandWord 0x4 0))
  | .illegal .cmd w => .access 0x00 32 (.write w)
  | .illegal .cpl w => .access 0x04 32 (.write w)
  | .wrArg0 v => .access 0x08 32 (.write v)
  | .rdArg0 => .access 0x08 32 .read
  | .wrArg1 v => .access 0x0C 32 (.write v)
  | .rdArg1 => .access 0x0C 32 .read
  | .rdStatus => .access 0x10 32 .read
  | .rdIndex => .access 0x14 32 .read
  | .rdLevel => .access 0x18 32 .read
  | .rdSession => .access 0x1C 32 .read
  | .rdBase => .access 0x20 32 .read
  | .rdDsrc => .access 0x24 32 .read
  | .rdDdst => .access 0x28 32 .read
  | .rdDctl => .access 0x2C 32 .read
  | .rdFinfo => .access 0x30 32 .read
  | .inert off dir => .access off 32 dir
  | .badRegAccess off size dir => .access off size dir
  | .chunk => .chunk
  | .arm0 => .seq 1
  | .arm1 => .seq 2
  | .arm2 => .seq 3
  | .arm3 => .seq 4
  | .arm4 => .seq 5
  | .arm5 => .seq 6
  | .arm6 => .seq 7
  | .arm7 => .seq 8
  | .ret0 => .seq 9
  | .ret1 => .seq 10
  | .ret2 => .seq 11
  | .periphDisable => .adapter (adapterWord 0 0 0 0x01)
  | .clearCflag => .adapter (adapterWord 0 0 0 0x02)
  | .dmaProgram src len => .adapter (adapterWord src 0 len 0x03)
  | .dmaEnable => .adapter (adapterWord 0 0 0 0x04)
  | .periphSetFrames n => .adapter (adapterWord 0 0 n 0x05)
  | .periphEnable => .adapter (adapterWord 0 0 0 0x06)
  | .pushWord w => .adapter (adapterWord 0 w 0 0x07)
  | .periphStart => .adapter (adapterWord 0 0 0 0x08)
  | .dmaDisable => .adapter (adapterWord 0 0 0 0x09)
  | .envDmaXfer => .env .dmaXfer
  | .envDmaTc => .env .dmaTc
  | .envShift => .env .shift
  | .envDispatch => .env .dispatch
  | .wsbDone => .env .wsbDone

/-! ### The table's words

The rows of the table have four formats and no common numbering, so a bare number of bits does not say which format a word
is of. The reading chosen here is DESIGN CHOICE (notes/assumptions/14.md):
* 64 bits: an ADAPTER64 word.
* 32 bits: a CMD32 word, read on the port that accepts it. A word that neither port accepts is DMA_PROGRAM's low word if
  it has that row's fixed bits (its address operand, above bit 31, is then 0), else an illegal command on CMD.
* 16 bits: a SEQ_PC code in bits [3:0] (the table gives ARM7 and RET0 to RET2 stray field bits above bit 7).
* 8 bits: a byte offset of the register window, read, when it is a multiple of 4 and not 4 (no row has offset 4), else a
  SEQ_PC code in bits [3:0]. A row of the register window has no direction bit and no value bits, and a bit that is not
  there is 0: a read. -/

/-- The 32-bit words of the table. -/
def tableCode32 (w : Nat) : Code :=
  let cw : Word := BitVec.ofNat 32 w
  if decodeCommand .cpl cw = .complete then .access 0x04 32 (.write cw)
  else if decodeCommand .cmd cw = .illegal .cmd cw ∧ w % 256 = 0x03 ∧ w / 65536 = 0 then .adapter (BitVec.ofNat 64 w)
  else .access 0x00 32 (.write cw)

/-- The code a word of the table stands for. -/
def tableCode (nbits w : Nat) : Option Code :=
  match nbits with
  | 64 => some (.adapter (BitVec.ofNat 64 w))
  | 32 => some (tableCode32 (w % 2 ^ 32))
  | 16 => some (.seq (BitVec.ofNat 4 w))
  | 8 =>
    if w % 4 = 0 ∧ w ≠ 4 ∧ w < 64 then some (.access (BitVec.ofNat 6 w) 32 .read)
    else some (.seq (BitVec.ofNat 4 w))
  | _ => none

/-- The instruction the decoder reads from a word of the opcode table. -/
def decodeTableWord (nbits w : Nat) : Option Instr :=
  match tableCode nbits w with
  | none => none
  | some c =>
    match decode c with
    | .ok i => some i
    | .error _ => none

end Sys2Proof
end

