-- ==== Sys2Proof/Machine/State.lean ====
section
/-! DEFINITION. The state of the system as plain data: TXRING's registers (R20), the external adapter's state (R36), system
memory, the value last returned on the bus, the platform's parameters, the agents that wait, and the events still to come;
the reasons a step can stop; and the state after reset. -/

namespace Sys2Proof.Machine

/-- TXRING's registers, exactly the tuple of R20, each by its own name (R21 to R34). -/
structure Block where
  /-- INITED (R21). -/
  inited : Bool
  /-- N, the slot count (R22). -/
  n : BitVec 9
  /-- BASE, the byte address of slot 0 (R23). -/
  base : Word
  /-- HEAD, the next free slot (R24). -/
  head : BitVec 8
  /-- TAIL, the next word to send (R25). -/
  tail : BitVec 8
  /-- STATE (R27). -/
  state : BurstState
  /-- SESSION, the count committed to the burst in flight (R28). -/
  session : BitVec 8
  /-- SESSION_VALID (R28). -/
  sessionValid : Bool
  /-- SEQ_PC (R30). -/
  seqPc : SeqStep
  /-- DESC_SRC (R29). -/
  descSrc : Word
  /-- DESC_DST (R29). -/
  descDst : Word
  /-- DESC_LEN (R29). -/
  descLen : BitVec 8
  /-- DESC_EN (R29). -/
  descEn : Bool
  /-- DESC_MINC (R29). -/
  descMinc : Bool
  /-- DESC_PINC (R29). -/
  descPinc : Bool
  /-- DESC_WSIZE (R29). -/
  descWsize : BitVec 2
  /-- RESULT: false is queued, true is dropped (R31). -/
  result : Bool
  /-- WSB_PENDING (R32). -/
  wsbPending : Bool
  /-- FAULTED (R33). -/
  faulted : Bool
  /-- FAULT_CAUSE (R33, R211). -/
  cause : FaultCause
  /-- FINFO (R33, R212). -/
  finfo : Word
  /-- ARG0 (R34). -/
  arg0 : Word
  /-- ARG1 (R34). -/
  arg1 : Word
deriving DecidableEq, Repr

/-- The state of the external DMA channel and serial peripheral (R36), and the test records ATRACE, WIRE and ENV_FAULT. -/
structure Adapter where
  /-- P_EN. -/
  pEn : Bool
  /-- P_FRAMES. -/
  pFrames : BitVec 8
  /-- P_START. -/
  pStart : Bool
  /-- TXQ, the oldest word first. -/
  txq : List Half
  /-- WIRE, the first frame first. -/
  wire : List Half
  /-- TXC. -/
  txc : Bool
  /-- D_EN. -/
  dEn : Bool
  /-- D_SRC. -/
  dSrc : Word
  /-- D_DST. -/
  dDst : Word
  /-- D_LEN. -/
  dLen : BitVec 8
  /-- D_MINC. -/
  dMinc : Bool
  /-- D_PINC. -/
  dPinc : Bool
  /-- D_WSIZE. -/
  dWsize : BitVec 2
  /-- D_REMAIN. -/
  dRemain : BitVec 9
  /-- TC_ARMED. -/
  tcArmed : Bool
  /-- CFLAG. -/
  cflag : Bool
  /-- IRQ_PEND. -/
  irqPend : Bool
  /-- ATRACE, the first word emitted first. -/
  atrace : List DWord
  /-- ENV_FAULT. -/
  envFault : Bool
deriving DecidableEq, Repr

/-- System memory: the bytes that differ from what an unlisted address reads as, addresses strictly rising. -/
abbrev Memory := List Host.Cell

/-- What the outside world lets happen next: the lines of a TXRING program (R96), with the names of the agents' steps
(R10), and the inputs that are no instruction (reset, R230; the platform's setup, R232; a store of another agent to
system memory, R69). -/
inductive Event where
  /-- A bus access by the agent `who`, `size` in bits (R81, R222). It is a register-window access when `addr` is in the
  window. -/
  | access (who : Agent) (addr : Word) (size : Nat) (dir : Dir)
  /-- SEQ is let take one step (R96). -/
  | seq
  /-- ENV, or the block's release of a pending WSB, is let take one named step (R96). -/
  | env (e : EnvStep)
  /-- An operation word put on the adapter port from outside TXRING; a platform that keeps R36 has none of these. -/
  | adapterWord (w : DWord)
  /-- The reset input (R230). -/
  | reset
  /-- The platform makes the adapter meet steps 1 and 2 of R232 (R231). -/
  | platformSetup
  /-- A bus agent stores one byte to system memory (R69, R76). -/
  | store (who : Agent) (addr : Word) (v : Byte)
deriving DecidableEq, Repr

/-- The whole state. -/
structure State where
  /-- TXRING's registers (R20). -/
  blk : Block
  /-- The external adapter's state (R36). -/
  ext : Adapter
  /-- System memory (R60). -/
  mem : Memory
  /-- The value the last register-window read returned on the bus (R81); the model's own field. -/
  rdata : Word
  /-- The platform's parameters (R5); no step changes them. -/
  platform : Platform
  /-- While WSB_PENDING = 1: the agent whose WSB write is outstanding (R184); the model's own field. -/
  wsbAgent : Agent
  /-- The agents whose write of CMD is stuck (R67): it is never released, so they never have a step; the model's own
  field. -/
  stuck : List Agent
  /-- The events still to come, in order (R216); the model's own field. -/
  sched : List Event
deriving DecidableEq, Repr

/-- Why an instruction has no transition. The turn is over; an agent whose write of CMD is stuck has no further step
(Machine/Turn.lean). -/
inductive Fault where
  /-- A SEQ or ENV step that is not enabled ("Enabled when" of R133 to R140, R151 to R153, R180 to R182, R185, R189).
  Raised by the meanings of those steps. Safe: the spec gives the step no transition there. -/
  | notEnabled
  /-- A memory access that the platform does not admit (R67, R210): the step has no transition, its agent is stuck. Raised
  by ENQ, ARM6 and ENV DMA_XFER. Safe: as the spec says. -/
  | memoryNotAdmitted
  /-- A write of CMD while WSB_PENDING = 1 is held (R81). Raised by every command of the CMD port. Safe: the write has no
  step until WSB_PENDING is 0, as the spec says. -/
  | writeHeld
deriving DecidableEq, Repr

/-- What the model says nothing of. -/
inductive Refusal where
  /-- An instruction whose meaning is not modelled yet, by its mnemonic. Raised by exec. Safe: nothing is claimed. -/
  | notModelled (mnemonic : String)
  /-- A word on the adapter port that is no operation of R93 (U16: never emitted, a model need not give it an effect).
  Raised by a step. Safe: nothing is claimed of the run after it. -/
  | reservedAdapterWord (w : DWord)
  /-- Another agent stores to the backing store while INITED = 1 (R76: the model says nothing of the run). Raised by a
  step. Safe: nothing is claimed of the run after it. -/
  | foreignRingStore (addr : Word)
deriving DecidableEq, Repr

/-- The register values of R45. -/
def Block.reset : Block where
  inited := false
  n := 0
  base := 0
  head := 0
  tail := 0
  state := .idle
  session := 0
  sessionValid := false
  seqPc := .none
  descSrc := 0
  descDst := 0
  descLen := 0
  descEn := false
  descMinc := false
  descPinc := false
  descWsize := 0
  result := false
  wsbPending := false
  faulted := false
  cause := .none
  finfo := 0
  arg0 := 0
  arg1 := 0

/-- The adapter state a run starts from. The spec leaves it unspecified (R45, U7). DESIGN CHOICE
(notes/assumptions/1.md): the "Reset ENV" of 95_test_vectors.md, which meets R232, and 0 for the fields that it leaves
out. -/
def Adapter.reset : Adapter where
  pEn := false
  pFrames := 0
  pStart := false
  txq := []
  wire := []
  txc := true
  dEn := false
  dSrc := 0
  dDst := 0
  dLen := 0
  dMinc := false
  dPinc := false
  dWsize := 0
  dRemain := 0
  tcArmed := false
  cflag := false
  irqPend := false
  atrace := []
  envFault := false

/-- The platform a run starts with. Both parameters are OPEN (R5). DESIGN CHOICE (notes/assumptions/3.md): the window at
address 0, every memory access admitted. -/
def Platform.reset : Platform where
  regBase := 0
  denied := []

/-- The machine right after reset (R45, R230): nothing listed in memory, no agent stuck and nothing in the schedule. The
model's own fields rdata, wsbAgent and sched: DESIGN CHOICE (notes/assumptions/4.md, 6.md, 7.md). -/
def State.reset : State where
  blk := Block.reset
  ext := Adapter.reset
  mem := []
  rdata := 0
  platform := Platform.reset
  wsbAgent := .producer
  stuck := []
  sched := []

/-! ### Updates, one per field -/

def State.setBlk (s : State) (b : Block) : State := { s with blk := b }
def State.setExt (s : State) (x : Adapter) : State := { s with ext := x }
def State.setMem (s : State) (m : Memory) : State := { s with mem := m }
def State.setRdata (s : State) (v : Word) : State := { s with rdata := v }
def State.setWsbAgent (s : State) (a : Agent) : State := { s with wsbAgent := a }
def State.setStuck (s : State) (l : List Agent) : State := { s with stuck := l }
def State.setSched (s : State) (l : List Event) : State := { s with sched := l }

end Sys2Proof.Machine
end

