-- ==== Sys2Proof/Machine/Operands.lean ====
section
/-! DEFINITION. The operands of commands and micro-steps: index arithmetic (R110, R111, R130), slot addresses (R62), command
operands (R89), the command word a fault records (R211), and the words that register reads return (R82 to R86). -/

namespace Sys2Proof.Machine

/-! ### Index arithmetic -/

/-- R110: occupancy, `(HEAD - TAIL) mod N` in its two-case form. -/
def occOf (head tail n : Nat) : Nat := if tail ≤ head then head - tail else head + n - tail

/-- R111: available space. -/
def availOf (head tail n : Nat) : Nat := (n - 1) - occOf head tail n

/-- R130: the run length. -/
def runOf (head tail n : Nat) : Nat := min (occOf head tail n) (n - tail)

def Block.occ (b : Block) : Nat := occOf b.head.toNat b.tail.toNat b.n.toNat
def Block.avail (b : Block) : Nat := availOf b.head.toNat b.tail.toNat b.n.toNat
def Block.run (b : Block) : Nat := runOf b.head.toNat b.tail.toNat b.n.toNat

/-! ### Addresses -/

/-- The address `2*i` bytes above `a`; addresses have 32 bits (R60). -/
def halfAddr (a : Word) (i : Nat) : Word := a + BitVec.ofNat 32 (2 * i)

/-- R62: the byte address of slot `i`. -/
def Block.slotAddr (b : Block) (i : Nat) : Word := halfAddr b.base i

/-- R62: a byte address of the backing store, `BASE` to `BASE + 2N - 1`. -/
def Block.inStore (b : Block) (a : Nat) : Bool := decide (b.base.toNat ≤ a ∧ a < b.base.toNat + 2 * b.n.toNat)

/-- R112, R113: the last byte of `count` halfwords from `a` lies above 0xFFFFFFFF. -/
def rangeOverflows (a : Word) (count : Nat) : Bool := decide (0xFFFFFFFF < a.toNat + 2 * count - 1)

/-- R63: an odd byte address. -/
def oddAddr (a : Word) : Bool := a.getLsbD 0

/-! ### Register reads (R82 to R86) -/

def BurstState.code (p : BurstState) : BitVec 2 :=
  match p with
  | .idle => 0
  | .armed => 1
  | .running => 2
  | .retiring => 3

def FaultCause.code (c : FaultCause) : BitVec 4 :=
  match c with
  | .none => 0
  | .illegalCmd => 1
  | .notInit => 2
  | .reinit => 3
  | .badCapacity => 4
  | .misaligned => 5
  | .badAddress => 6
  | .singleWhileBurst => 7
  | .spuriousCompletion => 8
  | .badRegAccess => 9

/-- R82: STATUS = {16'b0, SEQ_PC, FAULT_CAUSE, 1'b0, FAULTED, WSB_PENDING, SESSION_VALID, RESULT, INITED, STATE}. -/
def Block.statusWord (b : Block) : Word :=
  0#16 ++ b.seqPc.code ++ FaultCause.code b.cause ++ 0#1 ++ BitVec.ofBool b.faulted ++ BitVec.ofBool b.wsbPending ++
    BitVec.ofBool b.sessionValid ++ BitVec.ofBool b.result ++ BitVec.ofBool b.inited ++ BurstState.code b.state

/-- R83: INDEX = {7'b0, N, TAIL, HEAD}. -/
def Block.indexWord (b : Block) : Word := 0#7 ++ b.n ++ b.tail ++ b.head

/-- R84, R192: LEVEL = {16'b0, avail, occ} while INITED = 1, and 0 before. -/
def Block.levelWord (b : Block) : Word :=
  if b.inited then 0#16 ++ BitVec.ofNat 8 b.avail ++ BitVec.ofNat 8 b.occ else 0

/-- R85: SESSION, zero-extended. -/
def Block.sessionWord (b : Block) : Word := 0#24 ++ b.session

/-- R86: DCTL = {18'b0, DESC_WSIZE, 1'b0, DESC_PINC, DESC_MINC, DESC_EN, DESC_LEN}. -/
def Block.dctlWord (b : Block) : Word :=
  0#18 ++ b.descWsize ++ 0#1 ++ BitVec.ofBool b.descPinc ++ BitVec.ofBool b.descMinc ++ BitVec.ofBool b.descEn ++ b.descLen

/-! ### Wire payload (R98), which TXRING never reads -/

/-- R98: the order in which a word's 16 bits leave on the wire, most significant first. -/
def frameBits (w : Half) : List Bool := (List.range 16).map fun k => w.getLsbD (15 - k)

/-- R98: the external device's 5-bit command. -/
def payloadCommand (w : Half) : BitVec 5 := w.extractLsb' 11 5

/-- R98: the external device's 11-bit data. -/
def payloadData (w : Half) : BitVec 11 := w.extractLsb' 0 11

end Sys2Proof.Machine
end

