-- ==== Sys2Proof/Machine/Flags.lean ====
section
/-! DEFINITION. The flags of R38 and the conditions steps read: RESULT, the adapter's CFLAG and TXC, ENV_FAULT, and the boot
condition of R232. FAULTED is set in Machine/Ops.lean (raiseFault). -/

namespace Sys2Proof.Machine

/-- R31, R113: ENQ records its outcome; true is dropped. -/
def Block.setResult (b : Block) (dropped : Bool) : Block := { b with result := dropped }

/-- R176, R134, R151: the completion flag is cleared. -/
def Adapter.clearCflag (x : Adapter) : Adapter := { x with cflag := false }

/-- R175, R180: a word is handed to the peripheral, so TXC falls. -/
def Adapter.push (x : Adapter) (w : Half) : Adapter := { x with txq := x.txq ++ [w], txc := false }

/-- R183: ENV_FAULT is set when an adapter rule is broken and never cleared. -/
def Adapter.mark (x : Adapter) (broken : Bool) : Adapter := { x with envFault := x.envFault || broken }

/-- R232, steps 1 and 2: what the platform must have established of the adapter before INIT. -/
def Adapter.bootReady (x : Adapter) : Bool :=
  x.txq.isEmpty && x.txc && !x.dEn && !x.tcArmed && !x.cflag && !x.irqPend

/-- R231, R232: the platform makes the adapter meet the boot condition; nothing else changes. -/
def Adapter.makeBootReady (x : Adapter) : Adapter :=
  { x with txq := [], txc := true, dEn := false, tcArmed := false, cflag := false, irqPend := false }

/-- R180: when ENV DMA_XFER is enabled. -/
def Adapter.xferEnabled (x : Adapter) : Bool := x.dEn && x.pEn && x.pStart && x.dRemain != 0

/-- R181: when ENV DMA_TC is enabled. -/
def Adapter.tcEnabled (x : Adapter) : Bool := x.dEn && x.tcArmed && x.dRemain == 0 && x.txq.isEmpty

end Sys2Proof.Machine
end

