-- ==== Sys2Proof/Machine/Ops.lean ====
section
/-! DEFINITION. The named operations over memory and registers: bytes and halfwords of memory, the admitted accesses, ENQ's
copy, the adapter port, taking a fault (R212) and leaving it (R230), entering the completion handler (R150, R221), the
chunker (R131). -/

namespace Sys2Proof.Machine

/-! ### Memory -/

/-- The byte at an address. -/
def Memory.read (m : Memory) (a : Nat) : Byte :=
  match m with
  | [] => unlistedByte
  | (k, v) :: rest => if a = k then v else Memory.read rest a

/-- Write a byte; the list stays strictly rising and lists no byte that an unlisted address reads as. -/
def Memory.write (m : Memory) (a : Nat) (v : Byte) : Memory :=
  match m with
  | [] => if v = unlistedByte then [] else [(a, v)]
  | (k, x) :: rest =>
    if a < k then (if v = unlistedByte then (k, x) :: rest else (a, v) :: (k, x) :: rest)
    else if a = k then (if v = unlistedByte then rest else (a, v) :: rest)
    else (k, x) :: Memory.write rest a v

/-- The canonical form: addresses strictly rising and inside the 32-bit space (R60), no entry for an unlisted byte. -/
abbrev Memory.wf (m : Memory) : Prop :=
  List.Pairwise (fun c d : Host.Cell => c.1 < d.1) m ∧ ∀ c ∈ m, c.1 < 2 ^ 32 ∧ c.2 ≠ unlistedByte

/-- R61: a 16-bit value, low byte at the lower address. -/
def Memory.readHalf (m : Memory) (a : Word) : Half := Memory.read m (a + 1).toNat ++ Memory.read m a.toNat

/-- R61: a 16-bit value, low byte at the lower address. -/
def Memory.writeHalf (m : Memory) (a : Word) (v : Half) : Memory :=
  Memory.write (Memory.write m a.toNat (v.extractLsb' 0 8)) (a + 1).toNat (v.extractLsb' 8 8)

/-- R67: MEM_ADMIT(a, 2). -/
def admits (p : Platform) (a : Word) : Bool := !p.denied.any fun r => r.1 ≤ a.toNat && a.toNat ≤ r.2

/-- R113, R114: ENQ's copy loop from word `i` on, `k` words to go: word `i` is read, then written to slot
`(HEAD + i) mod N`. No result when an access is not admitted (R67). -/
def copyWords (p : Platform) (b : Block) (src : Word) (k i : Nat) (m : Memory) : Option Memory :=
  match k with
  | 0 => some m
  | k + 1 =>
    let from_ := halfAddr src i
    let to_ := b.slotAddr ((b.head.toNat + i) % b.n.toNat)
    if admits p from_ && admits p to_ then
      copyWords p b src k (i + 1) (Memory.writeHalf m to_ (Memory.readHalf m from_))
    else none

/-! ### The adapter port (R170) -/

/-- The operations TXRING sends (R93). -/
inductive AdapterOp where
  | periphDisable
  | clearCflag
  | dmaProgram (src : Word) (len : BitVec 8)
  | dmaEnable
  | periphSetFrames (n : BitVec 8)
  | periphEnable
  | pushWord (w : Half)
  | periphStart
  | dmaDisable
deriving DecidableEq, Repr

/-- The word of an operation (R92, R93). -/
def AdapterOp.word (op : AdapterOp) : DWord :=
  match op with
  | .periphDisable => adapterWord 0 0 0 0x01
  | .clearCflag => adapterWord 0 0 0 0x02
  | .dmaProgram src len => adapterWord src 0 len 0x03
  | .dmaEnable => adapterWord 0 0 0 0x04
  | .periphSetFrames n => adapterWord 0 0 n 0x05
  | .periphEnable => adapterWord 0 0 0 0x06
  | .pushWord w => adapterWord 0 w 0 0x07
  | .periphStart => adapterWord 0 0 0 0x08
  | .dmaDisable => adapterWord 0 0 0 0x09

/-- The effect of an operation on the adapter (R171 to R179); `dst` is DESC_DST, which DMA_PROGRAM takes over (R177). -/
def applyOp (op : AdapterOp) (dst : Word) (x : Adapter) : Adapter :=
  match op with
  | .periphDisable => { x.mark (!x.txq.isEmpty) with pEn := false, pStart := false }
  | .periphEnable => { x with pEn := true }
  | .periphSetFrames n => { x.mark x.pEn with pFrames := n }
  | .periphStart => { x with pStart := true }
  | .pushWord w => x.push w
  | .clearCflag => x.clearCflag
  | .dmaProgram src len =>
    { x.mark x.dEn with
      dSrc := src, dLen := len, dDst := dst, dMinc := true, dPinc := false, dWsize := 0b01,
      dRemain := len.setWidth 9, tcArmed := true }
  | .dmaEnable => { x with dEn := true }
  | .dmaDisable => { x with dEn := false }

/-- R170: the word is appended to ATRACE and the operation takes effect. -/
def emit (op : AdapterOp) (s : State) : State :=
  s.setExt (applyOp op s.blk.descDst { s.ext with atrace := s.ext.atrace ++ [op.word] })

/-! ### Faults and the completion handler -/

/-- R212: take a fault. The first fault is kept; nothing else changes. -/
def raiseFault (c : FaultCause) (info : Word) (s : State) : State :=
  if s.blk.faulted then s else s.setBlk { s.blk with faulted := true, cause := c, finfo := info }

/-- R230: reset, the only way out of a fault (R214). Memory and the adapter are not touched. A pending WSB is cancelled and its
write of CMD completes, so the agent that wrote it goes on. Two points that the spec leaves open: another write that is held
then is performed after the reset (DESIGN CHOICE, notes/assumptions/6.md), and an agent that is stuck stays stuck (DEDUCED,
notes/assumptions/5.md). -/
def resetBlock (s : State) : State := s.setBlk Block.reset

/-- R150: COMPLETE after its common checks, the entry of the completion handler (R221). -/
def enterCompletion (s : State) : State :=
  if s.blk.faulted then s
  else if !s.blk.inited then raiseFault .notInit (commandWord 0x4 0) s
  else if s.blk.state ≠ .running then raiseFault .spuriousCompletion (commandWord 0x4 0) s
  else s.setBlk { s.blk with state := .retiring, seqPc := .ret0 }

/-- R131: CHUNK. -/
def chunkBlock (b : Block) : Block :=
  if b.state ≠ .idle then b
  else if b.run ≤ 1 then b
  else { b with session := BitVec.ofNat 8 b.run, sessionValid := true, state := .armed, seqPc := .arm0 }

/-- R153: RET2's own part, the end of the completion handler: the session is retired. -/
def retireBlock (b : Block) : Block :=
  { b with
    tail := BitVec.ofNat 8 ((b.tail.toNat + b.session.toNat) % b.n.toNat),
    sessionValid := false, state := .idle, seqPc := .none }

/-! ### Shapes shared by the meanings -/

/-- A command of the CMD port, after the checks that come before the command's own (R81, R215): frozen while FAULTED = 1,
held while WSB_PENDING = 1. -/
def cmdPort (s : State) (body : Host.Outcome State Fault Refusal) : Host.Outcome State Fault Refusal :=
  if s.blk.faulted then .next s
  else if s.blk.wsbPending then .fault .writeHeld
  else body

/-- A micro-step is enabled when SEQ_PC holds it and FAULTED = 0 (R133 to R140, R151 to R153, R213). -/
def microStep (p : SeqStep) (s : State) (body : Host.Outcome State Fault Refusal) : Host.Outcome State Fault Refusal :=
  if s.blk.seqPc = p ∧ s.blk.faulted = false then body else .fault .notEnabled

/-- SEQ_PC is set to the next micro-step. -/
def setSeqPc (p : SeqStep) (s : State) : State := s.setBlk { s.blk with seqPc := p }

/-- A register read returns a value and changes nothing else (R66). -/
def readReg (v : Word) (s : State) : Host.Outcome State Fault Refusal := .next (s.setRdata v)

/-- A write of ARG0, ARG1 or another register is ignored while FAULTED = 1 (R81, R213). -/
def writeReg (s : State) (b : Block) : Host.Outcome State Fault Refusal :=
  if s.blk.faulted then .next s else .next (s.setBlk b)

end Sys2Proof.Machine
end

