-- ==== Sys2Proof/Machine/AdapterPort.lean ====
section
/-! DEFINITION. The meanings of the adapter operations (R171 to R179), each as one emission (R170): the word enters ATRACE
and the operation takes effect. SEQ's micro-steps and WSB emit them inside their own steps. -/

namespace Sys2Proof.Machine

/-- R171: PERIPH_DISABLE. -/
def execPeriphDisable (s : State) : Host.Outcome State Fault Refusal := .next (emit .periphDisable s)

/-- R176: CLEAR_CFLAG. -/
def execClearCflag (s : State) : Host.Outcome State Fault Refusal := .next (emit .clearCflag s)

/-- R177: DMA_PROGRAM. -/
def execDmaProgram (src : Word) (len : BitVec 8) (s : State) : Host.Outcome State Fault Refusal :=
  .next (emit (.dmaProgram src len) s)

/-- R178: DMA_ENABLE. -/
def execDmaEnable (s : State) : Host.Outcome State Fault Refusal := .next (emit .dmaEnable s)

/-- R173: PERIPH_SET_FRAMES. -/
def execPeriphSetFrames (n : BitVec 8) (s : State) : Host.Outcome State Fault Refusal := .next (emit (.periphSetFrames n) s)

/-- R172: PERIPH_ENABLE. -/
def execPeriphEnable (s : State) : Host.Outcome State Fault Refusal := .next (emit .periphEnable s)

/-- R175: PUSH_WORD. -/
def execPushWord (w : Half) (s : State) : Host.Outcome State Fault Refusal := .next (emit (.pushWord w) s)

/-- R174: PERIPH_START. -/
def execPeriphStart (s : State) : Host.Outcome State Fault Refusal := .next (emit .periphStart s)

/-- R179: DMA_DISABLE. -/
def execDmaDisable (s : State) : Host.Outcome State Fault Refusal := .next (emit .dmaDisable s)

end Sys2Proof.Machine
end

