-- ==== Sys2Proof/Machine/Commands.lean ====
section
/-! DEFINITION. The meanings of the commands: INIT (R112), ENQ (R113), WSB (R184), COMPLETE (R150), an illegal word (R90). -/

namespace Sys2Proof.Machine

/-- R112: INIT. -/
def execInit (n : Half) (s : State) : Host.Outcome State Fault Refusal :=
  let b := s.blk
  let word := commandWord 0x1 n
  cmdPort s <|
    if b.inited then .next (raiseFault .reinit word s)
    else if n.toNat < 1 ∨ 256 < n.toNat then .next (raiseFault .badCapacity word s)
    else if oddAddr b.arg0 || oddAddr b.arg1 then .next (raiseFault .misaligned word s)
    else if rangeOverflows b.arg0 n.toNat then .next (raiseFault .badAddress word s)
    else .next (s.setBlk { b with
      n := n.setWidth 9, base := b.arg0, descDst := b.arg1, head := 0, tail := 0,
      state := .idle, sessionValid := false, seqPc := .none, inited := true })

/-- R113: ENQ. -/
def execEnq (len : Half) (s : State) : Host.Outcome State Fault Refusal :=
  let b := s.blk
  let word := commandWord 0x2 len
  cmdPort s <|
    if !b.inited then .next (raiseFault .notInit word s)
    else if 0 < len.toNat ∧ oddAddr b.arg0 = true then .next (raiseFault .misaligned word s)
    else if 0 < len.toNat ∧ rangeOverflows b.arg0 len.toNat = true then .next (raiseFault .badAddress word s)
    else if b.avail < len.toNat then .next (s.setBlk (b.setResult true))
    else
      match copyWords s.platform b b.arg0 len.toNat 0 s.mem with
      | none => .fault .memoryNotAdmitted
      | some m =>
        .next ((s.setMem m).setBlk (chunkBlock
          ({ b with head := BitVec.ofNat 8 ((b.head.toNat + len.toNat) % b.n.toNat) }.setResult false)))

/-- R184: WSB. -/
def execWsb (w : Half) (s : State) : Host.Outcome State Fault Refusal :=
  let word := commandWord 0x3 w
  cmdPort s <|
    if !s.blk.inited then .next (raiseFault .notInit word s)
    else if s.blk.state ≠ .idle then .next (raiseFault .singleWhileBurst word s)
    else
      let t := emit (.pushWord w) s
      .next (t.setBlk { t.blk with wsbPending := true })

/-- R150: COMPLETE, a write of the CPL port, which is never held (R81). -/
def execComplete (s : State) : Host.Outcome State Fault Refusal := .next (enterCompletion s)

/-- R90: an illegal word only faults; on CMD it is held like every write of CMD (R81). -/
def execIllegal (port : Port) (w : Word) (s : State) : Host.Outcome State Fault Refusal :=
  match port with
  | .cmd => cmdPort s (.next (raiseFault .illegalCmd w s))
  | .cpl => .next (raiseFault .illegalCmd w s)

end Sys2Proof.Machine
end

