-- ==== Sys2Proof/Machine/Environment.lean ====
section
/-! DEFINITION. The meanings of the environment's steps (R180, R181, R182, R189) and of the release of a pending WSB (R185).
They run whether or not FAULTED = 1 (R213). -/

namespace Sys2Proof.Machine

/-- R180: the address of the DMA's next word, `D_SRC + 2*(D_LEN - D_REMAIN)`, in 32 bits. -/
def xferAddr (x : Adapter) : Word := x.dSrc + 2 * (x.dLen.setWidth 32 - x.dRemain.setWidth 32)

/-- R180: ENV DMA_XFER. -/
def execEnvDmaXfer (s : State) : Host.Outcome State Fault Refusal :=
  let x := s.ext
  if !x.xferEnabled then .fault .notEnabled
  else if !admits s.platform (xferAddr x) then .fault .memoryNotAdmitted
  else .next (s.setExt { x.push (Memory.readHalf s.mem (xferAddr x)) with dRemain := x.dRemain - 1 })

/-- R181: ENV DMA_TC. -/
def execEnvDmaTc (s : State) : Host.Outcome State Fault Refusal :=
  if s.ext.tcEnabled then .next (s.setExt { s.ext with cflag := true, irqPend := true, tcArmed := false })
  else .fault .notEnabled

/-- R182: ENV SHIFT. -/
def execEnvShift (s : State) : Host.Outcome State Fault Refusal :=
  match s.ext.txq with
  | [] => .fault .notEnabled
  | w :: rest =>
    .next (s.setExt { s.ext with txq := rest, wire := s.ext.wire ++ [w], txc := s.ext.txc || rest.isEmpty })

/-- R189: ENV DISPATCH acknowledges the interrupt and writes COMPLETE to CPL. -/
def execEnvDispatch (s : State) : Host.Outcome State Fault Refusal :=
  if s.ext.irqPend then .next (enterCompletion (s.setExt { s.ext with irqPend := false }))
  else .fault .notEnabled

/-- R185: WSB_DONE, enabled even while FAULTED = 1. -/
def execWsbDone (s : State) : Host.Outcome State Fault Refusal :=
  if s.blk.wsbPending && s.ext.txc then .next (s.setBlk { s.blk with wsbPending := false })
  else .fault .notEnabled

end Sys2Proof.Machine
end

