-- ==== Sys2Proof/Machine/Registers.lean ====
section
/-! DEFINITION. The meanings of the register-window accesses that are no command (R190 to R201, R81). -/

namespace Sys2Proof.Machine

/-- R198: WR ARG0. -/
def execWrArg0 (v : Word) (s : State) : Host.Outcome State Fault Refusal := writeReg s { s.blk with arg0 := v }

/-- R198: RD ARG0. -/
def execRdArg0 (s : State) : Host.Outcome State Fault Refusal := readReg s.blk.arg0 s

/-- R199: WR ARG1. -/
def execWrArg1 (v : Word) (s : State) : Host.Outcome State Fault Refusal := writeReg s { s.blk with arg1 := v }

/-- R199: RD ARG1. -/
def execRdArg1 (s : State) : Host.Outcome State Fault Refusal := readReg s.blk.arg1 s

/-- R190: RD STATUS. -/
def execRdStatus (s : State) : Host.Outcome State Fault Refusal := readReg s.blk.statusWord s

/-- R191: RD INDEX. -/
def execRdIndex (s : State) : Host.Outcome State Fault Refusal := readReg s.blk.indexWord s

/-- R192: RD LEVEL. -/
def execRdLevel (s : State) : Host.Outcome State Fault Refusal := readReg s.blk.levelWord s

/-- R193: RD SESSION. -/
def execRdSession (s : State) : Host.Outcome State Fault Refusal := readReg s.blk.sessionWord s

/-- R194: RD BASE. -/
def execRdBase (s : State) : Host.Outcome State Fault Refusal := readReg s.blk.base s

/-- R195: RD DSRC. -/
def execRdDsrc (s : State) : Host.Outcome State Fault Refusal := readReg s.blk.descSrc s

/-- R196: RD DDST. -/
def execRdDdst (s : State) : Host.Outcome State Fault Refusal := readReg s.blk.descDst s

/-- R197: RD DCTL. -/
def execRdDctl (s : State) : Host.Outcome State Fault Refusal := readReg s.blk.dctlWord s

/-- R200: RD FINFO. -/
def execRdFinfo (s : State) : Host.Outcome State Fault Refusal := readReg s.blk.finfo s

/-- R201: a read returns 0, a write has no effect, whatever the offset. -/
def execInert (dir : Dir) (s : State) : Host.Outcome State Fault Refusal :=
  match dir with
  | .read => readReg 0 s
  | .write _ => .next s

/-- R81, R215: BAD_REG_ACCESS with the offset as its information. A faulting read returns 0; a write while FAULTED = 1 has no
effect. -/
def execBadRegAccess (off : BitVec 6) (dir : Dir) (s : State) : Host.Outcome State Fault Refusal :=
  match dir with
  | .read => .next ((raiseFault .badRegAccess (off.setWidth 32) s).setRdata 0)
  | .write _ => .next (raiseFault .badRegAccess (off.setWidth 32) s)

end Sys2Proof.Machine
end

