-- ==== Sys2Proof/Machine/Sequencer.lean ====
section
/-! DEFINITION. The meanings of CHUNK (R131), the arming micro-steps (R133 to R140) and the retire micro-steps (R151 to
R153). -/

namespace Sys2Proof.Machine

/-- R131: CHUNK alone, as ENQ and RET2 run it inside their own step. -/
def execChunk (s : State) : Host.Outcome State Fault Refusal := .next (s.setBlk (chunkBlock s.blk))

/-- R133: ARM0, disable the peripheral. -/
def execArm0 (s : State) : Host.Outcome State Fault Refusal :=
  microStep .arm0 s (.next (setSeqPc .arm1 (emit .periphDisable s)))

/-- R134: ARM1, clear the completion flag. -/
def execArm1 (s : State) : Host.Outcome State Fault Refusal :=
  microStep .arm1 s (.next (setSeqPc .arm2 (emit .clearCflag s)))

/-- R135: ARM2, program the DMA descriptor. -/
def execArm2 (s : State) : Host.Outcome State Fault Refusal :=
  microStep .arm2 s <|
    let t := s.setBlk { s.blk with
      descSrc := s.blk.slotAddr (s.blk.tail.toNat + 1), descLen := BitVec.ofNat 8 (s.blk.session.toNat - 1),
      descMinc := true, descPinc := false, descWsize := 0b01 }
    .next (setSeqPc .arm3 (emit (.dmaProgram t.blk.descSrc t.blk.descLen) t))

/-- R136: ARM3, enable the DMA channel. -/
def execArm3 (s : State) : Host.Outcome State Fault Refusal :=
  microStep .arm3 s (.next (setSeqPc .arm4 (emit .dmaEnable (s.setBlk { s.blk with descEn := true }))))

/-- R137: ARM4, set the peripheral's frame count. -/
def execArm4 (s : State) : Host.Outcome State Fault Refusal :=
  microStep .arm4 s (.next (setSeqPc .arm5 (emit (.periphSetFrames s.blk.session) s)))

/-- R138: ARM5, enable the peripheral. -/
def execArm5 (s : State) : Host.Outcome State Fault Refusal :=
  microStep .arm5 s (.next (setSeqPc .arm6 (emit .periphEnable s)))

/-- R139: ARM6, push the first word. -/
def execArm6 (s : State) : Host.Outcome State Fault Refusal :=
  microStep .arm6 s <|
    let a := s.blk.slotAddr s.blk.tail.toNat
    if admits s.platform a then .next (setSeqPc .arm7 (emit (.pushWord (Memory.readHalf s.mem a)) s))
    else .fault .memoryNotAdmitted

/-- R140: ARM7, start the peripheral. -/
def execArm7 (s : State) : Host.Outcome State Fault Refusal :=
  microStep .arm7 s <|
    let t := emit .periphStart s
    .next (t.setBlk { t.blk with state := .running, seqPc := .none })

/-- R151: RET0, clear the completion flag. -/
def execRet0 (s : State) : Host.Outcome State Fault Refusal :=
  microStep .ret0 s (.next (setSeqPc .ret1 (emit .clearCflag s)))

/-- R152: RET1, disable the DMA channel. -/
def execRet1 (s : State) : Host.Outcome State Fault Refusal :=
  microStep .ret1 s (.next (setSeqPc .ret2 (emit .dmaDisable (s.setBlk { s.blk with descEn := false }))))

/-- R153: RET2, retire the session and run the chunker again. -/
def execRet2 (s : State) : Host.Outcome State Fault Refusal :=
  microStep .ret2 s (.next (s.setBlk (chunkBlock (retireBlock s.blk))))

end Sys2Proof.Machine
end

