-- ==== Sys2Proof/Machine/Dispatch.lean ====
section
/-! DEFINITION. The dispatch from an instruction to its meaning, one arm a constructor. -/

namespace Sys2Proof.Machine

def exec (i : Instr) (s : State) : Host.Outcome State Fault Refusal :=
  match i with
  -- CMD32
  | .init n => Sys2Proof.Machine.execInit n s
  | .enq len => Sys2Proof.Machine.execEnq len s
  | .wsb w => Sys2Proof.Machine.execWsb w s
  | .complete => Sys2Proof.Machine.execComplete s
  | .illegal port w => Sys2Proof.Machine.execIllegal port w s
  -- MMIO32
  | .wrArg0 v => Sys2Proof.Machine.execWrArg0 v s
  | .rdArg0 => Sys2Proof.Machine.execRdArg0 s
  | .wrArg1 v => Sys2Proof.Machine.execWrArg1 v s
  | .rdArg1 => Sys2Proof.Machine.execRdArg1 s
  | .rdStatus => Sys2Proof.Machine.execRdStatus s
  | .rdIndex => Sys2Proof.Machine.execRdIndex s
  | .rdLevel => Sys2Proof.Machine.execRdLevel s
  | .rdSession => Sys2Proof.Machine.execRdSession s
  | .rdBase => Sys2Proof.Machine.execRdBase s
  | .rdDsrc => Sys2Proof.Machine.execRdDsrc s
  | .rdDdst => Sys2Proof.Machine.execRdDdst s
  | .rdDctl => Sys2Proof.Machine.execRdDctl s
  | .rdFinfo => Sys2Proof.Machine.execRdFinfo s
  | .inert _ dir => Sys2Proof.Machine.execInert dir s
  | .badRegAccess off _ dir => Sys2Proof.Machine.execBadRegAccess off dir s
  -- SEQ_UOP
  | .chunk => Sys2Proof.Machine.execChunk s
  | .arm0 => Sys2Proof.Machine.execArm0 s
  | .arm1 => Sys2Proof.Machine.execArm1 s
  | .arm2 => Sys2Proof.Machine.execArm2 s
  | .arm3 => Sys2Proof.Machine.execArm3 s
  | .arm4 => Sys2Proof.Machine.execArm4 s
  | .arm5 => Sys2Proof.Machine.execArm5 s
  | .arm6 => Sys2Proof.Machine.execArm6 s
  | .arm7 => Sys2Proof.Machine.execArm7 s
  | .ret0 => Sys2Proof.Machine.execRet0 s
  | .ret1 => Sys2Proof.Machine.execRet1 s
  | .ret2 => Sys2Proof.Machine.execRet2 s
  -- ADAPTER64
  | .periphDisable => Sys2Proof.Machine.execPeriphDisable s
  | .clearCflag => Sys2Proof.Machine.execClearCflag s
  | .dmaProgram src len => Sys2Proof.Machine.execDmaProgram src len s
  | .dmaEnable => Sys2Proof.Machine.execDmaEnable s
  | .periphSetFrames n => Sys2Proof.Machine.execPeriphSetFrames n s
  | .periphEnable => Sys2Proof.Machine.execPeriphEnable s
  | .pushWord w => Sys2Proof.Machine.execPushWord w s
  | .periphStart => Sys2Proof.Machine.execPeriphStart s
  | .dmaDisable => Sys2Proof.Machine.execDmaDisable s
  -- ENV_STEP
  | .envDmaXfer => Sys2Proof.Machine.execEnvDmaXfer s
  | .envDmaTc => Sys2Proof.Machine.execEnvDmaTc s
  | .envShift => Sys2Proof.Machine.execEnvShift s
  | .envDispatch => Sys2Proof.Machine.execEnvDispatch s
  | .wsbDone => Sys2Proof.Machine.execWsbDone s

end Sys2Proof.Machine
end

