-- ==== Sys2Proof/Machine/Fetch.lean ====
section
/-! DEFINITION. Which instruction an event is: the register window's place (R80), the codes that the agents present,
which agents and events wait (R67, R81, R184), and how a code is placed so that the next step runs it. -/

namespace Sys2Proof.Machine

/-- R80: the byte offset in the 64-byte window at REG_BASE; none outside it. -/
def windowOffset (p : Platform) (addr : Word) : Option (BitVec 6) :=
  let d := addr - p.regBase
  if d.toNat < 64 then some (d.setWidth 6) else none

/-- The code an event presents to the decoder; none when the event is no instruction, is a bus access outside the register
window, or is a turn of SEQ while SEQ_PC is NONE. -/
def eventCode (s : State) (e : Event) : Option Code :=
  match e with
  | .access _ addr size dir => (windowOffset s.platform addr).map fun off => .access off size dir
  | .seq => if s.blk.seqPc = .none then none else some (.seq s.blk.seqPc.code)
  | .env e => some (.env e)
  | .adapterWord w => some (.adapter w)
  | .reset => none
  | .platformSetup => none
  | .store _ _ _ => none

/-- The bus agent whose step an event is. -/
def Event.agent (e : Event) : Option Agent :=
  match e with
  | .access who _ _ _ => some who
  | .store who _ _ => some who
  | .seq => none
  | .env _ => none
  | .adapterWord _ => none
  | .reset => none
  | .platformSetup => none

/-- An agent has no step while its write of CMD is outstanding: R184, the PRODUCER while WSB_PENDING = 1, and so the agent
that wrote the WSB where that is another one (DEDUCED, notes/assumptions/6.md); R67, an agent whose write is stuck, for
ever, after a fault and a reset too (DEDUCED, notes/assumptions/5.md). -/
def agentWaits (s : State) (a : Agent) : Bool :=
  s.stuck.contains a || (s.blk.wsbPending && (a == .producer || a == s.wsbAgent))

/-- R81, step 5: a write of CMD is held while WSB_PENDING = 1. Steps 1 and 2 come first: while FAULTED = 1 the write is not
held, and an access that is not 32 bits wide is not one. DESIGN CHOICE (notes/assumptions/6.md): a write that is held when
reset, and not R185, clears WSB_PENDING is performed after the reset; the spec does not say what becomes of it. -/
def heldEvent (s : State) (e : Event) : Bool :=
  match e with
  | .access _ addr size (.write _) =>
    s.blk.wsbPending && !s.blk.faulted && size == 32 && windowOffset s.platform addr == some 0
  | _ => false

/-- An event waits when it is a held write, when its agent has no step, or when its agent is one of `blocked`, which have an
earlier event that waits. -/
def waits (s : State) (blocked : List Agent) (e : Event) : Bool :=
  heldEvent s e || e.agent.any fun a => blocked.contains a || agentWaits s a

/-- The first event that does not wait, and the events that stay: one that waits keeps its place, and the later events of
its agent wait behind it (R81, R184). -/
def takeFirst (s : State) (blocked : List Agent) (l : List Event) : Option (Event × List Event) :=
  match l with
  | [] => none
  | e :: rest =>
    if waits s blocked e then (takeFirst s (e.agent.toList ++ blocked) rest).map fun p => (p.1, e :: p.2)
    else some (e, rest)

/-- The next event of a state, and the schedule after it. With no event to take it is SEQ's turn: SEQ, TXRING's own
sequencer, is weakly fair (R142), and a schedule holds finitely many events. -/
def takeEvent (s : State) : Event × List Event := (takeFirst s [] s.sched).getD (.seq, s.sched)

/-- The agent that a register-window access placed from outside is given: CPL is the DISPATCH's port (R80), everything else
the PRODUCER's. -/
def portAgent (off : BitVec 6) : Agent := if off = 0x04 then .dispatch else .producer

/-- A code placed where the next step takes it: at the front of the schedule, and for a SEQ_UOP row also in SEQ_PC. CHUNK
has no code and no event of its own (R99, R131). -/
def placeCode (c : Code) (s : State) : State :=
  match c with
  | .access off size dir => s.setSched (.access (portAgent off) (s.platform.regBase + off.setWidth 32) size dir :: s.sched)
  | .seq code =>
    match seqStepOf code with
    | some p => (setSeqPc p s).setSched (.seq :: s.sched)
    | none => s
  | .adapter w => s.setSched (.adapterWord w :: s.sched)
  | .env e => s.setSched (.env e :: s.sched)
  | .chunk => s

end Sys2Proof.Machine
end

