-- ==== Sys2Proof/Machine/Turn.lean ====
section
/-! DEFINITION. What one event does. -/

namespace Sys2Proof.Machine

/-- R184: where an access of agent `who` has made WSB_PENDING rise, its write of CMD stays outstanding. -/
def noteWsb (who : Option Agent) (s t : State) : State :=
  match who with
  | some a => if t.blk.wsbPending && !s.blk.wsbPending then t.setWsbAgent a else t
  | none => t

/-- R67: an agent whose write of CMD makes an access that is not admitted is stuck; the write is never released. -/
def noteStuck (who : Option Agent) (s : State) : State :=
  match who with
  | some a => s.setStuck (a :: s.stuck)
  | none => s

/-- What an instruction's outcome makes of the state, the instruction being a step of the bus agent `who`, or of none. One
with no transition leaves TXRING, the adapter and memory as they are, and the other agents go on (R67, R210, R216). -/
def settle (who : Option Agent) (s : State) (o : Host.Outcome State Fault Refusal) : Host.Outcome State Fault Refusal :=
  match o with
  | .next t => .next (noteWsb who s t)
  | .fault .memoryNotAdmitted => .next (noteStuck who s)
  | .fault .notEnabled => .next s
  | .fault .writeHeld => .next s
  | .refused r => .refused r

/-- An event that presents a code: the decoded instruction is executed. An event that presents none changes nothing. -/
def runCode (e : Event) (s : State) : Host.Outcome State Fault Refusal :=
  match eventCode s e with
  | none => .next s
  | some c =>
    match decode c with
    | .ok i => settle e.agent s (exec i s)
    | .error (.reservedAdapterWord w) => .refused (.reservedAdapterWord w)
    | .error .seqNone => .next s
    | .error (.seqNeverHeld _) => .next s

/-- R69, R76: a bus agent stores a byte; never to the backing store while INITED = 1. -/
def foreignStore (addr : Word) (v : Byte) (s : State) : Host.Outcome State Fault Refusal :=
  if s.blk.inited && s.blk.inStore addr.toNat then .refused (.foreignRingStore addr)
  else .next (s.setMem (Memory.write s.mem addr.toNat v))

/-- One event, in the state that no longer has it in its schedule. -/
def turn (e : Event) (s : State) : Host.Outcome State Fault Refusal :=
  match e with
  | .reset => .next (resetBlock s)
  | .platformSetup => .next (s.setExt s.ext.makeBootReady)
  | .store _ addr v => foreignStore addr v s
  | .access who addr size dir => runCode (.access who addr size dir) s
  | .seq => runCode .seq s
  | .env v => runCode (.env v) s
  | .adapterWord w => runCode (.adapterWord w) s

end Sys2Proof.Machine
end

