-- ==== Sys2Proof/Machine/Step.lean ====
section
/-! DEFINITION. One step of the whole system (R9): the first event of the schedule that does not wait is taken and done,
or, with no such event, SEQ's turn. -/

namespace Sys2Proof.Machine

def step (s : State) : Host.Outcome State Fault Refusal :=
  turn (takeEvent s).1 (s.setSched (takeEvent s).2)

/-- The state in which a word of the opcode table is the next thing the machine does. A word that stands for no code
leaves the state as it is. -/
def State.withFetchWord (s : State) (nbits w : Nat) : State :=
  match tableCode nbits w with
  | some c => placeCode c s
  | none => s

end Sys2Proof.Machine
end

