-- ==== Sys2Proof/Machine/Program.lean ====
section
/-! DEFINITION. The lines of a TXRING program as events (R96), and the pseudo-instructions (R97). -/

namespace Sys2Proof.Machine

/-- The named registers of the window (R80). -/
inductive Reg where
  | cmd
  | cpl
  | arg0
  | arg1
  | status
  | index
  | level
  | session
  | base
  | dsrc
  | ddst
  | dctl
  | finfo
deriving DecidableEq, Repr

/-- The offsets of R80. -/
def Reg.offset (r : Reg) : Word :=
  match r with
  | .cmd => 0x00
  | .cpl => 0x04
  | .arg0 => 0x08
  | .arg1 => 0x0C
  | .status => 0x10
  | .index => 0x14
  | .level => 0x18
  | .session => 0x1C
  | .base => 0x20
  | .dsrc => 0x24
  | .ddst => 0x28
  | .dctl => 0x2C
  | .finfo => 0x30

/-- `wr REG, value` (R96), by the agent `who`. -/
def lineWr (p : Platform) (who : Agent) (r : Reg) (v : Word) : Event := .access who (p.regBase + r.offset) 32 (.write v)

/-- `rd REG` (R96), by the agent `who`. -/
def lineRd (p : Platform) (who : Agent) (r : Reg) : Event := .access who (p.regBase + r.offset) 32 .read

/-- R97: the command word `(imm << 16) | opc`; an operand that does not fit in 16 bits is refused, not truncated. -/
def asmCommand (opc : BitVec 4) (imm : Nat) : Option Word :=
  if imm < 2 ^ 16 then some (commandWord opc (BitVec.ofNat 16 imm)) else none

/-! R97 does not say whose lines these are. CMD, ARG0 and ARG1 are the PRODUCER's and CPL the DISPATCH's (R10, R241), and any
agent may read (R222): DEDUCED, notes/assumptions/4.md. -/

/-- `init n, base, dst` (R97). -/
def asmInit (p : Platform) (n : Nat) (base dst : Word) : Option (List Event) :=
  (asmCommand 0x1 n).map fun w => [lineWr p .producer .arg0 base, lineWr p .producer .arg1 dst, lineWr p .producer .cmd w]

/-- `enq src, len` (R97). -/
def asmEnq (p : Platform) (src : Word) (len : Nat) : Option (List Event) :=
  (asmCommand 0x2 len).map fun w => [lineWr p .producer .arg0 src, lineWr p .producer .cmd w]

/-- `write src, len` (R97): the result is bit 3 of the value read, droppedField. -/
def asmWrite (p : Platform) (src : Word) (len : Nat) : Option (List Event) :=
  (asmEnq p src len).map fun l => l ++ [lineRd p .producer .status]

/-- `wsb w` (R97). -/
def asmWsb (p : Platform) (w : Nat) : Option (List Event) :=
  (asmCommand 0x3 w).map fun w => [lineWr p .producer .cmd w]

/-- `complete` (R97). -/
def asmComplete (p : Platform) : List Event := [lineWr p .dispatch .cpl 0x00000004]

/-- `available` (R97): the result is bits [15:8] of the value read, availableField. -/
def asmAvailable (p : Platform) (who : Agent) : List Event := [lineRd p who .level]

/-- `occupancy` (R97): the result is bits [7:0] of the value read, occupancyField. -/
def asmOccupancy (p : Platform) (who : Agent) : List Event := [lineRd p who .level]

/-- R97: what `available` takes from the value read. -/
def availableField (v : Word) : BitVec 8 := v.extractLsb' 8 8

/-- R97: what `occupancy` takes from the value read. -/
def occupancyField (v : Word) : BitVec 8 := v.extractLsb' 0 8

/-- R97: what `write` takes from the value read; true is dropped. -/
def droppedField (v : Word) : Bool := v.getLsbD 3

end Sys2Proof.Machine
end

