-- ==== Sys2Proof/Safety.lean ====
section
/-! DEFINITION. What a safe state and a safe run are, in the terms that claims use: the block's invariant (R22, R26, R30, R39),
the canonical memory, the platform's contract (R76, R231, R232, R241, R244), the coupling of the block and the adapter that
keeps ENV_FAULT at 0 (R183), what the wire holds of a burst (R187), and fairness (R142, R240). -/

namespace Sys2Proof.Machine

/-! ### The block -/

/-- SEQ_PC holds one of ARM0 to ARM7 (codes 1 to 8, R30). -/
def SeqStep.isArm (p : SeqStep) : Bool := 1 ≤ p.code.toNat && p.code.toNat ≤ 8

/-- SEQ_PC holds one of RET0 to RET2 (codes 9 to 11, R30). -/
def SeqStep.isRet (p : SeqStep) : Bool := 9 ≤ p.code.toNat

/-- Between ARM2 and the retire, DESC_SRC and DESC_LEN describe the burst in flight (R39(v), R135). -/
def Block.programmed (b : Block) : Bool :=
  b.state == .running || (4 ≤ b.seqPc.code.toNat && b.seqPc.code.toNat ≤ 8)

/-- Between ARM3 and RET1, DESC_EN is 1 (R136, R152). -/
def Block.channelOn (b : Block) : Bool :=
  b.state == .running || (5 ≤ b.seqPc.code.toNat && b.seqPc.code.toNat ≤ 10)

/-- What holds of TXRING's registers in every state a run can reach: R22, R23, R26, R30, R39(i) to (v), and what they rest
on. -/
structure Block.Inv (b : Block) : Prop where
  /-- Before INIT nothing is in flight (R230). -/
  beforeInit : b.inited = false →
    b.state = .idle ∧ b.seqPc = .none ∧ b.sessionValid = false ∧ b.wsbPending = false ∧ b.descEn = false
  /-- R22. -/
  slots : b.inited = true → 1 ≤ b.n.toNat ∧ b.n.toNat ≤ 256
  /-- R62, R112: the backing store does not pass 0xFFFFFFFF. -/
  store : b.inited = true → b.base.toNat + 2 * b.n.toNat ≤ 2 ^ 32
  /-- R23, R63. -/
  even : b.inited = true → oddAddr b.base = false ∧ oddAddr b.descDst = false
  /-- R26. -/
  indexes : b.inited = true → b.head.toNat < b.n.toNat ∧ b.tail.toNat < b.n.toNat
  /-- R30: STATE = Armed exactly while SEQ_PC holds an arming step. -/
  armed : b.state = .armed ↔ SeqStep.isArm b.seqPc = true
  /-- R30: STATE = Retiring exactly while SEQ_PC holds a retire step. -/
  retiring : b.state = .retiring ↔ SeqStep.isRet b.seqPc = true
  /-- R39(ii). -/
  valid : b.sessionValid = true ↔ b.state ≠ .idle
  /-- R39(iii). -/
  session : b.state ≠ .idle →
    2 ≤ b.session.toNat ∧ b.session.toNat ≤ b.occ ∧ b.tail.toNat + b.session.toNat ≤ b.n.toNat
  /-- R39(iv). -/
  idleRun : b.inited = true → b.state = .idle → b.run ≤ 1
  /-- R39(v), from ARM2 on. -/
  descriptor : b.programmed = true →
    b.descSrc = b.slotAddr (b.tail.toNat + 1) ∧ b.descLen.toNat = b.session.toNat - 1
  /-- R39(v), R136, R152. -/
  channel : b.descEn = true ↔ b.channelOn = true
  /-- R184: a WSB waits only while no burst is in flight. -/
  wsb : b.wsbPending = true → b.state = .idle
  /-- R33, R200, R211: without a fault there is no cause and no information. -/
  cause : b.faulted = false → b.cause = .none ∧ b.finfo = 0
  /-- R211: a fault has a cause. -/
  caused : b.faulted = true → b.cause ≠ .none

/-- The invariant of the whole state: the block's, and the memory's canonical form. -/
structure State.Inv (s : State) : Prop where
  blk : Block.Inv s.blk
  mem : Memory.wf s.mem

/-! ### Terms that claims use -/

/-- R212: the state after a first fault, written out. -/
def State.faultWith (s : State) (c : FaultCause) (info : Word) : State :=
  { s with blk := { s.blk with faulted := true, cause := c, finfo := info } }

/-- R81, R215: a write of CMD is neither frozen nor held. -/
def State.Open (s : State) : Prop := s.blk.faulted = false ∧ s.blk.wsbPending = false

/-- The instructions that SEQ_PC selects (R30). -/
def isMicroStep (i : Instr) (p : SeqStep) : Prop := seqInstr p = some i

/-- The word an adapter operation is sent as (R92, R93); 0 for what is no adapter operation. -/
def encodedWord (i : Instr) : DWord :=
  match encode i with
  | .adapter w => w
  | _ => 0

/-- The DMA's share of a burst run by the reference environment in its plain order (R246): the DMA's words, the frames, the
completion and its dispatch, the retire. `k` is SESSION. -/
def burstEvents (k : Nat) : List Event :=
  List.replicate (k - 1) (.env .dmaXfer) ++ List.replicate k (.env .shift) ++
    [.env .dmaTc, .env .dispatch, .seq, .seq, .seq]

/-- `k` steps of the machine, to a next state. -/
def Runs (k : Nat) (s t : State) : Prop :=
  match k with
  | 0 => s = t
  | k + 1 => ∃ u, step s = .next u ∧ Runs k u t

/-! ### Runs and fairness -/

/-- A run: each state is the step of the one before. -/
def IsRun (σ : Nat → State) : Prop := ∀ n, step (σ n) = .next (σ (n + 1))

/-- SEQ has an enabled step: the micro-step that SEQ_PC holds has a transition (R142). -/
def SeqEnabled (s : State) : Prop := ∃ i t, isMicroStep i s.blk.seqPc ∧ exec i s = .next t

/-- The step from `s` to `t` is SEQ's, the micro-step that SEQ_PC holds. -/
def SeqStepsTo (s t : State) : Prop :=
  ∃ i, isMicroStep i s.blk.seqPc ∧ (takeEvent s).1 = .seq ∧ exec i { s with sched := (takeEvent s).2 } = .next t

/-- R142: SEQ is weakly fair in a run: its step that stays enabled is eventually taken. From any enabled one on, a later
state takes it or has it no longer enabled. -/
def SeqFair (σ : Nat → State) : Prop :=
  ∀ n, SeqEnabled (σ n) → ∃ m, n ≤ m ∧ (SeqStepsTo (σ m) (σ (m + 1)) ∨ ¬ SeqEnabled (σ m))

/-- An environment step has a transition ("Enabled when" of R180 to R182, R189, and R67). -/
def EnvEnabled (e : EnvStep) (s : State) : Prop := ∃ i t, decode (.env e) = .ok i ∧ exec i s = .next t

/-- R240: ENV_FAIR, the premise that a claim of progress names: each of ENV's steps (DMA_XFER, SHIFT, DMA_TC, DISPATCH) that
stays enabled is eventually taken. TXRING does not supply it. -/
def EnvFair (σ : Nat → State) : Prop :=
  ∀ (e : EnvStep) (n : Nat), e ≠ .wsbDone → EnvEnabled e (σ n) →
    ∃ m, n ≤ m ∧ ((takeEvent (σ m)).1 = .env e ∨ ¬ EnvEnabled e (σ m))

/-! ### The platform's contract -/

/-- The instruction an event presents, where it is one. -/
def eventInstr (s : State) (e : Event) : Option Instr :=
  match eventCode s e with
  | none => none
  | some c =>
    match decode c with
    | .ok i => some i
    | .error _ => none

/-- What the platform owes when an event is taken: only TXRING sends adapter operations (R36, R93), the adapter is set up
only before INIT (R231), INIT comes only when the boot condition holds (R232), and a Running burst is completed only by
the dispatch of the completion interrupt (R241, R244). -/
def PlatformKeeps (s : State) (e : Event) : Prop :=
  (∀ w, e ≠ .adapterWord w) ∧
  (e = .platformSetup → s.blk.inited = false) ∧
  (∀ n, eventInstr s e = some (.init n) → s.blk.inited = false → s.ext.bootReady = true) ∧
  (eventInstr s e = some .complete → s.blk.state ≠ .running)

/-! ### The block and the adapter together -/

/-- What holds between the block's and the adapter's registers under the platform's contract, from INIT on and while
FAULTED = 0. -/
structure Coupling (b : Block) (x : Adapter) : Prop where
  /-- R36: TXC is 1 when TXQ is empty. -/
  txc : x.txc = x.txq.isEmpty
  /-- The shadow enable flag is the channel's (R29, R178, R179). -/
  channel : x.dEn = b.descEn
  /-- No completion is to come before ARM2 or after COMPLETE. -/
  quiet : b.programmed = false → x.tcArmed = false ∧ x.irqPend = false
  /-- No frame waits before ARM6 pushes the first word, after the completion, or while nothing is sent. -/
  drained : b.state = .retiring ∨ (1 ≤ b.seqPc.code.toNat ∧ b.seqPc.code.toNat ≤ 7) ∨
    (b.state = .idle ∧ b.wsbPending = false) → x.txq = []
  /-- From ARM0 to ARM7 the peripheral is not started (R133, R140). -/
  stopped : 2 ≤ b.seqPc.code.toNat ∧ b.seqPc.code.toNat ≤ 8 → x.pStart = false
  /-- From ARM0 to ARM5 the peripheral is disabled (R133, R137, R138). -/
  disabled : 2 ≤ b.seqPc.code.toNat ∧ b.seqPc.code.toNat ≤ 6 → x.pEn = false
  /-- From ARM2 on the channel holds the burst's descriptor (R135, R177). -/
  programmed : b.programmed = true →
    x.dSrc = b.descSrc ∧ x.dLen = b.descLen ∧ x.dRemain.toNat ≤ b.descLen.toNat ∧ x.tcArmed = !x.irqPend
  /-- Until the start no word has been moved (R180). -/
  unmoved : 4 ≤ b.seqPc.code.toNat ∧ b.seqPc.code.toNat ≤ 8 → x.dRemain.toNat = b.descLen.toNat ∧ x.irqPend = false
  /-- After the completion no word is left to move (R181). -/
  moved : b.state = .retiring → x.dRemain = 0
  /-- A pending completion interrupt means that every word is out (R181). -/
  finished : b.programmed = true → x.irqPend = true → x.dRemain = 0 ∧ x.txq = []

/-- The coupling, from INIT on and while FAULTED = 0. -/
def State.Coupled (s : State) : Prop := s.blk.inited = true → s.blk.faulted = false → Coupling s.blk s.ext

/-- The words of the `k` slots from slot `t` on. -/
def State.slotWords (s : State) (t k : Nat) : List Half :=
  (List.range k).map fun i => Memory.readHalf s.mem (s.blk.slotAddr (t + i))

/-- How many words of the burst in flight have been handed to the peripheral: none before ARM6, one after it, and one more
for each word the DMA moved (R139, R180). -/
def State.handedOver (s : State) : Nat :=
  if s.blk.seqPc = .arm7 ∨ s.blk.state = .running then 1 + (s.ext.dLen.toNat - s.ext.dRemain.toNat) else 0

/-- R187: of the burst in flight, the words handed over so far are the last ones sent or waiting, in slot order. -/
def State.WireInOrder (s : State) : Prop :=
  s.blk.inited = true → s.blk.faulted = false → s.blk.state = .armed ∨ s.blk.state = .running →
    s.slotWords s.blk.tail.toNat s.handedOver <:+ s.ext.wire ++ s.ext.txq

end Sys2Proof.Machine
end

