-- ==== Sys2Proof/Certificates/Slice0/Obligations.lean ====
section
/-! DEFINITION. The statements for the provers. Each docstring names the rule of spec/ it formalises, or says what it rests
on. A word such as `n ++ 1#16` is a command word {IMM16, RSV = 0, OPC} (R87). -/

open Sys2Proof Sys2Proof.Machine

/-! ### Reset, decoding, and what a step runs -/

/-- R45, R230: the reset input puts every block register to the table's value, whatever SEQ, a pending WSB or a fault was
doing, and touches neither the adapter nor memory; in the state it leaves, ENQ, WSB and COMPLETE fault NOT_INIT. The state
after reset has the same block registers. -/
def Obligations.ResetPutsEveryBlockRegister : Prop :=
  ∃ r : Block,
    r = { inited := false, n := 0, base := 0, head := 0, tail := 0, state := .idle, session := 0, sessionValid := false,
          seqPc := .none, descSrc := 0, descDst := 0, descLen := 0, descEn := false, descMinc := false, descPinc := false,
          descWsize := 0, result := false, wsbPending := false, faulted := false, cause := .none, finfo := 0, arg0 := 0,
          arg1 := 0 } ∧
    State.reset.blk = r ∧
    (∀ (s : State) (rest : List Event), s.sched = .reset :: rest → step s = .next { s with blk := r, sched := rest }) ∧
    (∀ s : State, s.blk = r →
      (∀ len : Half, exec (.enq len) s = .next (s.faultWith .notInit (len ++ 2#16))) ∧
      (∀ w : Half, exec (.wsb w) s = .next (s.faultWith .notInit (w ++ 3#16))) ∧
      exec .complete s = .next (s.faultWith .notInit 0x00000004))

/-- Words written out from the spec's encodings (R87, R88, R80, R30, R92, R93) decode to the instructions they stand for. -/
def Obligations.WordsOfTheSpecDecode : Prop :=
  decode (.access 0x00 32 (.write 0x01000001)) = .ok (.init 256) ∧
  decode (.access 0x00 32 (.write 0x000A0002)) = .ok (.enq 10) ∧
  decode (.access 0x00 32 (.write 0x12340003)) = .ok (.wsb 0x1234) ∧
  decode (.access 0x04 32 (.write 0x00000004)) = .ok .complete ∧
  decode (.access 0x00 32 (.write 0x80000012)) = .ok (.illegal .cmd 0x80000012) ∧
  decode (.access 0x2C 32 .read) = .ok .rdDctl ∧
  decode (.access 0x10 8 .read) = .ok (.badRegAccess 0x10 8 .read) ∧
  decode (.seq 0xB) = .ok .ret2 ∧
  decode (.adapter 0x2000019200003703) = .ok (.dmaProgram 0x20000192 55) ∧
  decode (.adapter 0x00000000A5C30007) = .ok (.pushWord 0xA5C3)

/-- Decoding what the encoder writes for a well-formed instruction gives that instruction, every operand with it
(30_encoding.md). -/
def Obligations.DecodeOfEncodeIsTheInstruction : Prop :=
  ∀ i : Instr, WellFormed i = true → decode (encode i) = .ok i

/-- Each code has one meaning and each instruction one code: what decodes to an instruction is that instruction's encoding,
and the instruction is well formed (30_encoding.md). -/
def Obligations.EncodeOfDecodeIsTheCode : Prop :=
  ∀ (c : Code) (i : Instr), decode c = .ok i → encode i = c ∧ WellFormed i = true

/-- R90, R81, R213: a command word is illegal exactly if its OPC is reserved, its RSV is not 0, it is COMPLETE with an
immediate, or its opcode is on the wrong port; and it only faults ILLEGAL_CMD with the word as FINFO. While FAULTED = 1 it is
ignored. That an illegal word on CMD is held while WSB_PENDING = 1, like every write of CMD, is the model's reading of the order
of R81 (DEDUCED, notes/assumptions/17.md). -/
def Obligations.IllegalWordsFault : Prop :=
  ∀ (port : Port) (w : Word) (s : State),
    let off : BitVec 6 := match port with | .cmd => 0x00 | .cpl => 0x04
    let opc := (w.extractLsb' 0 4).toNat
    (decode (.access off 32 (.write w)) = .ok (.illegal port w) ↔
      (opc = 0 ∨ 5 ≤ opc) ∨ w.extractLsb' 4 12 ≠ 0 ∨ (opc = 4 ∧ w.extractLsb' 16 16 ≠ 0) ∨
        (port = .cpl ∧ 1 ≤ opc ∧ opc ≤ 3) ∨ (port = .cmd ∧ opc = 4)) ∧
    (s.Open → exec (.illegal port w) s = .next (s.faultWith .illegalCmd w)) ∧
    (s.blk.faulted = true → exec (.illegal port w) s = .next s) ∧
    (s.blk.faulted = false → exec (.illegal .cpl w) s = .next (s.faultWith .illegalCmd w)) ∧
    (s.blk.faulted = false → s.blk.wsbPending = true → exec (.illegal .cmd w) s = .fault .writeHeld)

/-- When the event a step takes presents a code that decodes to an instruction, the step is exec of that instruction in the
state without the event (R9, R216). Where the instruction has no transition, TXRING, the adapter and memory stay as they were,
and a bus agent whose write is not admitted is stuck (R67). The agent whose WSB raises WSB_PENDING is noted, since its write stays
outstanding (R184). That the events stand in a schedule, and that the turn is over, is the model's own (notes/assumptions/4.md,
5.md, 6.md). -/
def Obligations.StepRunsTheDecodedInstruction : Prop :=
  ∀ (s : State) (e : Event) (rest : List Event) (c : Code) (i : Instr),
    takeEvent s = (e, rest) → eventCode s e = some c → decode c = .ok i →
      step s = match exec i { s with sched := rest }, e.agent with
        | .next t, some a => .next (if s.blk.wsbPending = false ∧ t.blk.wsbPending = true then { t with wsbAgent := a } else t)
        | .next t, none => .next t
        | .fault .memoryNotAdmitted, some a => .next { s with sched := rest, stuck := a :: s.stuck }
        | .fault _, _ => .next { s with sched := rest }
        | .refused r, _ => .refused r

/-- R80, R81: the register window is the 64 bytes from REG_BASE on; the access at REG_BASE + offset is the access at that
offset, whichever agent makes it (R222). That a bus access outside the window does nothing to the system is the model's own
(notes/assumptions/13.md). -/
def Obligations.BusAccessesReachTheWindow : Prop :=
  (∀ (s : State) (who : Agent) (off : BitVec 6) (size : Nat) (dir : Dir),
    eventCode s (.access who (s.platform.regBase + off.setWidth 32) size dir) = some (.access off size dir)) ∧
  (∀ (s : State) (who : Agent) (addr : Word) (size : Nat) (dir : Dir) (rest : List Event),
    takeEvent s = (.access who addr size dir, rest) → (∀ off : BitVec 6, addr ≠ s.platform.regBase + off.setWidth 32) →
      step s = .next { s with sched := rest })

/-- R81, R184, R67: what waits, and nothing else: a write of CMD while WSB_PENDING = 1 and FAULTED = 0; any step of the PRODUCER
while WSB_PENDING = 1; and any step of an agent whose write is stuck. An event that waits keeps its place; what is taken instead
is of another agent and does not wait, or it is SEQ's turn. An event that does not wait is taken in its turn, a held write among
them once WSB_PENDING is 0. That waiting is keeping a place in a schedule, that a WSB of another agent makes that agent wait too,
and that a held write goes on after a reset, is the model's own (notes/assumptions/5.md, 6.md). -/
def Obligations.OnlyCmdWritesAreHeld : Prop :=
  ∀ (s : State) (e : Event) (rest : List Event), s.sched = e :: rest →
    let held (e : Event) : Prop :=
      s.blk.wsbPending = true ∧ s.blk.faulted = false ∧ ∃ who w, e = .access who s.platform.regBase 32 (.write w)
    let noStep (a : Agent) : Prop := a ∈ s.stuck ∨ (s.blk.wsbPending = true ∧ (a = .producer ∨ a = s.wsbAgent))
    let mustWait (e : Event) : Prop := held e ∨ ∃ a, e.agent = some a ∧ noStep a
    (¬ mustWait e → takeEvent s = (e, rest)) ∧
    (mustWait e → ∃ e' rest', takeEvent s = (e', e :: rest') ∧ ¬ mustWait e' ∧
      (∀ a, e.agent = some a → e'.agent ≠ some a) ∧ (e' ∈ rest ∨ (e' = .seq ∧ rest' = rest)))

/-! ### Index arithmetic -/

/-- R110, R111: occupancy is `(HEAD - TAIL) mod N` (so 2 for N = 5, HEAD = 1, TAIL = 4), lies in 0..N-1, is 0 exactly when empty
and N-1 exactly when full; its intermediate value is at most 511; it is the 8-bit difference for N = 256, and not for other N
(N = 100 shows it); available space is N-1 less the occupancy, lies in 0..N-1, and is N-1 exactly when empty. -/
def Obligations.OccupancyAndAvailable : Prop :=
  (∀ head tail n : Nat, 1 ≤ n → n ≤ 256 → head < n → tail < n →
    (occOf head tail n : Int) = ((head : Int) - (tail : Int)) % (n : Int) ∧
    occOf head tail n ≤ n - 1 ∧ head + n - tail ≤ 511 ∧
    (occOf head tail n = 0 ↔ head = tail) ∧ (occOf head tail n = n - 1 ↔ head = (tail + n - 1) % n) ∧
    (n = 256 → occOf head tail n = (BitVec.ofNat 8 head - BitVec.ofNat 8 tail).toNat) ∧
    availOf head tail n = (n - 1) - occOf head tail n ∧ availOf head tail n ≤ n - 1 ∧
    (availOf head tail n = n - 1 ↔ head = tail) ∧ occOf head tail n + availOf head tail n = n - 1) ∧
  occOf 1 4 5 = 2 ∧ occOf 3 97 100 = 6 ∧ (BitVec.ofNat 8 3 - BitVec.ofNat 8 97).toNat = 162 ∧
  availOf 0 0 256 = 255 ∧ availOf 10 0 256 = 245

/-- R130: the run length is the smaller of the occupancy and the distance from TAIL to the end of the store (so 56 for N = 256,
TAIL = 200 and 60 words); a run never passes the end, and with TAIL in the last slot it is at most 1. -/
def Obligations.RunLengthStaysInTheStore : Prop :=
  (∀ head tail n : Nat, 1 ≤ n → n ≤ 256 → head < n → tail < n →
    runOf head tail n = min (occOf head tail n) (n - tail) ∧ 1 ≤ n - tail ∧ n - tail ≤ n ∧
    runOf head tail n ≤ min (n - 1) (n - tail) ∧ tail + runOf head tail n ≤ n ∧
    (head = tail → runOf head tail n = 0) ∧ (tail = n - 1 → runOf head tail n ≤ 1)) ∧
  runOf 4 200 256 = 56

/-! ### Commands -/

/-- R112: INIT, with its checks in order. -/
def Obligations.InitByCases : Prop :=
  ∀ (n : Half) (s : State),
    let b := s.blk
    (b.faulted = true → exec (.init n) s = .next s) ∧
    (b.faulted = false → b.wsbPending = true → exec (.init n) s = .fault .writeHeld) ∧
    (s.Open → b.inited = true → exec (.init n) s = .next (s.faultWith .reinit (n ++ 1#16))) ∧
    (s.Open → b.inited = false → n.toNat < 1 ∨ 256 < n.toNat →
      exec (.init n) s = .next (s.faultWith .badCapacity (n ++ 1#16))) ∧
    (s.Open → b.inited = false → 1 ≤ n.toNat → n.toNat ≤ 256 → b.arg0.toNat % 2 = 1 ∨ b.arg1.toNat % 2 = 1 →
      exec (.init n) s = .next (s.faultWith .misaligned (n ++ 1#16))) ∧
    (s.Open → b.inited = false → 1 ≤ n.toNat → n.toNat ≤ 256 → b.arg0.toNat % 2 = 0 → b.arg1.toNat % 2 = 0 →
      2 ^ 32 < b.arg0.toNat + 2 * n.toNat → exec (.init n) s = .next (s.faultWith .badAddress (n ++ 1#16))) ∧
    (s.Open → b.inited = false → 1 ≤ n.toNat → n.toNat ≤ 256 → b.arg0.toNat % 2 = 0 → b.arg1.toNat % 2 = 0 →
      b.arg0.toNat + 2 * n.toNat ≤ 2 ^ 32 →
      exec (.init n) s = .next { s with blk := { b with
        n := BitVec.ofNat 9 n.toNat, base := b.arg0, descDst := b.arg1, head := 0, tail := 0, state := .idle,
        sessionValid := false, seqPc := .none, inited := true } })

/-- R113: ENQ, with its checks in order: the faults, the drop, the copy word by word in rising order (each word is read, then
written, so an overlapping source follows the same order, R75), HEAD and RESULT, then CHUNK. An access that the platform
does not admit leaves ENQ with no transition (R67). The clauses that count modulo N are about the indexes that R26 admits. -/
def Obligations.EnqByCases : Prop :=
  ∀ (len : Half) (s : State),
    let b := s.blk
    let src (i : Nat) : Word := b.arg0 + BitVec.ofNat 32 (2 * i)
    let slot (i : Nat) : Word := b.base + BitVec.ofNat 32 (2 * ((b.head.toNat + i) % b.n.toNat))
    let passes := (b.head.toNat < b.n.toNat ∧ b.tail.toNat < b.n.toNat) ∧
      (len.toNat = 0 ∨ (b.arg0.toNat % 2 = 0 ∧ b.arg0.toNat + 2 * len.toNat ≤ 2 ^ 32))
    (b.faulted = true → exec (.enq len) s = .next s) ∧
    (b.faulted = false → b.wsbPending = true → exec (.enq len) s = .fault .writeHeld) ∧
    (s.Open → b.inited = false → exec (.enq len) s = .next (s.faultWith .notInit (len ++ 2#16))) ∧
    (s.Open → b.inited = true → 0 < len.toNat → b.arg0.toNat % 2 = 1 →
      exec (.enq len) s = .next (s.faultWith .misaligned (len ++ 2#16))) ∧
    (s.Open → b.inited = true → 0 < len.toNat → b.arg0.toNat % 2 = 0 → 2 ^ 32 < b.arg0.toNat + 2 * len.toNat →
      exec (.enq len) s = .next (s.faultWith .badAddress (len ++ 2#16))) ∧
    (s.Open → b.inited = true → passes → b.avail < len.toNat →
      exec (.enq len) s = .next { s with blk := { b with result := true } }) ∧
    (s.Open → b.inited = true → passes → len.toNat ≤ b.avail →
      (∃ i, i < len.toNat ∧ (admits s.platform (src i) = false ∨ admits s.platform (slot i) = false)) →
      exec (.enq len) s = .fault .memoryNotAdmitted) ∧
    (s.Open → b.inited = true → passes → len.toNat ≤ b.avail →
      (∀ i, i < len.toNat → admits s.platform (src i) = true ∧ admits s.platform (slot i) = true) →
      ∃ ms : Nat → Memory, ms 0 = s.mem ∧
        (∀ i, i < len.toNat → ms (i + 1) = Memory.writeHalf (ms i) (slot i) (Memory.readHalf (ms i) (src i))) ∧
        ∃ t, exec (.enq len) s = .next t ∧
          exec .chunk { s with
            mem := ms len.toNat,
            blk := { b with
              head := BitVec.ofNat 8 ((b.head.toNat + len.toNat) % b.n.toNat), result := false } } = .next t)

/-- R114: when the caller's buffer does not meet the backing store, a queued ENQ puts word `i` into slot `(HEAD + i) mod N`. -/
def Obligations.EnqPutsEachWordInItsSlot : Prop :=
  ∀ (len : Half) (s t : State), s.Inv → s.Open → s.blk.inited = true → exec (.enq len) s = .next t →
    t.blk.faulted = false → t.blk.result = false →
    (s.blk.arg0.toNat + 2 * len.toNat ≤ s.blk.base.toNat ∨
      s.blk.base.toNat + 2 * s.blk.n.toNat ≤ s.blk.arg0.toNat) →
    ∀ i, i < len.toNat →
      Memory.readHalf t.mem (s.blk.slotAddr ((s.blk.head.toNat + i) % s.blk.n.toNat)) =
        Memory.readHalf s.mem (halfAddr s.blk.arg0 i)

/-- R116: a queued ENQ writes only the free slots `(HEAD + i) mod N`: no occupied slot changes, so no slot of the burst in
flight does, and every byte outside the written slots reads as before. -/
def Obligations.EnqWritesOnlyFreeSlots : Prop :=
  ∀ (len : Half) (s t : State), s.Inv → s.blk.inited = true → exec (.enq len) s = .next t →
    t.blk.faulted = false → t.blk.result = false →
    (∀ a : Nat,
      (∀ i, i < len.toNat →
        a ≠ (s.blk.slotAddr ((s.blk.head.toNat + i) % s.blk.n.toNat)).toNat ∧
        a ≠ (s.blk.slotAddr ((s.blk.head.toNat + i) % s.blk.n.toNat)).toNat + 1) →
      Memory.read t.mem a = Memory.read s.mem a) ∧
    (∀ i k, i < len.toNat → k < s.blk.occ →
      (s.blk.head.toNat + i) % s.blk.n.toNat ≠ (s.blk.tail.toNat + k) % s.blk.n.toNat) ∧
    (∀ k, k < s.blk.occ →
      Memory.readHalf t.mem (s.blk.slotAddr ((s.blk.tail.toNat + k) % s.blk.n.toNat)) =
        Memory.readHalf s.mem (s.blk.slotAddr ((s.blk.tail.toNat + k) % s.blk.n.toNat)))

/-- R184: WSB, with its checks in order. -/
def Obligations.WsbByCases : Prop :=
  ∀ (w : Half) (s : State),
    (s.blk.faulted = true → exec (.wsb w) s = .next s) ∧
    (s.blk.faulted = false → s.blk.wsbPending = true → exec (.wsb w) s = .fault .writeHeld) ∧
    (s.Open → s.blk.inited = false → exec (.wsb w) s = .next (s.faultWith .notInit (w ++ 3#16))) ∧
    (s.Open → s.blk.inited = true → s.blk.state ≠ .idle →
      exec (.wsb w) s = .next (s.faultWith .singleWhileBurst (w ++ 3#16))) ∧
    (s.Open → s.blk.inited = true → s.blk.state = .idle →
      exec (.wsb w) s = .next { s with
        blk := { s.blk with wsbPending := true },
        ext := { s.ext with
          txq := s.ext.txq ++ [w], txc := false, atrace := s.ext.atrace ++ [0#32 ++ w ++ 0x0007#16] } })

/-- R150, R157: COMPLETE, with its checks in order; never held, and a completion while an earlier one retires faults. -/
def Obligations.CompleteByCases : Prop :=
  ∀ s : State,
    (s.blk.faulted = true → exec .complete s = .next s) ∧
    (s.blk.faulted = false → s.blk.inited = false → exec .complete s = .next (s.faultWith .notInit 0x00000004)) ∧
    (s.blk.faulted = false → s.blk.inited = true → s.blk.state ≠ .running →
      exec .complete s = .next (s.faultWith .spuriousCompletion 0x00000004)) ∧
    (s.blk.faulted = false → s.blk.inited = true → s.blk.state = .running →
      exec .complete s = .next { s with blk := { s.blk with state := .retiring, seqPc := .ret0 } })

/-! ### Register accesses -/

/-- R190 to R197, R200, R198, R199 (reads): a register read returns the register's word and changes nothing else. The fields of
STATUS are stated by StatusFields. -/
def Obligations.ReadsReturnTheirRegister : Prop :=
  ∀ s : State,
    exec .rdArg0 s = .next { s with rdata := s.blk.arg0 } ∧
    exec .rdArg1 s = .next { s with rdata := s.blk.arg1 } ∧
    exec .rdStatus s = .next { s with rdata := s.blk.statusWord } ∧
    exec .rdIndex s = .next { s with rdata := 0#7 ++ s.blk.n ++ s.blk.tail ++ s.blk.head } ∧
    exec .rdLevel s = .next { s with
      rdata := if s.blk.inited then 0#16 ++ BitVec.ofNat 8 s.blk.avail ++ BitVec.ofNat 8 s.blk.occ else 0 } ∧
    exec .rdSession s = .next { s with rdata := 0#24 ++ s.blk.session } ∧
    exec .rdBase s = .next { s with rdata := s.blk.base } ∧
    exec .rdDsrc s = .next { s with rdata := s.blk.descSrc } ∧
    exec .rdDdst s = .next { s with rdata := s.blk.descDst } ∧
    exec .rdDctl s = .next { s with
      rdata := 0#18 ++ s.blk.descWsize ++ 0#1 ++ BitVec.ofBool s.blk.descPinc ++ BitVec.ofBool s.blk.descMinc ++
        BitVec.ofBool s.blk.descEn ++ s.blk.descLen } ∧
    exec .rdFinfo s = .next { s with rdata := s.blk.finfo }

/-- R82: the fields of STATUS. -/
def Obligations.StatusFields : Prop :=
  ∀ b : Block,
    (b.statusWord.extractLsb' 0 2).toNat =
      (match b.state with | .idle => 0 | .armed => 1 | .running => 2 | .retiring => 3) ∧
    b.statusWord.getLsbD 2 = b.inited ∧ b.statusWord.getLsbD 3 = b.result ∧ b.statusWord.getLsbD 4 = b.sessionValid ∧
    b.statusWord.getLsbD 5 = b.wsbPending ∧ b.statusWord.getLsbD 6 = b.faulted ∧ b.statusWord.getLsbD 7 = false ∧
    (b.statusWord.extractLsb' 8 4).toNat =
      (match b.cause with
        | .none => 0 | .illegalCmd => 1 | .notInit => 2 | .reinit => 3 | .badCapacity => 4 | .misaligned => 5
        | .badAddress => 6 | .singleWhileBurst => 7 | .spuriousCompletion => 8 | .badRegAccess => 9) ∧
    (b.statusWord.extractLsb' 12 4).toNat =
      (match b.seqPc with
        | .none => 0 | .arm0 => 1 | .arm1 => 2 | .arm2 => 3 | .arm3 => 4 | .arm4 => 5 | .arm5 => 6 | .arm6 => 7
        | .arm7 => 8 | .ret0 => 9 | .ret1 => 10 | .ret2 => 11) ∧
    b.statusWord.extractLsb' 16 16 = 0

/-- R83, R85, R86: the fields of INDEX, SESSION and DCTL. -/
def Obligations.IndexSessionAndDctlFields : Prop :=
  ∀ b : Block,
    (b.indexWord.extractLsb' 0 8 = b.head ∧ b.indexWord.extractLsb' 8 8 = b.tail ∧
      b.indexWord.extractLsb' 16 9 = b.n ∧ b.indexWord.extractLsb' 25 7 = 0) ∧
    (b.sessionWord.extractLsb' 0 8 = b.session ∧ b.sessionWord.extractLsb' 8 24 = 0) ∧
    (b.dctlWord.extractLsb' 0 8 = b.descLen ∧ b.dctlWord.getLsbD 8 = b.descEn ∧ b.dctlWord.getLsbD 9 = b.descMinc ∧
      b.dctlWord.getLsbD 10 = b.descPinc ∧ b.dctlWord.getLsbD 11 = false ∧ b.dctlWord.extractLsb' 12 2 = b.descWsize ∧
      b.dctlWord.extractLsb' 14 18 = 0)

/-- R84, R192: LEVEL holds occupancy and available space, which add up to N - 1 in every state the invariant admits, and reads
0 before INIT. -/
def Obligations.LevelAddsUp : Prop :=
  ∀ b : Block,
    (b.inited = false → b.levelWord = 0) ∧
    (b.inited = true → b.Inv →
      (b.levelWord.extractLsb' 0 8).toNat = b.occ ∧ (b.levelWord.extractLsb' 8 8).toNat = b.avail ∧
      b.levelWord.extractLsb' 16 16 = 0 ∧
      (b.levelWord.extractLsb' 0 8).toNat + (b.levelWord.extractLsb' 8 8).toNat = b.n.toNat - 1)

/-- R198, R199 (writes): a write of an argument register stores the value and changes nothing else; while FAULTED = 1 it is
ignored. -/
def Obligations.ArgumentWrites : Prop :=
  ∀ (v : Word) (s : State),
    (s.blk.faulted = false →
      exec (.wrArg0 v) s = .next { s with blk := { s.blk with arg0 := v } } ∧
      exec (.wrArg1 v) s = .next { s with blk := { s.blk with arg1 := v } }) ∧
    (s.blk.faulted = true → exec (.wrArg0 v) s = .next s ∧ exec (.wrArg1 v) s = .next s)

/-- R81, R201: a read of a write-only register or a reserved offset returns 0, a write of a read-only register or a reserved
offset has no effect, and neither faults. -/
def Obligations.InertAccesses : Prop :=
  (∀ (off : BitVec 6) (s : State), off.toNat = 0x00 ∨ off.toNat = 0x04 ∨ off.toNat = 0x34 ∨ off.toNat = 0x38 ∨ off.toNat = 0x3C →
    decode (.access off 32 .read) = .ok (.inert off .read) ∧ exec (.inert off .read) s = .next { s with rdata := 0 }) ∧
  (∀ (off : BitVec 6) (v : Word) (s : State), 0x10 ≤ off.toNat → off.toNat % 4 = 0 →
    decode (.access off 32 (.write v)) = .ok (.inert off (.write v)) ∧ exec (.inert off (.write v)) s = .next s)

/-- R81, R201, R211: an access that is not 32 bits wide or not 4-byte aligned faults BAD_REG_ACCESS with its offset as FINFO,
and a read then returns 0; while FAULTED = 1 the first fault stays, and a write has no effect at all (that such a read returns 0
also while FAULTED = 1 is the model's reading, notes/assumptions/18.md). -/
def Obligations.BadAccessesFault : Prop :=
  ∀ (off : BitVec 6) (size : Nat) (v : Word) (s : State), size ≠ 32 ∨ off.toNat % 4 ≠ 0 →
    decode (.access off size .read) = .ok (.badRegAccess off size .read) ∧
    decode (.access off size (.write v)) = .ok (.badRegAccess off size (.write v)) ∧
    (s.blk.faulted = false →
      exec (.badRegAccess off size .read) s =
        .next { s.faultWith .badRegAccess (BitVec.ofNat 32 off.toNat) with rdata := 0 } ∧
      exec (.badRegAccess off size (.write v)) s = .next (s.faultWith .badRegAccess (BitVec.ofNat 32 off.toNat))) ∧
    (s.blk.faulted = true →
      exec (.badRegAccess off size .read) s = .next { s with rdata := 0 } ∧
      exec (.badRegAccess off size (.write v)) s = .next s)

/-! ### The sequencer -/

/-- R131, R143, R218: CHUNK does nothing while a burst is in flight or while the run is 0 or 1; else it commits the run and
starts the arming sequence. The indexes are those that R26 admits. -/
def Obligations.ChunkByCases : Prop :=
  ∀ s : State,
    let r := runOf s.blk.head.toNat s.blk.tail.toNat s.blk.n.toNat
    let legal := s.blk.head.toNat < s.blk.n.toNat ∧ s.blk.tail.toNat < s.blk.n.toNat
    (s.blk.state ≠ .idle → exec .chunk s = .next s) ∧
    (s.blk.state = .idle → legal → r ≤ 1 → exec .chunk s = .next s) ∧
    (s.blk.state = .idle → legal → 2 ≤ r →
      exec .chunk s = .next { s with blk := { s.blk with
        session := BitVec.ofNat 8 r, sessionValid := true, state := .armed, seqPc := .arm0 } })

/-- R133, R134, R136, R138, R140: ARM0, ARM1, ARM3 and ARM5 send their operation and go on to the next step; ARM7 starts the
peripheral, and the burst is Running. Each has a transition only while SEQ_PC holds it and FAULTED = 0. -/
def Obligations.ArmStepsWithoutOperands : Prop :=
  ∀ s : State,
    let on (p : SeqStep) : Prop := s.blk.seqPc = p ∧ s.blk.faulted = false
    (on .arm0 → exec .arm0 s = .next { s with
      blk := { s.blk with seqPc := .arm1 },
      ext := { s.ext with
        pEn := false, pStart := false, envFault := s.ext.envFault || !s.ext.txq.isEmpty,
        atrace := s.ext.atrace ++ [0x0000000000000001] } }) ∧
    (on .arm1 → exec .arm1 s = .next { s with
      blk := { s.blk with seqPc := .arm2 },
      ext := { s.ext with cflag := false, atrace := s.ext.atrace ++ [0x0000000000000002] } }) ∧
    (on .arm3 → exec .arm3 s = .next { s with
      blk := { s.blk with seqPc := .arm4, descEn := true },
      ext := { s.ext with dEn := true, atrace := s.ext.atrace ++ [0x0000000000000004] } }) ∧
    (on .arm5 → exec .arm5 s = .next { s with
      blk := { s.blk with seqPc := .arm6 },
      ext := { s.ext with pEn := true, atrace := s.ext.atrace ++ [0x0000000000000006] } }) ∧
    (on .arm7 → exec .arm7 s = .next { s with
      blk := { s.blk with state := .running, seqPc := .none },
      ext := { s.ext with pStart := true, atrace := s.ext.atrace ++ [0x0000000000000008] } }) ∧
    (¬ on .arm0 → exec .arm0 s = .fault .notEnabled) ∧ (¬ on .arm1 → exec .arm1 s = .fault .notEnabled) ∧
    (¬ on .arm3 → exec .arm3 s = .fault .notEnabled) ∧ (¬ on .arm5 → exec .arm5 s = .fault .notEnabled) ∧
    (¬ on .arm7 → exec .arm7 s = .fault .notEnabled)

/-- R135, R137: ARM2 programs the descriptor for the words after the first; ARM4 sends the frame count SESSION. Each has a
transition only while SEQ_PC holds it and FAULTED = 0. SESSION is not 0, as R39(iii) has it for a burst in flight. -/
def Obligations.ArmStepsWithOperands : Prop :=
  ∀ s : State,
    let on (p : SeqStep) : Prop := s.blk.seqPc = p ∧ s.blk.faulted = false
    let src : Word := s.blk.base + BitVec.ofNat 32 (2 * (s.blk.tail.toNat + 1))
    let len : BitVec 8 := BitVec.ofNat 8 (s.blk.session.toNat - 1)
    (on .arm2 → 1 ≤ s.blk.session.toNat → exec .arm2 s = .next { s with
      blk := { s.blk with
        seqPc := .arm3, descSrc := src, descLen := len, descMinc := true, descPinc := false, descWsize := 1 },
      ext := { s.ext with
        envFault := s.ext.envFault || s.ext.dEn, dSrc := src, dLen := len, dDst := s.blk.descDst, dMinc := true,
        dPinc := false, dWsize := 1, dRemain := BitVec.ofNat 9 len.toNat, tcArmed := true,
        atrace := s.ext.atrace ++ [src ++ 0#16 ++ len ++ 3#8] } }) ∧
    (on .arm4 → exec .arm4 s = .next { s with
      blk := { s.blk with seqPc := .arm5 },
      ext := { s.ext with
        envFault := s.ext.envFault || s.ext.pEn, pFrames := s.blk.session,
        atrace := s.ext.atrace ++ [0#48 ++ s.blk.session ++ 5#8] } }) ∧
    (¬ on .arm2 → exec .arm2 s = .fault .notEnabled) ∧ (¬ on .arm4 → exec .arm4 s = .fault .notEnabled)

/-- R139: ARM6 pushes the word of slot TAIL, and has no transition when the platform does not admit the read (R67), or unless
SEQ_PC holds it and FAULTED = 0. -/
def Obligations.ArmPushesTheFirstWord : Prop :=
  ∀ s : State,
    let on : Prop := s.blk.seqPc = .arm6 ∧ s.blk.faulted = false
    let a : Word := s.blk.base + BitVec.ofNat 32 (2 * s.blk.tail.toNat)
    let w := Memory.readHalf s.mem a
    (on → admits s.platform a = true → exec .arm6 s = .next { s with
      blk := { s.blk with seqPc := .arm7 },
      ext := { s.ext with txq := s.ext.txq ++ [w], txc := false, atrace := s.ext.atrace ++ [0#32 ++ w ++ 7#16] } }) ∧
    (on → admits s.platform a = false → exec .arm6 s = .fault .memoryNotAdmitted) ∧
    (¬ on → exec .arm6 s = .fault .notEnabled)

/-- R151, R152: RET0 clears the completion flag, RET1 disables the DMA channel. Each has a transition only while SEQ_PC holds it
and FAULTED = 0. -/
def Obligations.RetireClearsAndDisables : Prop :=
  ∀ s : State,
    let on (p : SeqStep) : Prop := s.blk.seqPc = p ∧ s.blk.faulted = false
    (on .ret0 → exec .ret0 s = .next { s with
      blk := { s.blk with seqPc := .ret1 },
      ext := { s.ext with cflag := false, atrace := s.ext.atrace ++ [0x0000000000000002] } }) ∧
    (on .ret1 → exec .ret1 s = .next { s with
      blk := { s.blk with seqPc := .ret2, descEn := false },
      ext := { s.ext with dEn := false, atrace := s.ext.atrace ++ [0x0000000000000009] } }) ∧
    (¬ on .ret0 → exec .ret0 s = .fault .notEnabled) ∧ (¬ on .ret1 → exec .ret1 s = .fault .notEnabled)

/-- R153: RET2 advances TAIL by SESSION modulo N, ends the burst and runs CHUNK in the same step; it emits nothing. It has a
transition only while SEQ_PC holds it and FAULTED = 0. N is at least 1, as R22 has it from INIT on. -/
def Obligations.RetireAdvancesTail : Prop :=
  ∀ s : State,
    let on : Prop := s.blk.seqPc = .ret2 ∧ s.blk.faulted = false
    (on → 1 ≤ s.blk.n.toNat → ∃ t, exec .ret2 s = .next t ∧ t.ext = s.ext ∧
      exec .chunk { s with blk := { s.blk with
        tail := BitVec.ofNat 8 ((s.blk.tail.toNat + s.blk.session.toNat) % s.blk.n.toNat),
        sessionValid := false, state := .idle, seqPc := .none } } = .next t) ∧
    (¬ on → exec .ret2 s = .fault .notEnabled)

/-- R142: whenever SEQ_PC is not NONE and FAULTED = 0, the step it holds has a transition, unless it is ARM6 and the platform
does not admit the read of slot TAIL (R67). SEQ is weakly fair: in every run, its step that stays enabled is eventually taken; in
this model no later than once the events that the schedule holds are over (notes/assumptions/4.md). -/
def Obligations.SequencerIsNeverBlocked : Prop :=
  (∀ (i : Instr) (s : State), isMicroStep i s.blk.seqPc → s.blk.faulted = false →
    (i = .arm6 → admits s.platform (s.blk.slotAddr s.blk.tail.toNat) = true) → ∃ t, exec i s = .next t) ∧
  (∀ σ : Nat → State, IsRun σ → SeqFair σ ∧
    ∀ n, SeqEnabled (σ n) → ∃ m, n ≤ m ∧ m ≤ n + (σ n).sched.length ∧
      (SeqStepsTo (σ m) (σ (m + 1)) ∨ ¬ SeqEnabled (σ m)))

/-! ### The adapter's operations and the environment -/

/-- R170, R171 to R175: each operation on the serial peripheral appends its word to ATRACE and has its effect; nothing else
changes. -/
def Obligations.PeripheralOperations : Prop :=
  ∀ (n : BitVec 8) (w : Half) (s : State),
    exec .periphDisable s = .next { s with ext := { s.ext with
      pEn := false, pStart := false, envFault := s.ext.envFault || !s.ext.txq.isEmpty,
      atrace := s.ext.atrace ++ [0x0000000000000001] } } ∧
    exec .periphEnable s = .next { s with ext := { s.ext with
      pEn := true, atrace := s.ext.atrace ++ [0x0000000000000006] } } ∧
    exec (.periphSetFrames n) s = .next { s with ext := { s.ext with
      pFrames := n, envFault := s.ext.envFault || s.ext.pEn, atrace := s.ext.atrace ++ [0#48 ++ n ++ 5#8] } } ∧
    exec .periphStart s = .next { s with ext := { s.ext with
      pStart := true, atrace := s.ext.atrace ++ [0x0000000000000008] } } ∧
    exec (.pushWord w) s = .next { s with ext := { s.ext with
      txq := s.ext.txq ++ [w], txc := false, atrace := s.ext.atrace ++ [0#32 ++ w ++ 7#16] } }

/-- R170, R176 to R179: each operation on the DMA channel appends its word to ATRACE and has its effect; nothing else
changes. -/
def Obligations.DmaOperations : Prop :=
  ∀ (src : Word) (len : BitVec 8) (s : State),
    exec .clearCflag s = .next { s with ext := { s.ext with
      cflag := false, atrace := s.ext.atrace ++ [0x0000000000000002] } } ∧
    exec (.dmaProgram src len) s = .next { s with ext := { s.ext with
      envFault := s.ext.envFault || s.ext.dEn, dSrc := src, dLen := len, dDst := s.blk.descDst, dMinc := true,
      dPinc := false, dWsize := 1, dRemain := BitVec.ofNat 9 len.toNat, tcArmed := true,
      atrace := s.ext.atrace ++ [src ++ 0#16 ++ len ++ 3#8] } } ∧
    exec .dmaEnable s = .next { s with ext := { s.ext with
      dEn := true, atrace := s.ext.atrace ++ [0x0000000000000004] } } ∧
    exec .dmaDisable s = .next { s with ext := { s.ext with
      dEn := false, atrace := s.ext.atrace ++ [0x0000000000000009] } }

/-- R180: ENV DMA_XFER moves one word; it has no transition when it is not enabled, or when the platform does not admit the
read (R67). Where `D_SRC + 2*(D_LEN - D_REMAIN)` is no 32-bit address it is taken modulo 2^32, which is the model's own
choice (notes/assumptions/9.md). -/
def Obligations.DmaMovesOneWord : Prop :=
  ∀ s : State,
    let enabled := s.ext.dEn = true ∧ s.ext.pEn = true ∧ s.ext.pStart = true ∧ 0 < s.ext.dRemain.toNat
    let a : Word := BitVec.ofInt 32 (s.ext.dSrc.toNat + 2 * ((s.ext.dLen.toNat : Int) - s.ext.dRemain.toNat))
    (¬ enabled → exec .envDmaXfer s = .fault .notEnabled) ∧
    (enabled → admits s.platform a = false → exec .envDmaXfer s = .fault .memoryNotAdmitted) ∧
    (enabled → admits s.platform a = true → exec .envDmaXfer s = .next { s with ext := { s.ext with
      txq := s.ext.txq ++ [Memory.readHalf s.mem a], txc := false,
      dRemain := BitVec.ofNat 9 (s.ext.dRemain.toNat - 1) } })

/-- R181, R182: ENV DMA_TC raises the completion interrupt once every word has been moved and shifted out, and only then; ENV
SHIFT moves the oldest waiting word to the wire, whatever P_EN and P_START are, and TXC rises when none is left. -/
def Obligations.CompletionAndShift : Prop :=
  ∀ (s : State) (w : Half) (waiting : List Half),
    let enabled := s.ext.dEn = true ∧ s.ext.tcArmed = true ∧ s.ext.dRemain.toNat = 0 ∧ s.ext.txq = []
    (enabled → exec .envDmaTc s = .next { s with ext := { s.ext with cflag := true, irqPend := true, tcArmed := false } }) ∧
    (¬ enabled → exec .envDmaTc s = .fault .notEnabled) ∧
    (s.ext.txq = w :: waiting → exec .envShift s = .next { s with ext := { s.ext with
      txq := waiting, wire := s.ext.wire ++ [w], txc := if waiting = [] then true else s.ext.txc } }) ∧
    (s.ext.txq = [] → exec .envShift s = .fault .notEnabled)

/-- R185, R189: ENV DISPATCH clears the pending interrupt and performs COMPLETE in the same step; WSB_DONE releases a pending
WSB when TXC = 1, even while FAULTED = 1. Neither has a transition otherwise. -/
def Obligations.DispatchAndWsbDone : Prop :=
  ∀ s : State,
    (s.ext.irqPend = true →
      ∃ t, exec .envDispatch s = .next t ∧ exec .complete { s with ext := { s.ext with irqPend := false } } = .next t) ∧
    (s.ext.irqPend = false → exec .envDispatch s = .fault .notEnabled) ∧
    (s.blk.wsbPending = true ∧ s.ext.txc = true →
      exec .wsbDone s = .next { s with blk := { s.blk with wsbPending := false } }) ∧
    (¬ (s.blk.wsbPending = true ∧ s.ext.txc = true) → exec .wsbDone s = .fault .notEnabled)

/-! ### Faults -/

/-- R212: a fault is precise: whatever instruction raises it, it changes FAULTED, FAULT_CAUSE and FINFO and no other register,
no memory, and emits no adapter operation; and a later fault leaves the first one's cause and information. -/
def Obligations.FaultsArePrecise : Prop :=
  ∀ (i : Instr) (s t : State), exec i s = .next t →
    (s.blk.faulted = false → t.blk.faulted = true →
      ∃ (c : FaultCause) (v : Word), c ≠ .none ∧
        t.blk = { s.blk with faulted := true, cause := c, finfo := v } ∧ t.mem = s.mem ∧ t.ext.atrace = s.ext.atrace) ∧
    (s.blk.faulted = true → t.blk.faulted = true ∧ t.blk.cause = s.blk.cause ∧ t.blk.finfo = s.blk.finfo)

/-- R213, R214: while FAULTED = 1 writes have no effect, SEQ has no step, a dispatched completion is ignored; and in a step,
TXRING's registers, the fault's among them, change only by reset or by WSB_DONE. -/
def Obligations.FrozenWhileFaulted : Prop :=
  ∀ s : State, s.blk.faulted = true →
    (∀ (n : Half) (port : Port) (w v : Word), ∀ i ∈ [Instr.init n, .enq n, .wsb n, .complete, .illegal port w, .wrArg0 v, .wrArg1 v],
      exec i s = .next s) ∧
    (∀ (i : Instr) (p : SeqStep), isMicroStep i p → exec i s = .fault .notEnabled) ∧
    (s.ext.irqPend = true → exec .envDispatch s = .next { s with ext := { s.ext with irqPend := false } }) ∧
    (∀ t, step s = .next t →
      t.blk = s.blk ∨ ((takeEvent s).1 = .reset ∧ t.blk = State.reset.blk) ∨
      ((takeEvent s).1 = .env .wsbDone ∧ t.blk = { s.blk with wsbPending := false }))

/-- R67, R210(e): a step whose memory access the platform does not admit has no transition: ENQ, ARM6 and ENV DMA_XFER leave
TXRING, the adapter and memory as they were. The agent of a stuck write is stuck: no later step of the machine is one of its steps,
and it is never released; a stuck ARM6 never runs while there is no reset. That the turn is over, and that a reset and a fault do
not release the agent, is the model's own (notes/assumptions/5.md). -/
def Obligations.StuckAccessesChangeNothing : Prop :=
  (∀ (s : State) (e : Event) (rest : List Event) (c : Code) (i : Instr),
    takeEvent s = (e, rest) → eventCode s e = some c → decode c = .ok i →
    exec i { s with sched := rest } = .fault .memoryNotAdmitted →
    step s = .next { s with sched := rest, stuck := e.agent.toList ++ s.stuck } ∧
      (i = .arm6 ∨ i = .envDmaXfer ∨ ∃ len, i = .enq len)) ∧
  (∀ (s : State) (a : Agent), a ∈ s.stuck →
    (takeEvent s).1.agent ≠ some a ∧ ∀ t, step s = .next t → a ∈ t.stuck) ∧
  (∀ s t : State, s.Inv → s.blk.seqPc = .arm6 → admits s.platform (s.blk.slotAddr s.blk.tail.toNat) = false →
    (takeEvent s).1 ≠ .reset → step s = .next t → t.blk.seqPc = .arm6 ∧ t.blk.state = .armed)

/-! ### Invariants -/

/-- The state after reset meets the invariant. -/
def Obligations.ResetMeetsTheInvariant : Prop := State.reset.Inv ∧ State.reset.Coupled ∧ State.reset.WireInOrder

/-- Every step keeps the invariant: R22, R26, R30, R39 of the block's registers, and the canonical form of memory. -/
def Obligations.StepKeepsTheInvariant : Prop := ∀ s t : State, s.Inv → step s = .next t → t.Inv

/-- R26, R39: what the invariant says of a state after INIT and without a fault, in the spec's own terms. -/
def Obligations.InvariantGivesTheSpecsLaws : Prop :=
  ∀ b : Block, b.Inv → b.inited = true →
    b.head.toNat < b.n.toNat ∧ b.tail.toNat < b.n.toNat ∧
    b.occ + b.avail = b.n.toNat - 1 ∧ b.occ ≤ b.n.toNat - 1 ∧
    (b.sessionValid = true ↔ b.state ≠ .idle) ∧
    (b.state ≠ .idle → 2 ≤ b.session.toNat ∧ b.session.toNat ≤ b.occ ∧ b.tail.toNat + b.session.toNat ≤ b.n.toNat) ∧
    (b.state = .idle → min b.occ (b.n.toNat - b.tail.toNat) ≤ 1) ∧
    (b.state = .running →
      b.descEn = true ∧ b.descSrc = b.base + BitVec.ofNat 32 (2 * (b.tail.toNat + 1)) ∧
      b.descLen.toNat = b.session.toNat - 1)

/-- R183, R235: under the platform's contract no step sets ENV_FAULT, and the coupling of block and adapter is kept. -/
def Obligations.TxringNeverBreaksAnAdapterRule : Prop :=
  ∀ (s t : State), s.Inv → s.Coupled → PlatformKeeps s (takeEvent s).1 → step s = .next t →
    t.ext.envFault = s.ext.envFault ∧ t.Coupled

/-- R187: under the platform's contract the words of the burst in flight leave in slot order: every step keeps the words handed
over so far the last ones sent or waiting. -/
def Obligations.WireKeepsSlotOrder : Prop :=
  ∀ (s t : State), s.Inv → s.Coupled → s.WireInOrder → PlatformKeeps s (takeEvent s).1 →
    step s = .next t → t.WireInOrder

/-- R141, R234: eight turns of SEQ from ARM0 reach Running, and the adapter has received exactly the eight operations of the
arming sequence in order. -/
def Obligations.ArmingSendsEightOperationsInOrder : Prop :=
  ∀ (s : State) (rest : List Event), s.Inv → s.blk.faulted = false → s.blk.seqPc = .arm0 →
    admits s.platform (s.blk.slotAddr s.blk.tail.toNat) = true → s.sched = List.replicate 8 .seq ++ rest →
    ∃ t, Runs 8 s t ∧ t.blk.state = .running ∧ t.blk.seqPc = .none ∧ t.sched = rest ∧ t.mem = s.mem ∧
      t.blk.tail = s.blk.tail ∧ t.blk.session = s.blk.session ∧
      t.ext.atrace = s.ext.atrace ++
        [encodedWord .periphDisable, encodedWord .clearCflag,
          encodedWord (.dmaProgram (s.blk.slotAddr (s.blk.tail.toNat + 1)) (BitVec.ofNat 8 (s.blk.session.toNat - 1))),
          encodedWord .dmaEnable, encodedWord (.periphSetFrames s.blk.session), encodedWord .periphEnable,
          encodedWord (.pushWord (Memory.readHalf s.mem (s.blk.slotAddr s.blk.tail.toNat))), encodedWord .periphStart]

/-- R187, R246: a burst run by the reference environment in its plain order puts exactly the words of its SESSION slots on the
wire, in slot order, one frame each, and retires SESSION words (R154). -/
def Obligations.BurstReachesTheWire : Prop :=
  ∀ (s : State) (rest : List Event), s.Inv → s.Coupled → s.blk.inited = true → s.blk.faulted = false →
    s.blk.seqPc = .arm0 →
    (∀ i, i < s.blk.session.toNat → admits s.platform (s.blk.slotAddr (s.blk.tail.toNat + i)) = true) →
    s.sched = List.replicate 8 .seq ++ burstEvents s.blk.session.toNat ++ rest →
    ∃ t, Runs (8 + (s.blk.session.toNat - 1) + s.blk.session.toNat + 5) s t ∧ t.sched = rest ∧ t.mem = s.mem ∧
      t.ext.wire = s.ext.wire ++ s.slotWords s.blk.tail.toNat s.blk.session.toNat ∧ t.ext.txq = [] ∧
      t.blk.faulted = false ∧ t.ext.envFault = s.ext.envFault ∧
      t.blk.tail.toNat = (s.blk.tail.toNat + s.blk.session.toNat) % s.blk.n.toNat

/-! ### Rules of the whole machine -/

/-- R24, R25, R72: HEAD is written only by INIT and ENQ, TAIL only by INIT and RET2 (and both by reset). -/
def Obligations.EachIndexHasOneWriter : Prop :=
  ∀ (s t : State) (e : Event) (rest : List Event), takeEvent s = (e, rest) → step s = .next t → e ≠ .reset →
    (t.blk.head ≠ s.blk.head → (∃ n, eventInstr s e = some (.init n)) ∨ (∃ len, eventInstr s e = some (.enq len))) ∧
    (t.blk.tail ≠ s.blk.tail → (∃ n, eventInstr s e = some (.init n)) ∨ eventInstr s e = some .ret2)

/-- R21, R22, R23, R233: once INITED = 1, only reset changes INITED, N, BASE or DESC_DST. -/
def Obligations.RingIsNeverResized : Prop :=
  ∀ s t : State, step s = .next t → s.blk.inited = true → (takeEvent s).1 ≠ .reset →
    t.blk.inited = true ∧ t.blk.n = s.blk.n ∧ t.blk.base = s.blk.base ∧ t.blk.descDst = s.blk.descDst

/-- R28, R154: the count committed when a burst was armed stays until it retires: while STATE is not Idle, a step changes
SESSION or TAIL only if it is RET2, which advances TAIL by exactly that count, or reset. -/
def Obligations.RetireTakesTheCommittedCount : Prop :=
  ∀ (s t : State) (e : Event) (rest : List Event), s.Inv → s.blk.inited = true → takeEvent s = (e, rest) →
    step s = .next t → e ≠ .reset → s.blk.state ≠ .idle →
      (t.blk.session = s.blk.session ∧ t.blk.tail = s.blk.tail) ∨
      (eventInstr s e = some .ret2 ∧
        t.blk.tail.toNat = (s.blk.tail.toNat + s.blk.session.toNat) % s.blk.n.toNat)

/-- R132: no burst wraps: in every state that the invariant admits, a burst in flight ends inside the backing store, and every
address its descriptor makes the DMA read is that of a slot TAIL+1 to TAIL+SESSION-1 at or below slot N-1. -/
def Obligations.NoBurstWraps : Prop :=
  ∀ b : Block, b.Inv → b.inited = true → b.state ≠ .idle →
    b.tail.toNat + b.session.toNat ≤ b.n.toNat ∧
    (b.programmed = true → ∀ k, k < b.descLen.toNat →
      (b.descSrc + BitVec.ofNat 32 (2 * k)).toNat = b.base.toNat + 2 * (b.tail.toNat + 1 + k) ∧
      (b.descSrc + BitVec.ofNat 32 (2 * k)).toNat ≤ b.base.toNat + 2 * (b.n.toNat - 1))

/-- R155: when a burst ends at the last slot, RET2 sets TAIL to 0 and, if at least 2 words lie from slot 0 on, arms them in
the same step. -/
def Obligations.WrappedRegionIsSentNext : Prop :=
  ∀ s : State, s.Inv → s.blk.inited = true → s.blk.faulted = false → s.blk.seqPc = .ret2 →
    s.blk.tail.toNat + s.blk.session.toNat = s.blk.n.toNat →
    ∃ t, exec .ret2 s = .next t ∧ t.blk.tail = 0 ∧
      (2 ≤ s.blk.head.toNat →
        t.blk.state = .armed ∧ t.blk.seqPc = .arm0 ∧ t.blk.session = s.blk.head ∧ t.blk.sessionValid = true) ∧
      (s.blk.head.toNat ≤ 1 → t.blk.state = .idle ∧ t.blk.seqPc = .none ∧ t.blk.sessionValid = false)

/-- R237: with STATE = Idle and TAIL in the last slot, no step but reset ever moves TAIL or leaves Idle. -/
def Obligations.TailInTheLastSlotStalls : Prop :=
  ∀ s t : State, s.Inv → s.blk.inited = true → s.blk.state = .idle → s.blk.tail.toNat = s.blk.n.toNat - 1 →
    step s = .next t → (takeEvent s).1 ≠ .reset →
    t.blk.inited = true ∧ t.blk.n = s.blk.n ∧ t.blk.state = .idle ∧ t.blk.tail = s.blk.tail

/-- R238: with N = 1 or N = 2 no burst is ever armed, by ENQ's CHUNK or by RET2's; with N = 3 a burst is armed only with TAIL at
most 1 and 2 words queued: in every state that the invariant admits with a burst in flight, and after every step that leaves one
in flight, the armings from Idle and from Retiring among them. -/
def Obligations.SmallRingsNeverTransmit : Prop :=
  (∀ b : Block, b.Inv → b.inited = true → b.state ≠ .idle →
    3 ≤ b.n.toNat ∧ (b.n.toNat = 3 → b.tail.toNat ≤ 1 ∧ b.occ = 2)) ∧
  (∀ s t : State, s.Inv → s.blk.inited = true → step s = .next t → t.blk.state ≠ .idle →
    t.blk.n = s.blk.n ∧ 3 ≤ s.blk.n.toNat ∧ (s.blk.n.toNat = 3 → t.blk.tail.toNat ≤ 1 ∧ t.blk.occ = 2))

/-- R239: from Idle, only an ENQ leaves Idle: no interrupt, environment or sequencer step does. -/
def Obligations.OnlyEnqLeavesIdle : Prop :=
  ∀ (s t : State) (e : Event) (rest : List Event), s.Inv → takeEvent s = (e, rest) → step s = .next t →
    s.blk.state = .idle → t.blk.state ≠ .idle → ∃ len, eventInstr s e = some (.enq len)

/-- R224, R240: a Running burst stays Running until a completion is written, by the dispatch or on CPL, or reset comes. And
under the named premise ENV_FAIR, in a run without a fault in which the platform does not set the adapter up again, a Running
burst whose completion interrupt is pending does not stay Running. -/
def Obligations.RunningWaitsForCompletion : Prop :=
  (∀ (s t : State) (e : Event) (rest : List Event), s.Inv → takeEvent s = (e, rest) → step s = .next t →
    s.blk.state = .running → e ≠ .reset → eventInstr s e ≠ some .envDispatch → eventInstr s e ≠ some .complete →
    t.blk.state = .running) ∧
  (∀ (σ : Nat → State) (n : Nat), IsRun σ → EnvFair σ →
    (∀ m, n ≤ m → (σ m).blk.faulted = false ∧ (takeEvent (σ m)).1 ≠ .platformSetup) →
    (σ n).blk.state = .running → (σ n).ext.irqPend = true → ∃ m, n ≤ m ∧ (σ m).blk.state ≠ .running)

/-- R36: only adapter operations and environment steps change the adapter: an instruction that is not one of them, and not a
micro-step or WSB, which send them, leaves the adapter as it was. -/
def Obligations.OnlyAdapterStepsChangeTheAdapter : Prop :=
  ∀ (i : Instr) (s t : State), exec i s = .next t → t.ext ≠ s.ext →
    (∃ p, isMicroStep i p ∧ p ≠ .ret2) ∨ (∃ w, i = .wsb w) ∨ (∃ w, encode i = .adapter w) ∨
    (∃ e, encode i = .env e ∧ e ≠ .wsbDone)

/-- R38, R188: nothing in the system reads WIRE, CFLAG, ENV_FAULT or ATRACE: with other values in them, a step answers the same
next state but for these four. -/
def Obligations.RecordsAreNeverRead : Prop :=
  ∀ (s t : State) (wire : List Half) (cflag envFault : Bool) (atrace : List DWord), step s = .next t →
    ∃ (wire' : List Half) (cflag' envFault' : Bool) (atrace' : List DWord),
      step { s with ext := { s.ext with wire := wire, cflag := cflag, envFault := envFault, atrace := atrace } } =
        .next { t with ext := { t.ext with wire := wire', cflag := cflag', envFault := envFault', atrace := atrace' } }

/-- R60, R66, R76: memory is changed only by ENQ and by a bus agent's store, and a store of another agent to the backing
store of a ring in use has no next state. -/
def Obligations.OnlyEnqAndStoresChangeMemory : Prop :=
  ∀ (s t : State) (e : Event) (rest : List Event), takeEvent s = (e, rest) → step s = .next t → t.mem ≠ s.mem →
    (∃ len, eventInstr s e = some (.enq len)) ∨
    (∃ (who : Agent) (addr : Word) (v : Byte), e = .store who addr v ∧
      (s.blk.inited = true → addr.toNat < s.blk.base.toNat ∨ s.blk.base.toNat + 2 * s.blk.n.toNat ≤ addr.toNat))

/-- R5, R69, R76, R231, R232: the inputs from outside. Another agent's store writes its byte and nothing else, but has no next
state when it hits the backing store of a ring in use; the platform's setup makes the adapter meet the boot condition and
touches neither TXRING nor memory; and no step changes the platform's parameters. That these inputs are events, and the form of
the last two, is the model's own (notes/assumptions/3.md, 4.md, 11.md, 12.md). -/
def Obligations.OutsideInputs : Prop :=
  ∀ (s : State) (rest : List Event),
    (∀ (who : Agent) (addr : Word) (v : Byte), takeEvent s = (.store who addr v, rest) →
      (s.blk.inited = true ∧ s.blk.base.toNat ≤ addr.toNat ∧ addr.toNat < s.blk.base.toNat + 2 * s.blk.n.toNat →
        step s = .refused (.foreignRingStore addr)) ∧
      (s.blk.inited = false ∨ addr.toNat < s.blk.base.toNat ∨ s.blk.base.toNat + 2 * s.blk.n.toNat ≤ addr.toNat →
        step s = .next { s with mem := Memory.write s.mem addr.toNat v, sched := rest })) ∧
    (s.sched = .platformSetup :: rest →
      ∃ t, step s = .next t ∧ t.blk = s.blk ∧ t.mem = s.mem ∧ t.ext.txq = [] ∧ t.ext.txc = true ∧ t.ext.dEn = false ∧
        t.ext.tcArmed = false ∧ t.ext.cflag = false ∧ t.ext.irqPend = false ∧ t.ext.wire = s.ext.wire ∧
        t.ext.atrace = s.ext.atrace ∧ t.ext.envFault = s.ext.envFault) ∧
    (∀ t, step s = .next t → t.platform = s.platform)

/-- R61: halfwords are little-endian: the low byte at the address, the high byte at the next; a halfword reads back as
written and every other byte stays. That the byte after 0xFFFFFFFF is byte 0 is the model's own (notes/assumptions/9.md). -/
def Obligations.HalfwordsAreLittleEndian : Prop :=
  ∀ (m : Memory) (a : Word) (v : Half), Memory.wf m →
    let m' := Memory.writeHalf m a v
    Memory.wf m' ∧ Memory.read m' a.toNat = v.extractLsb' 0 8 ∧ Memory.read m' (a + 1).toNat = v.extractLsb' 8 8 ∧
    Memory.readHalf m' a = v ∧
    ∀ b, b ≠ a.toNat → b ≠ (a + 1).toNat → Memory.read m' b = Memory.read m b

/-- R96, R97: the seven pseudo-instructions are the register accesses the spec expands them to, `init`, `enq`, `write`, `wsb`,
`complete`, `available` and `occupancy`; an operand that does not fit in 16 bits is refused; each line is the access of its
register; and the results are STATUS[3], which is RESULT, LEVEL[15:8], which is the available space, and LEVEL[7:0], which is the
occupancy. Whose lines they are is the model's reading (DEDUCED, notes/assumptions/4.md). -/
def Obligations.PseudoInstructionsExpand : Prop :=
  ∀ (s : State) (who : Agent) (n : Nat) (x y v : Word),
    let p := s.platform
    let cmd (k : Nat) : Event := lineWr p .producer .cmd (BitVec.ofNat 32 (n * 2 ^ 16 + k))
    (n < 2 ^ 16 →
      asmInit p n x y = some [lineWr p .producer .arg0 x, lineWr p .producer .arg1 y, cmd 1] ∧
      asmEnq p x n = some [lineWr p .producer .arg0 x, cmd 2] ∧
      asmWrite p x n = some [lineWr p .producer .arg0 x, cmd 2, lineRd p .producer .status] ∧
      asmWsb p n = some [cmd 3] ∧
      eventInstr s (cmd 1) = some (.init (BitVec.ofNat 16 n)) ∧ eventInstr s (cmd 2) = some (.enq (BitVec.ofNat 16 n)) ∧
      eventInstr s (cmd 3) = some (.wsb (BitVec.ofNat 16 n))) ∧
    (2 ^ 16 ≤ n → asmInit p n x y = none ∧ asmEnq p x n = none ∧ asmWrite p x n = none ∧ asmWsb p n = none) ∧
    asmComplete p = [lineWr p .dispatch .cpl 0x00000004] ∧
    asmAvailable p who = [lineRd p who .level] ∧ asmOccupancy p who = [lineRd p who .level] ∧
    eventInstr s (lineWr p who .arg0 x) = some (.wrArg0 x) ∧ eventInstr s (lineWr p who .arg1 y) = some (.wrArg1 y) ∧
    eventInstr s (lineWr p who .cpl 0x00000004) = some .complete ∧
    eventInstr s (lineRd p who .status) = some .rdStatus ∧ eventInstr s (lineRd p who .level) = some .rdLevel ∧
    droppedField v = v.getLsbD 3 ∧ availableField v = v.extractLsb' 8 8 ∧ occupancyField v = v.extractLsb' 0 8 ∧
    (∀ t, exec .rdStatus s = .next t → droppedField t.rdata = s.blk.result) ∧
    (∀ t, s.blk.Inv → s.blk.inited = true → exec .rdLevel s = .next t →
      (availableField t.rdata).toNat = s.blk.avail ∧ (occupancyField t.rdata).toNat = s.blk.occ)
end

