-- ==== Sys2Proof/Laws/Memory.lean ====
section
/-! SUPPORT. The laws of memory: a read after a write, the canonical form is kept, equal readings are equal memories, and the
same for halfwords. -/

namespace Sys2Proof.Machine

@[simp] theorem Memory.read_nil (a : Nat) : Memory.read [] a = unlistedByte := rfl

/-- An address below every listed one reads as an unlisted byte. -/
theorem Memory.read_below {m : Memory} {a : Nat} (h : ∀ c ∈ m, a < c.1) : Memory.read m a = unlistedByte := by
  induction m with
  | nil => rfl
  | cons c m ih =>
    obtain ⟨k, v⟩ := c
    have hk : a < k := h (k, v) (by simp)
    have hne : a ≠ k := by omega
    simpa [Memory.read, hne] using ih fun c hc => h c (by simp [hc])

/-- A read at the address of a write gives the value written. -/
theorem Memory.read_write_same {m : Memory} (hm : Memory.wf m) (a : Nat) (v : Byte) :
    Memory.read (Memory.write m a v) a = v := by
  obtain ⟨hp, hc⟩ := hm
  induction m with
  | nil =>
    by_cases hv : v = unlistedByte
    · simp [Memory.write, hv]
    · simp [Memory.write, hv, Memory.read]
  | cons c m ih =>
    obtain ⟨k, x⟩ := c
    rw [List.pairwise_cons] at hp
    have hbelow : ∀ b, b ≤ k → Memory.read m b = unlistedByte := fun b hb =>
      Memory.read_below fun c hcm => Nat.lt_of_le_of_lt hb (hp.1 c hcm)
    rcases Nat.lt_trichotomy a k with h | h | h
    · have hne : a ≠ k := by omega
      by_cases hv : v = unlistedByte
      · simp [Memory.write, h, hv, Memory.read, hne, hbelow a (by omega)]
      · simp [Memory.write, h, hv, Memory.read]
    · subst h
      by_cases hv : v = unlistedByte
      · simp [Memory.write, hv, hbelow a (Nat.le_refl _)]
      · simp [Memory.write, hv, Memory.read]
    · have h1 : ¬ a < k := by omega
      have h2 : a ≠ k := by omega
      simp only [Memory.write, h1, h2, if_false, Memory.read]
      exact ih hp.2 fun c hcm => hc c (by simp [hcm])

/-- A write leaves every other address alone. -/
theorem Memory.read_write_other (m : Memory) {a b : Nat} (v : Byte) (h : b ≠ a) :
    Memory.read (Memory.write m a v) b = Memory.read m b := by
  induction m with
  | nil => by_cases hv : v = unlistedByte <;> simp [Memory.write, hv, Memory.read, h]
  | cons c m ih =>
    obtain ⟨k, x⟩ := c
    rcases Nat.lt_trichotomy a k with hk | hk | hk
    · by_cases hv : v = unlistedByte <;> simp [Memory.write, hk, hv, Memory.read, h]
    · subst hk
      by_cases hv : v = unlistedByte <;> simp [Memory.write, hv, Memory.read, h]
    · have h1 : ¬ a < k := by omega
      have h2 : a ≠ k := by omega
      simp only [Memory.write, h1, h2, if_false, Memory.read]
      by_cases hb : b = k
      · simp [hb]
      · simp [hb, ih]

/-- A write lists only the address written and addresses that were listed. -/
theorem Memory.mem_write {m : Memory} {a : Nat} {v : Byte} {c : Host.Cell} (h : c ∈ Memory.write m a v) :
    c ∈ m ∨ c = (a, v) ∧ v ≠ unlistedByte := by
  induction m with
  | nil =>
    by_cases hv : v = unlistedByte
    · simp [Memory.write, hv] at h
    · simp only [Memory.write, hv, if_false, List.mem_singleton] at h
      exact .inr ⟨h, hv⟩
  | cons d m ih =>
    obtain ⟨k, x⟩ := d
    by_cases h1 : a < k
    · by_cases hv : v = unlistedByte
      · simp only [Memory.write, h1, hv, if_true] at h
        exact .inl h
      · simp only [Memory.write, h1, hv, if_true, if_false, List.mem_cons] at h
        rcases h with h | h | h
        · exact .inr ⟨h, hv⟩
        · exact .inl (by simp [h])
        · exact .inl (by simp [h])
    · by_cases h2 : a = k
      · by_cases hv : v = unlistedByte
        · simp only [Memory.write, h2, hv, if_true, if_false, Nat.lt_irrefl] at h
          exact .inl (by simp [h])
        · simp only [Memory.write, h2, hv, if_true, if_false, Nat.lt_irrefl, List.mem_cons] at h
          rcases h with h | h
          · exact .inr ⟨by rw [h, h2], hv⟩
          · exact .inl (by simp [h])
      · simp only [Memory.write, h1, h2, if_false, List.mem_cons] at h
        rcases h with h | h
        · exact .inl (by simp [h])
        · rcases ih h with h | h
          · exact .inl (by simp [h])
          · exact .inr h

/-- A write keeps the canonical form. -/
theorem Memory.write_wf {m : Memory} (hm : Memory.wf m) {a : Nat} (ha : a < 2 ^ 32) (v : Byte) :
    Memory.wf (Memory.write m a v) := by
  refine ⟨?_, fun c hc => ?_⟩
  · obtain ⟨hp, -⟩ := hm
    induction m with
    | nil => by_cases hv : v = unlistedByte <;> simp [Memory.write, hv]
    | cons d m ih =>
      obtain ⟨k, x⟩ := d
      have hd := List.pairwise_cons.mp hp
      by_cases h1 : a < k
      · by_cases hv : v = unlistedByte
        · simpa only [Memory.write, h1, hv, if_true] using hp
        · simp only [Memory.write, h1, hv, if_true, if_false, List.pairwise_cons, List.mem_cons]
          refine ⟨?_, hd⟩
          rintro c (rfl | hc)
          · exact h1
          · exact Nat.lt_trans h1 (hd.1 c hc)
      · by_cases h2 : a = k
        · by_cases hv : v = unlistedByte
          · simpa only [Memory.write, h1, h2, hv, if_true, if_false, Nat.lt_irrefl] using hd.2
          · simp only [Memory.write, h2, hv, if_true, if_false, Nat.lt_irrefl, List.pairwise_cons]
            exact hd
        · simp only [Memory.write, h1, h2, if_false, List.pairwise_cons]
          refine ⟨fun c hc => ?_, ih hd.2⟩
          rcases Memory.mem_write hc with hc | ⟨rfl, -⟩
          · exact hd.1 c hc
          · show k < a
            omega
  · rcases Memory.mem_write hc with hc | ⟨rfl, hv⟩
    · exact hm.2 c hc
    · exact ⟨ha, hv⟩

theorem Memory.wf_nil : Memory.wf [] := by simp [Memory.wf]

/-- A listed cell is what its address reads as. -/
theorem Memory.read_of_mem {m : Memory} (hm : Memory.wf m) {c : Host.Cell} (h : c ∈ m) : Memory.read m c.1 = c.2 := by
  obtain ⟨hp, hc⟩ := hm
  induction m with
  | nil => simp at h
  | cons d m ih =>
    obtain ⟨k, x⟩ := d
    have hd := List.pairwise_cons.mp hp
    rcases List.mem_cons.mp h with rfl | h
    · simp [Memory.read]
    · have hlt : k < c.1 := hd.1 c h
      have hne : c.1 ≠ k := by omega
      simpa [Memory.read, hne] using ih h hd.2 fun c hcm => hc c (by simp [hcm])

/-- Equal memories are equal data: canonical memories that read alike everywhere are the same list. -/
theorem Memory.ext_read {m m' : Memory} (hm : Memory.wf m) (hm' : Memory.wf m')
    (h : ∀ a, Memory.read m a = Memory.read m' a) : m = m' := by
  induction m generalizing m' with
  | nil =>
    cases m' with
    | nil => rfl
    | cons d m' =>
      have := h d.1
      rw [Memory.read_of_mem hm' (by simp : d ∈ d :: m')] at this
      exact absurd this.symm (hm'.2 d (by simp)).2
  | cons c m ih =>
    cases m' with
    | nil =>
      have := h c.1
      rw [Memory.read_of_mem hm (by simp : c ∈ c :: m)] at this
      exact absurd this (hm.2 c (by simp)).2
    | cons d m' =>
      have hp := List.pairwise_cons.mp hm.1
      have hp' := List.pairwise_cons.mp hm'.1
      have hlow : ∀ {n : Memory} {e : Host.Cell} {a : Nat}, (∀ x ∈ n, e.1 < x.1) → a < e.1 →
          Memory.read (e :: n) a = unlistedByte := fun {n e a} hn ha =>
        Memory.read_below fun x hx => by
          rcases List.mem_cons.mp hx with rfl | hx
          · exact ha
          · exact Nat.lt_trans ha (hn x hx)
      have hcd : c.1 = d.1 := by
        rcases Nat.lt_trichotomy c.1 d.1 with hlt | heq | hgt
        · have := h c.1
          rw [Memory.read_of_mem hm (by simp : c ∈ c :: m), hlow hp'.1 hlt] at this
          exact absurd this (hm.2 c (by simp)).2
        · exact heq
        · have := h d.1
          rw [Memory.read_of_mem hm' (by simp : d ∈ d :: m'), hlow hp.1 hgt] at this
          exact absurd this.symm (hm'.2 d (by simp)).2
      have hv : c.2 = d.2 := by
        have := h c.1
        rw [Memory.read_of_mem hm (by simp : c ∈ c :: m), hcd, Memory.read_of_mem hm' (by simp : d ∈ d :: m')] at this
        exact this
      have hce : c = d := Prod.ext hcd hv
      subst hce
      have htail : m = m' := by
        refine ih ⟨hp.2, fun x hx => hm.2 x (by simp [hx])⟩ ⟨hp'.2, fun x hx => hm'.2 x (by simp [hx])⟩ fun a => ?_
        by_cases ha : a = c.1
        · subst ha
          rw [Memory.read_below hp.1, Memory.read_below hp'.1]
        · have := h a
          simpa [Memory.read, ha] using this
      rw [htail]

/-! ### Halfwords -/

theorem Memory.writeHalf_wf {m : Memory} (hm : Memory.wf m) (a : Word) (v : Half) : Memory.wf (Memory.writeHalf m a v) :=
  Memory.write_wf (Memory.write_wf hm a.isLt _) (a + 1).isLt _

/-- The two bytes of a halfword lie at different addresses. -/
theorem succ_ne (a : Word) : (a + 1).toNat ≠ a.toNat := by
  intro h
  have := congrArg (fun x => x - a) (BitVec.eq_of_toNat_eq h)
  simp at this

/-- The two bytes of a halfword, put together again. -/
theorem halves_append (v : Half) : (v.extractLsb' 8 8 ++ v.extractLsb' 0 8 : Half) = v := by
  apply BitVec.eq_of_getLsbD_eq
  intro i hi
  rw [BitVec.getLsbD_append, BitVec.getLsbD_extractLsb', BitVec.getLsbD_extractLsb']
  by_cases h8 : i < 8
  · simp [h8]
  · simp [h8, show i - 8 < 8 by omega, show 8 + (i - 8) = i by omega]

/-- A halfword reads back as it was written. -/
theorem Memory.readHalf_writeHalf_same {m : Memory} (hm : Memory.wf m) (a : Word) (v : Half) :
    Memory.readHalf (Memory.writeHalf m a v) a = v := by
  have hw := Memory.write_wf hm a.isLt (v.extractLsb' 0 8)
  simp only [Memory.readHalf, Memory.writeHalf, Memory.read_write_same hw,
    Memory.read_write_other _ _ (succ_ne a).symm, Memory.read_write_same hm]
  exact halves_append v

/-- A halfword write leaves every byte outside its two alone. -/
theorem Memory.read_writeHalf_other (m : Memory) (a : Word) (v : Half) {b : Nat} (h : b ≠ a.toNat) (h' : b ≠ (a + 1).toNat) :
    Memory.read (Memory.writeHalf m a v) b = Memory.read m b := by
  rw [Memory.writeHalf, Memory.read_write_other _ _ h', Memory.read_write_other _ _ h]

end Sys2Proof.Machine
end

