-- ==== Sys2Proof/Laws/State.lean ====
section
/-! SUPPORT. One lemma per field of State per update, each true by rfl, and the same for the block's and the adapter's named
updates. -/

namespace Sys2Proof.Machine

@[simp] theorem State.setBlk_blk (s : State) (b : Block) : (s.setBlk b).blk = b := rfl
@[simp] theorem State.setBlk_ext (s : State) (b : Block) : (s.setBlk b).ext = s.ext := rfl
@[simp] theorem State.setBlk_mem (s : State) (b : Block) : (s.setBlk b).mem = s.mem := rfl
@[simp] theorem State.setBlk_rdata (s : State) (b : Block) : (s.setBlk b).rdata = s.rdata := rfl
@[simp] theorem State.setBlk_platform (s : State) (b : Block) : (s.setBlk b).platform = s.platform := rfl
@[simp] theorem State.setBlk_wsbAgent (s : State) (b : Block) : (s.setBlk b).wsbAgent = s.wsbAgent := rfl
@[simp] theorem State.setBlk_stuck (s : State) (b : Block) : (s.setBlk b).stuck = s.stuck := rfl
@[simp] theorem State.setBlk_sched (s : State) (b : Block) : (s.setBlk b).sched = s.sched := rfl

@[simp] theorem State.setExt_blk (s : State) (x : Adapter) : (s.setExt x).blk = s.blk := rfl
@[simp] theorem State.setExt_ext (s : State) (x : Adapter) : (s.setExt x).ext = x := rfl
@[simp] theorem State.setExt_mem (s : State) (x : Adapter) : (s.setExt x).mem = s.mem := rfl
@[simp] theorem State.setExt_rdata (s : State) (x : Adapter) : (s.setExt x).rdata = s.rdata := rfl
@[simp] theorem State.setExt_platform (s : State) (x : Adapter) : (s.setExt x).platform = s.platform := rfl
@[simp] theorem State.setExt_wsbAgent (s : State) (x : Adapter) : (s.setExt x).wsbAgent = s.wsbAgent := rfl
@[simp] theorem State.setExt_stuck (s : State) (x : Adapter) : (s.setExt x).stuck = s.stuck := rfl
@[simp] theorem State.setExt_sched (s : State) (x : Adapter) : (s.setExt x).sched = s.sched := rfl

@[simp] theorem State.setMem_blk (s : State) (m : Memory) : (s.setMem m).blk = s.blk := rfl
@[simp] theorem State.setMem_ext (s : State) (m : Memory) : (s.setMem m).ext = s.ext := rfl
@[simp] theorem State.setMem_mem (s : State) (m : Memory) : (s.setMem m).mem = m := rfl
@[simp] theorem State.setMem_rdata (s : State) (m : Memory) : (s.setMem m).rdata = s.rdata := rfl
@[simp] theorem State.setMem_platform (s : State) (m : Memory) : (s.setMem m).platform = s.platform := rfl
@[simp] theorem State.setMem_wsbAgent (s : State) (m : Memory) : (s.setMem m).wsbAgent = s.wsbAgent := rfl
@[simp] theorem State.setMem_stuck (s : State) (m : Memory) : (s.setMem m).stuck = s.stuck := rfl
@[simp] theorem State.setMem_sched (s : State) (m : Memory) : (s.setMem m).sched = s.sched := rfl

@[simp] theorem State.setRdata_blk (s : State) (v : Word) : (s.setRdata v).blk = s.blk := rfl
@[simp] theorem State.setRdata_ext (s : State) (v : Word) : (s.setRdata v).ext = s.ext := rfl
@[simp] theorem State.setRdata_mem (s : State) (v : Word) : (s.setRdata v).mem = s.mem := rfl
@[simp] theorem State.setRdata_rdata (s : State) (v : Word) : (s.setRdata v).rdata = v := rfl
@[simp] theorem State.setRdata_platform (s : State) (v : Word) : (s.setRdata v).platform = s.platform := rfl
@[simp] theorem State.setRdata_wsbAgent (s : State) (v : Word) : (s.setRdata v).wsbAgent = s.wsbAgent := rfl
@[simp] theorem State.setRdata_stuck (s : State) (v : Word) : (s.setRdata v).stuck = s.stuck := rfl
@[simp] theorem State.setRdata_sched (s : State) (v : Word) : (s.setRdata v).sched = s.sched := rfl

@[simp] theorem State.setSched_blk (s : State) (l : List Event) : (s.setSched l).blk = s.blk := rfl
@[simp] theorem State.setSched_ext (s : State) (l : List Event) : (s.setSched l).ext = s.ext := rfl
@[simp] theorem State.setSched_mem (s : State) (l : List Event) : (s.setSched l).mem = s.mem := rfl
@[simp] theorem State.setSched_rdata (s : State) (l : List Event) : (s.setSched l).rdata = s.rdata := rfl
@[simp] theorem State.setSched_platform (s : State) (l : List Event) : (s.setSched l).platform = s.platform := rfl
@[simp] theorem State.setSched_wsbAgent (s : State) (l : List Event) : (s.setSched l).wsbAgent = s.wsbAgent := rfl
@[simp] theorem State.setSched_stuck (s : State) (l : List Event) : (s.setSched l).stuck = s.stuck := rfl
@[simp] theorem State.setSched_sched (s : State) (l : List Event) : (s.setSched l).sched = l := rfl

@[simp] theorem State.setWsbAgent_blk (s : State) (a : Agent) : (s.setWsbAgent a).blk = s.blk := rfl
@[simp] theorem State.setWsbAgent_ext (s : State) (a : Agent) : (s.setWsbAgent a).ext = s.ext := rfl
@[simp] theorem State.setWsbAgent_mem (s : State) (a : Agent) : (s.setWsbAgent a).mem = s.mem := rfl
@[simp] theorem State.setWsbAgent_rdata (s : State) (a : Agent) : (s.setWsbAgent a).rdata = s.rdata := rfl
@[simp] theorem State.setWsbAgent_platform (s : State) (a : Agent) : (s.setWsbAgent a).platform = s.platform := rfl
@[simp] theorem State.setWsbAgent_wsbAgent (s : State) (a : Agent) : (s.setWsbAgent a).wsbAgent = a := rfl
@[simp] theorem State.setWsbAgent_stuck (s : State) (a : Agent) : (s.setWsbAgent a).stuck = s.stuck := rfl
@[simp] theorem State.setWsbAgent_sched (s : State) (a : Agent) : (s.setWsbAgent a).sched = s.sched := rfl

@[simp] theorem State.setStuck_blk (s : State) (l : List Agent) : (s.setStuck l).blk = s.blk := rfl
@[simp] theorem State.setStuck_ext (s : State) (l : List Agent) : (s.setStuck l).ext = s.ext := rfl
@[simp] theorem State.setStuck_mem (s : State) (l : List Agent) : (s.setStuck l).mem = s.mem := rfl
@[simp] theorem State.setStuck_rdata (s : State) (l : List Agent) : (s.setStuck l).rdata = s.rdata := rfl
@[simp] theorem State.setStuck_platform (s : State) (l : List Agent) : (s.setStuck l).platform = s.platform := rfl
@[simp] theorem State.setStuck_wsbAgent (s : State) (l : List Agent) : (s.setStuck l).wsbAgent = s.wsbAgent := rfl
@[simp] theorem State.setStuck_stuck (s : State) (l : List Agent) : (s.setStuck l).stuck = l := rfl
@[simp] theorem State.setStuck_sched (s : State) (l : List Agent) : (s.setStuck l).sched = s.sched := rfl

@[simp] theorem setSeqPc_ext (p : SeqStep) (s : State) : (setSeqPc p s).ext = s.ext := rfl
@[simp] theorem setSeqPc_mem (p : SeqStep) (s : State) : (setSeqPc p s).mem = s.mem := rfl
@[simp] theorem setSeqPc_rdata (p : SeqStep) (s : State) : (setSeqPc p s).rdata = s.rdata := rfl
@[simp] theorem setSeqPc_platform (p : SeqStep) (s : State) : (setSeqPc p s).platform = s.platform := rfl
@[simp] theorem setSeqPc_wsbAgent (p : SeqStep) (s : State) : (setSeqPc p s).wsbAgent = s.wsbAgent := rfl
@[simp] theorem setSeqPc_stuck (p : SeqStep) (s : State) : (setSeqPc p s).stuck = s.stuck := rfl
@[simp] theorem setSeqPc_sched (p : SeqStep) (s : State) : (setSeqPc p s).sched = s.sched := rfl
@[simp] theorem setSeqPc_blk (p : SeqStep) (s : State) : (setSeqPc p s).blk = { s.blk with seqPc := p } := rfl

/-- Two states are equal when their fields are. -/
theorem State.ext_fields {s t : State} (hb : s.blk = t.blk) (hx : s.ext = t.ext) (hm : s.mem = t.mem)
    (hr : s.rdata = t.rdata) (hp : s.platform = t.platform) (hw : s.wsbAgent = t.wsbAgent) (hk : s.stuck = t.stuck)
    (hs : s.sched = t.sched) : s = t := by
  cases s; cases t; simp_all

@[simp] theorem Block.setResult_inited (b : Block) (d : Bool) : (b.setResult d).inited = b.inited := rfl
@[simp] theorem Block.setResult_n (b : Block) (d : Bool) : (b.setResult d).n = b.n := rfl
@[simp] theorem Block.setResult_base (b : Block) (d : Bool) : (b.setResult d).base = b.base := rfl
@[simp] theorem Block.setResult_head (b : Block) (d : Bool) : (b.setResult d).head = b.head := rfl
@[simp] theorem Block.setResult_tail (b : Block) (d : Bool) : (b.setResult d).tail = b.tail := rfl
@[simp] theorem Block.setResult_state (b : Block) (d : Bool) : (b.setResult d).state = b.state := rfl
@[simp] theorem Block.setResult_session (b : Block) (d : Bool) : (b.setResult d).session = b.session := rfl
@[simp] theorem Block.setResult_sessionValid (b : Block) (d : Bool) : (b.setResult d).sessionValid = b.sessionValid := rfl
@[simp] theorem Block.setResult_seqPc (b : Block) (d : Bool) : (b.setResult d).seqPc = b.seqPc := rfl
@[simp] theorem Block.setResult_descSrc (b : Block) (d : Bool) : (b.setResult d).descSrc = b.descSrc := rfl
@[simp] theorem Block.setResult_descDst (b : Block) (d : Bool) : (b.setResult d).descDst = b.descDst := rfl
@[simp] theorem Block.setResult_descLen (b : Block) (d : Bool) : (b.setResult d).descLen = b.descLen := rfl
@[simp] theorem Block.setResult_descEn (b : Block) (d : Bool) : (b.setResult d).descEn = b.descEn := rfl
@[simp] theorem Block.setResult_descMinc (b : Block) (d : Bool) : (b.setResult d).descMinc = b.descMinc := rfl
@[simp] theorem Block.setResult_descPinc (b : Block) (d : Bool) : (b.setResult d).descPinc = b.descPinc := rfl
@[simp] theorem Block.setResult_descWsize (b : Block) (d : Bool) : (b.setResult d).descWsize = b.descWsize := rfl
@[simp] theorem Block.setResult_result (b : Block) (d : Bool) : (b.setResult d).result = d := rfl
@[simp] theorem Block.setResult_wsbPending (b : Block) (d : Bool) : (b.setResult d).wsbPending = b.wsbPending := rfl
@[simp] theorem Block.setResult_faulted (b : Block) (d : Bool) : (b.setResult d).faulted = b.faulted := rfl
@[simp] theorem Block.setResult_cause (b : Block) (d : Bool) : (b.setResult d).cause = b.cause := rfl
@[simp] theorem Block.setResult_finfo (b : Block) (d : Bool) : (b.setResult d).finfo = b.finfo := rfl
@[simp] theorem Block.setResult_arg0 (b : Block) (d : Bool) : (b.setResult d).arg0 = b.arg0 := rfl
@[simp] theorem Block.setResult_arg1 (b : Block) (d : Bool) : (b.setResult d).arg1 = b.arg1 := rfl

@[simp] theorem Adapter.clearCflag_pEn (x : Adapter) : x.clearCflag.pEn = x.pEn := rfl
@[simp] theorem Adapter.clearCflag_pFrames (x : Adapter) : x.clearCflag.pFrames = x.pFrames := rfl
@[simp] theorem Adapter.clearCflag_pStart (x : Adapter) : x.clearCflag.pStart = x.pStart := rfl
@[simp] theorem Adapter.clearCflag_txq (x : Adapter) : x.clearCflag.txq = x.txq := rfl
@[simp] theorem Adapter.clearCflag_wire (x : Adapter) : x.clearCflag.wire = x.wire := rfl
@[simp] theorem Adapter.clearCflag_txc (x : Adapter) : x.clearCflag.txc = x.txc := rfl
@[simp] theorem Adapter.clearCflag_dEn (x : Adapter) : x.clearCflag.dEn = x.dEn := rfl
@[simp] theorem Adapter.clearCflag_dSrc (x : Adapter) : x.clearCflag.dSrc = x.dSrc := rfl
@[simp] theorem Adapter.clearCflag_dDst (x : Adapter) : x.clearCflag.dDst = x.dDst := rfl
@[simp] theorem Adapter.clearCflag_dLen (x : Adapter) : x.clearCflag.dLen = x.dLen := rfl
@[simp] theorem Adapter.clearCflag_dMinc (x : Adapter) : x.clearCflag.dMinc = x.dMinc := rfl
@[simp] theorem Adapter.clearCflag_dPinc (x : Adapter) : x.clearCflag.dPinc = x.dPinc := rfl
@[simp] theorem Adapter.clearCflag_dWsize (x : Adapter) : x.clearCflag.dWsize = x.dWsize := rfl
@[simp] theorem Adapter.clearCflag_dRemain (x : Adapter) : x.clearCflag.dRemain = x.dRemain := rfl
@[simp] theorem Adapter.clearCflag_tcArmed (x : Adapter) : x.clearCflag.tcArmed = x.tcArmed := rfl
@[simp] theorem Adapter.clearCflag_cflag (x : Adapter) : x.clearCflag.cflag = false := rfl
@[simp] theorem Adapter.clearCflag_irqPend (x : Adapter) : x.clearCflag.irqPend = x.irqPend := rfl
@[simp] theorem Adapter.clearCflag_atrace (x : Adapter) : x.clearCflag.atrace = x.atrace := rfl
@[simp] theorem Adapter.clearCflag_envFault (x : Adapter) : x.clearCflag.envFault = x.envFault := rfl

@[simp] theorem Adapter.push_pEn (x : Adapter) (w : Half) : (x.push w).pEn = x.pEn := rfl
@[simp] theorem Adapter.push_pFrames (x : Adapter) (w : Half) : (x.push w).pFrames = x.pFrames := rfl
@[simp] theorem Adapter.push_pStart (x : Adapter) (w : Half) : (x.push w).pStart = x.pStart := rfl
@[simp] theorem Adapter.push_txq (x : Adapter) (w : Half) : (x.push w).txq = x.txq ++ [w] := rfl
@[simp] theorem Adapter.push_wire (x : Adapter) (w : Half) : (x.push w).wire = x.wire := rfl
@[simp] theorem Adapter.push_txc (x : Adapter) (w : Half) : (x.push w).txc = false := rfl
@[simp] theorem Adapter.push_dEn (x : Adapter) (w : Half) : (x.push w).dEn = x.dEn := rfl
@[simp] theorem Adapter.push_dSrc (x : Adapter) (w : Half) : (x.push w).dSrc = x.dSrc := rfl
@[simp] theorem Adapter.push_dDst (x : Adapter) (w : Half) : (x.push w).dDst = x.dDst := rfl
@[simp] theorem Adapter.push_dLen (x : Adapter) (w : Half) : (x.push w).dLen = x.dLen := rfl
@[simp] theorem Adapter.push_dMinc (x : Adapter) (w : Half) : (x.push w).dMinc = x.dMinc := rfl
@[simp] theorem Adapter.push_dPinc (x : Adapter) (w : Half) : (x.push w).dPinc = x.dPinc := rfl
@[simp] theorem Adapter.push_dWsize (x : Adapter) (w : Half) : (x.push w).dWsize = x.dWsize := rfl
@[simp] theorem Adapter.push_dRemain (x : Adapter) (w : Half) : (x.push w).dRemain = x.dRemain := rfl
@[simp] theorem Adapter.push_tcArmed (x : Adapter) (w : Half) : (x.push w).tcArmed = x.tcArmed := rfl
@[simp] theorem Adapter.push_cflag (x : Adapter) (w : Half) : (x.push w).cflag = x.cflag := rfl
@[simp] theorem Adapter.push_irqPend (x : Adapter) (w : Half) : (x.push w).irqPend = x.irqPend := rfl
@[simp] theorem Adapter.push_atrace (x : Adapter) (w : Half) : (x.push w).atrace = x.atrace := rfl
@[simp] theorem Adapter.push_envFault (x : Adapter) (w : Half) : (x.push w).envFault = x.envFault := rfl

@[simp] theorem Adapter.mark_pEn (x : Adapter) (d : Bool) : (x.mark d).pEn = x.pEn := rfl
@[simp] theorem Adapter.mark_pFrames (x : Adapter) (d : Bool) : (x.mark d).pFrames = x.pFrames := rfl
@[simp] theorem Adapter.mark_pStart (x : Adapter) (d : Bool) : (x.mark d).pStart = x.pStart := rfl
@[simp] theorem Adapter.mark_txq (x : Adapter) (d : Bool) : (x.mark d).txq = x.txq := rfl
@[simp] theorem Adapter.mark_wire (x : Adapter) (d : Bool) : (x.mark d).wire = x.wire := rfl
@[simp] theorem Adapter.mark_txc (x : Adapter) (d : Bool) : (x.mark d).txc = x.txc := rfl
@[simp] theorem Adapter.mark_dEn (x : Adapter) (d : Bool) : (x.mark d).dEn = x.dEn := rfl
@[simp] theorem Adapter.mark_dSrc (x : Adapter) (d : Bool) : (x.mark d).dSrc = x.dSrc := rfl
@[simp] theorem Adapter.mark_dDst (x : Adapter) (d : Bool) : (x.mark d).dDst = x.dDst := rfl
@[simp] theorem Adapter.mark_dLen (x : Adapter) (d : Bool) : (x.mark d).dLen = x.dLen := rfl
@[simp] theorem Adapter.mark_dMinc (x : Adapter) (d : Bool) : (x.mark d).dMinc = x.dMinc := rfl
@[simp] theorem Adapter.mark_dPinc (x : Adapter) (d : Bool) : (x.mark d).dPinc = x.dPinc := rfl
@[simp] theorem Adapter.mark_dWsize (x : Adapter) (d : Bool) : (x.mark d).dWsize = x.dWsize := rfl
@[simp] theorem Adapter.mark_dRemain (x : Adapter) (d : Bool) : (x.mark d).dRemain = x.dRemain := rfl
@[simp] theorem Adapter.mark_tcArmed (x : Adapter) (d : Bool) : (x.mark d).tcArmed = x.tcArmed := rfl
@[simp] theorem Adapter.mark_cflag (x : Adapter) (d : Bool) : (x.mark d).cflag = x.cflag := rfl
@[simp] theorem Adapter.mark_irqPend (x : Adapter) (d : Bool) : (x.mark d).irqPend = x.irqPend := rfl
@[simp] theorem Adapter.mark_atrace (x : Adapter) (d : Bool) : (x.mark d).atrace = x.atrace := rfl
@[simp] theorem Adapter.mark_envFault (x : Adapter) (d : Bool) : (x.mark d).envFault = (x.envFault || d) := rfl

end Sys2Proof.Machine
end

