-- ==== Sys2Proof/Laws/Ops.lean ====
section
/-! SUPPORT. One lemma per shared operation that says once everything it can do: the adapter port, faults, the chunker, the
retire, ENQ's copy, the shapes shared by the meanings. -/

namespace Sys2Proof.Machine

/-! ### The adapter port -/

@[simp] theorem emit_blk (op : AdapterOp) (s : State) : (emit op s).blk = s.blk := rfl
@[simp] theorem emit_mem (op : AdapterOp) (s : State) : (emit op s).mem = s.mem := rfl
@[simp] theorem emit_rdata (op : AdapterOp) (s : State) : (emit op s).rdata = s.rdata := rfl
@[simp] theorem emit_platform (op : AdapterOp) (s : State) : (emit op s).platform = s.platform := rfl
@[simp] theorem emit_wsbAgent (op : AdapterOp) (s : State) : (emit op s).wsbAgent = s.wsbAgent := rfl
@[simp] theorem emit_stuck (op : AdapterOp) (s : State) : (emit op s).stuck = s.stuck := rfl
@[simp] theorem emit_sched (op : AdapterOp) (s : State) : (emit op s).sched = s.sched := rfl
@[simp] theorem emit_ext (op : AdapterOp) (s : State) :
    (emit op s).ext = applyOp op s.blk.descDst { s.ext with atrace := s.ext.atrace ++ [op.word] } := rfl

/-- Every emission appends exactly its own word to ATRACE (R170). -/
@[simp] theorem applyOp_atrace (op : AdapterOp) (dst : Word) (x : Adapter) : (applyOp op dst x).atrace = x.atrace := by
  cases op <;> rfl

/-- No operation touches the wire. -/
@[simp] theorem applyOp_wire (op : AdapterOp) (dst : Word) (x : Adapter) : (applyOp op dst x).wire = x.wire := by
  cases op <;> rfl

/-- No operation touches the pending interrupt. -/
@[simp] theorem applyOp_irqPend (op : AdapterOp) (dst : Word) (x : Adapter) : (applyOp op dst x).irqPend = x.irqPend := by
  cases op <;> rfl

/-! ### Faults -/

/-- R212: the first fault is kept. -/
theorem raiseFault_of_faulted {s : State} (h : s.blk.faulted = true) (c : FaultCause) (v : Word) : raiseFault c v s = s := by
  simp [raiseFault, h]

/-- R212: a fault changes FAULTED, FAULT_CAUSE and FINFO and nothing else. -/
theorem raiseFault_of_clear {s : State} (h : s.blk.faulted = false) (c : FaultCause) (v : Word) :
    raiseFault c v s = { s with blk := { s.blk with faulted := true, cause := c, finfo := v } } := by
  simp [raiseFault, h, State.setBlk]

@[simp] theorem raiseFault_ext (c : FaultCause) (v : Word) (s : State) : (raiseFault c v s).ext = s.ext := by
  unfold raiseFault; split <;> rfl

@[simp] theorem raiseFault_mem (c : FaultCause) (v : Word) (s : State) : (raiseFault c v s).mem = s.mem := by
  unfold raiseFault; split <;> rfl

@[simp] theorem raiseFault_platform (c : FaultCause) (v : Word) (s : State) : (raiseFault c v s).platform = s.platform := by
  unfold raiseFault; split <;> rfl

@[simp] theorem raiseFault_wsbAgent (c : FaultCause) (v : Word) (s : State) : (raiseFault c v s).wsbAgent = s.wsbAgent := by
  unfold raiseFault; split <;> rfl

@[simp] theorem raiseFault_stuck (c : FaultCause) (v : Word) (s : State) : (raiseFault c v s).stuck = s.stuck := by
  unfold raiseFault; split <;> rfl

@[simp] theorem raiseFault_sched (c : FaultCause) (v : Word) (s : State) : (raiseFault c v s).sched = s.sched := by
  unfold raiseFault; split <;> rfl

@[simp] theorem raiseFault_rdata (c : FaultCause) (v : Word) (s : State) : (raiseFault c v s).rdata = s.rdata := by
  unfold raiseFault; split <;> rfl

/-- After a fault is raised, FAULTED is 1. -/
theorem raiseFault_faulted (c : FaultCause) (v : Word) (s : State) : (raiseFault c v s).blk.faulted = true := by
  unfold raiseFault; split
  · assumption
  · rfl

/-! ### The chunker and the retire -/

/-- R131: everything CHUNK can do. -/
theorem chunkBlock_cases (b : Block) :
    (chunkBlock b = b ∧ (b.state ≠ .idle ∨ b.run ≤ 1)) ∨
    (b.state = .idle ∧ 2 ≤ b.run ∧
      chunkBlock b = { b with session := BitVec.ofNat 8 b.run, sessionValid := true, state := .armed, seqPc := .arm0 }) := by
  unfold chunkBlock
  by_cases h : b.state = .idle
  · by_cases h' : b.run ≤ 1
    · exact .inl ⟨by simp [h, h'], .inr h'⟩
    · exact .inr ⟨h, by omega, by simp [h, h']⟩
  · exact .inl ⟨by simp [h], .inl h⟩

/-- R143: while a burst is in flight CHUNK does nothing. -/
theorem chunkBlock_busy {b : Block} (h : b.state ≠ .idle) : chunkBlock b = b := by simp [chunkBlock, h]

theorem chunkBlock_frame (b : Block) :
    (chunkBlock b).inited = b.inited ∧ (chunkBlock b).n = b.n ∧ (chunkBlock b).base = b.base ∧
    (chunkBlock b).head = b.head ∧ (chunkBlock b).tail = b.tail ∧ (chunkBlock b).descSrc = b.descSrc ∧
    (chunkBlock b).descDst = b.descDst ∧ (chunkBlock b).descLen = b.descLen ∧ (chunkBlock b).descEn = b.descEn ∧
    (chunkBlock b).result = b.result ∧ (chunkBlock b).wsbPending = b.wsbPending ∧
    (chunkBlock b).faulted = b.faulted ∧ (chunkBlock b).cause = b.cause ∧ (chunkBlock b).finfo = b.finfo := by
  rcases chunkBlock_cases b with ⟨h, -⟩ | ⟨-, -, h⟩ <;> rw [h] <;> simp

/-! ### ENQ's copy -/

/-- R113, R67: with every access admitted, the copy is the sequence of its single-word copies. -/
theorem copyWords_some {p : Platform} {b : Block} {src : Word} {k i : Nat} {m : Memory}
    (h : ∀ j, i ≤ j → j < i + k →
      admits p (halfAddr src j) = true ∧ admits p (b.slotAddr ((b.head.toNat + j) % b.n.toNat)) = true) :
    ∃ ms : Nat → Memory, ms i = m ∧ copyWords p b src k i m = some (ms (i + k)) ∧
      ∀ j, i ≤ j → j < i + k →
        ms (j + 1) = Memory.writeHalf (ms j) (b.slotAddr ((b.head.toNat + j) % b.n.toNat))
          (Memory.readHalf (ms j) (halfAddr src j)) := by
  induction k generalizing i m with
  | zero => exact ⟨fun _ => m, rfl, rfl, fun j h1 h2 => absurd h2 (by omega)⟩
  | succ k ih =>
    obtain ⟨ha, hb⟩ := h i (Nat.le_refl _) (by omega)
    obtain ⟨ms, h0, hc, hs⟩ := ih (i := i + 1)
      (m := Memory.writeHalf m (b.slotAddr ((b.head.toNat + i) % b.n.toNat)) (Memory.readHalf m (halfAddr src i)))
      fun j h1 h2 => h j (by omega) (by omega)
    refine ⟨fun j => if j = i then m else ms j, by simp, ?_, fun j h1 h2 => ?_⟩
    · simp [copyWords, ha, hb, hc, show i + 1 + k = i + (k + 1) by omega]
    · by_cases hj : j = i
      · subst hj
        simp [h0]
      · have hj' : j + 1 ≠ i := by omega
        simpa [hj, hj'] using hs j (by omega) (by omega)

/-- R67: one access that is not admitted leaves the copy with no result. -/
theorem copyWords_none {p : Platform} {b : Block} {src : Word} {k i j : Nat} {m : Memory} (h1 : i ≤ j) (h2 : j < i + k)
    (h : admits p (halfAddr src j) = false ∨ admits p (b.slotAddr ((b.head.toNat + j) % b.n.toNat)) = false) :
    copyWords p b src k i m = none := by
  induction k generalizing i m with
  | zero => exact absurd h2 (by omega)
  | succ k ih =>
    by_cases hij : i = j
    · subst hij
      rcases h with h | h <;> simp [copyWords, h]
    · simp only [copyWords]
      split
      · exact ih (by omega) (by omega)
      · rfl

/-- What a successful copy says of its accesses. -/
theorem copyWords_admitted {p : Platform} {b : Block} {src : Word} {k i : Nat} {m m' : Memory}
    (h : copyWords p b src k i m = some m') {j : Nat} (h1 : i ≤ j) (h2 : j < i + k) :
    admits p (halfAddr src j) = true ∧ admits p (b.slotAddr ((b.head.toNat + j) % b.n.toNat)) = true := by
  by_contra hc
  have : admits p (halfAddr src j) = false ∨ admits p (b.slotAddr ((b.head.toNat + j) % b.n.toNat)) = false := by
    rw [not_and_or] at hc
    simpa using hc
  rw [copyWords_none h1 h2 this] at h
  exact absurd h (by simp)

/-- The copy keeps the memory's canonical form. -/
theorem copyWords_wf {p : Platform} {b : Block} {src : Word} {k i : Nat} {m m' : Memory} (hm : Memory.wf m)
    (h : copyWords p b src k i m = some m') : Memory.wf m' := by
  induction k generalizing i m with
  | zero =>
    simp only [copyWords, Option.some.injEq] at h
    exact h ▸ hm
  | succ k ih =>
    simp only [copyWords] at h
    split at h
    · exact ih (Memory.writeHalf_wf hm _ _) h
    · simp at h

/-- The copy writes only the slots `(HEAD + j) mod N` (R114). -/
theorem copyWords_read_other {p : Platform} {b : Block} {src : Word} {k i : Nat} {m m' : Memory}
    (h : copyWords p b src k i m = some m') {a : Nat}
    (ha : ∀ j, i ≤ j → j < i + k →
      a ≠ (b.slotAddr ((b.head.toNat + j) % b.n.toNat)).toNat ∧
      a ≠ (b.slotAddr ((b.head.toNat + j) % b.n.toNat) + 1).toNat) :
    Memory.read m' a = Memory.read m a := by
  induction k generalizing i m with
  | zero =>
    simp only [copyWords, Option.some.injEq] at h
    rw [h]
  | succ k ih =>
    simp only [copyWords] at h
    split at h
    · obtain ⟨h1, h2⟩ := ha i (Nat.le_refl _) (by omega)
      rw [ih h fun j hj hj' => ha j (by omega) (by omega), Memory.read_writeHalf_other _ _ _ h1 h2]
    · simp at h

/-! ### Shapes shared by the meanings -/

/-- R81, R213: everything a command of the CMD port can do before its own rule. -/
theorem cmdPort_cases (s : State) (o : Host.Outcome State Fault Refusal) :
    (s.blk.faulted = true ∧ cmdPort s o = .next s) ∨
    (s.blk.faulted = false ∧ s.blk.wsbPending = true ∧ cmdPort s o = .fault .writeHeld) ∨
    (s.blk.faulted = false ∧ s.blk.wsbPending = false ∧ cmdPort s o = o) := by
  unfold cmdPort
  cases hf : s.blk.faulted
  · cases hw : s.blk.wsbPending
    · exact .inr (.inr ⟨rfl, rfl, rfl⟩)
    · exact .inr (.inl ⟨rfl, rfl, rfl⟩)
  · exact .inl ⟨rfl, rfl⟩

/-- A command that is neither frozen nor held does what its own rule says. -/
theorem cmdPort_clear {s : State} (hf : s.blk.faulted = false) (hw : s.blk.wsbPending = false)
    (o : Host.Outcome State Fault Refusal) : cmdPort s o = o := by simp [cmdPort, hf, hw]

/-- R213: while FAULTED = 1 a write of CMD has no effect. -/
theorem cmdPort_frozen {s : State} (hf : s.blk.faulted = true) (o : Host.Outcome State Fault Refusal) :
    cmdPort s o = .next s := by simp [cmdPort, hf]

/-- A micro-step with a transition was enabled. -/
theorem microStep_next {p : SeqStep} {s t : State} {o : Host.Outcome State Fault Refusal} (h : microStep p s o = .next t) :
    s.blk.seqPc = p ∧ s.blk.faulted = false ∧ o = .next t := by
  unfold microStep at h
  split at h
  · rename_i hc
    exact ⟨hc.1, hc.2, h⟩
  · exact absurd h (by simp)

/-- An enabled micro-step does what its own rule says. -/
theorem microStep_enabled {p : SeqStep} {s : State} (hp : s.blk.seqPc = p) (hf : s.blk.faulted = false)
    (o : Host.Outcome State Fault Refusal) : microStep p s o = o := by simp [microStep, hp, hf]

/-- A micro-step that is not enabled has no transition. -/
theorem microStep_disabled {p : SeqStep} {s : State} (h : s.blk.seqPc ≠ p ∨ s.blk.faulted = true)
    (o : Host.Outcome State Fault Refusal) : microStep p s o = .fault .notEnabled := by
  rcases h with h | h <;> simp [microStep, h]

/-- R150: everything the entry of the completion handler can do. -/
theorem enterCompletion_cases (s : State) :
    (s.blk.faulted = true ∧ enterCompletion s = s) ∨
    (s.blk.faulted = false ∧ ∃ c, c ≠ .none ∧ (s.blk.inited = false ∨ s.blk.state ≠ .running) ∧
      enterCompletion s = raiseFault c (commandWord 0x4 0) s) ∨
    (s.blk.faulted = false ∧ s.blk.inited = true ∧ s.blk.state = .running ∧
      enterCompletion s = s.setBlk { s.blk with state := .retiring, seqPc := .ret0 }) := by
  unfold enterCompletion
  cases hf : s.blk.faulted
  · cases hi : s.blk.inited
    · exact .inr (.inl ⟨rfl, .notInit, by simp, .inl rfl, by simp⟩)
    · by_cases hs : s.blk.state = .running
      · exact .inr (.inr ⟨rfl, rfl, hs, by simp [hs]⟩)
      · exact .inr (.inl ⟨rfl, .spuriousCompletion, by simp, .inr hs, by simp [hs]⟩)
  · exact .inl ⟨rfl, by simp⟩

end Sys2Proof.Machine
end

