-- ==== Sys2Proof/Laws/Exec.lean ====
section
/-! SUPPORT. What an instruction can do: everything exec answers with a next state, said once as a list of cases, so that a claim
over all instructions is a case analysis of this list and no meaning is unfolded again. -/

namespace Sys2Proof.Machine

/-- The adapter operation that an instruction of the ADAPTER64 rows is (R93). -/
def adapterOpOf (i : Instr) : Option AdapterOp :=
  match i with
  | .periphDisable => some .periphDisable
  | .clearCflag => some .clearCflag
  | .dmaProgram src len => some (.dmaProgram src len)
  | .dmaEnable => some .dmaEnable
  | .periphSetFrames n => some (.periphSetFrames n)
  | .periphEnable => some .periphEnable
  | .pushWord w => some (.pushWord w)
  | .periphStart => some .periphStart
  | .dmaDisable => some .dmaDisable
  | _ => none

/-- Everything that `exec i s = .next t` can be. -/
inductive Effect (s : State) : Instr → State → Prop where
  /-- A write that a fault freezes, a completion that it makes ignored, or an inert write. -/
  | nothing (i : Instr) : Effect s i s
  /-- A register read. -/
  | read (i : Instr) (v : Word) : Effect s i (s.setRdata v)
  /-- A first fault (R212). -/
  | fault (i : Instr) (c : FaultCause) (v : Word) (hc : c ≠ .none) (hf : s.blk.faulted = false) :
      Effect s i (s.setBlk { s.blk with faulted := true, cause := c, finfo := v })
  /-- A first fault of a read, which returns 0 (R81). -/
  | faultRead (i : Instr) (c : FaultCause) (v : Word) (hc : c ≠ .none) (hf : s.blk.faulted = false) :
      Effect s i ((s.setBlk { s.blk with faulted := true, cause := c, finfo := v }).setRdata 0)
  /-- INIT with every check passed (R112). -/
  | init (n : Half) (hf : s.blk.faulted = false) (hw : s.blk.wsbPending = false) (hi : s.blk.inited = false)
      (h1 : 1 ≤ n.toNat) (h2 : n.toNat ≤ 256) (h3 : oddAddr s.blk.arg0 = false) (h4 : oddAddr s.blk.arg1 = false)
      (h5 : rangeOverflows s.blk.arg0 n.toNat = false) :
      Effect s (.init n) (s.setBlk { s.blk with
        n := n.setWidth 9, base := s.blk.arg0, descDst := s.blk.arg1, head := 0, tail := 0,
        state := .idle, sessionValid := false, seqPc := .none, inited := true })
  /-- ENQ, dropped (R113). -/
  | enqDropped (len : Half) (hf : s.blk.faulted = false) (hw : s.blk.wsbPending = false) (hi : s.blk.inited = true)
      (ha : s.blk.avail < len.toNat) : Effect s (.enq len) (s.setBlk { s.blk with result := true })
  /-- ENQ, queued (R113). -/
  | enqQueued (len : Half) (m : Memory) (hf : s.blk.faulted = false) (hw : s.blk.wsbPending = false)
      (hi : s.blk.inited = true) (ho : 0 < len.toNat → oddAddr s.blk.arg0 = false)
      (hr : 0 < len.toNat → rangeOverflows s.blk.arg0 len.toNat = false) (ha : len.toNat ≤ s.blk.avail)
      (hm : copyWords s.platform s.blk s.blk.arg0 len.toNat 0 s.mem = some m) :
      Effect s (.enq len) ((s.setMem m).setBlk (chunkBlock { s.blk with
        head := BitVec.ofNat 8 ((s.blk.head.toNat + len.toNat) % s.blk.n.toNat), result := false }))
  /-- WSB with every check passed (R184). -/
  | wsb (w : Half) (hf : s.blk.faulted = false) (hw : s.blk.wsbPending = false) (hi : s.blk.inited = true)
      (hs : s.blk.state = .idle) :
      Effect s (.wsb w) ((emit (.pushWord w) s).setBlk { s.blk with wsbPending := true })
  /-- COMPLETE of a running burst (R150). -/
  | complete (hf : s.blk.faulted = false) (hi : s.blk.inited = true) (hs : s.blk.state = .running) :
      Effect s .complete (s.setBlk { s.blk with state := .retiring, seqPc := .ret0 })
  | wrArg0 (v : Word) (hf : s.blk.faulted = false) : Effect s (.wrArg0 v) (s.setBlk { s.blk with arg0 := v })
  | wrArg1 (v : Word) (hf : s.blk.faulted = false) : Effect s (.wrArg1 v) (s.setBlk { s.blk with arg1 := v })
  | chunk : Effect s .chunk (s.setBlk (chunkBlock s.blk))
  | arm0 (hp : s.blk.seqPc = .arm0) (hf : s.blk.faulted = false) :
      Effect s .arm0 ((emit .periphDisable s).setBlk { s.blk with seqPc := .arm1 })
  | arm1 (hp : s.blk.seqPc = .arm1) (hf : s.blk.faulted = false) :
      Effect s .arm1 ((emit .clearCflag s).setBlk { s.blk with seqPc := .arm2 })
  | arm2 (hp : s.blk.seqPc = .arm2) (hf : s.blk.faulted = false) :
      Effect s .arm2 ((emit (.dmaProgram (s.blk.slotAddr (s.blk.tail.toNat + 1)) (BitVec.ofNat 8 (s.blk.session.toNat - 1)))
        s).setBlk { s.blk with
          seqPc := .arm3, descSrc := s.blk.slotAddr (s.blk.tail.toNat + 1),
          descLen := BitVec.ofNat 8 (s.blk.session.toNat - 1), descMinc := true, descPinc := false, descWsize := 0b01 })
  | arm3 (hp : s.blk.seqPc = .arm3) (hf : s.blk.faulted = false) :
      Effect s .arm3 ((emit .dmaEnable s).setBlk { s.blk with seqPc := .arm4, descEn := true })
  | arm4 (hp : s.blk.seqPc = .arm4) (hf : s.blk.faulted = false) :
      Effect s .arm4 ((emit (.periphSetFrames s.blk.session) s).setBlk { s.blk with seqPc := .arm5 })
  | arm5 (hp : s.blk.seqPc = .arm5) (hf : s.blk.faulted = false) :
      Effect s .arm5 ((emit .periphEnable s).setBlk { s.blk with seqPc := .arm6 })
  | arm6 (hp : s.blk.seqPc = .arm6) (hf : s.blk.faulted = false)
      (ha : admits s.platform (s.blk.slotAddr s.blk.tail.toNat) = true) :
      Effect s .arm6 ((emit (.pushWord (Memory.readHalf s.mem (s.blk.slotAddr s.blk.tail.toNat))) s).setBlk
        { s.blk with seqPc := .arm7 })
  | arm7 (hp : s.blk.seqPc = .arm7) (hf : s.blk.faulted = false) :
      Effect s .arm7 ((emit .periphStart s).setBlk { s.blk with state := .running, seqPc := .none })
  | ret0 (hp : s.blk.seqPc = .ret0) (hf : s.blk.faulted = false) :
      Effect s .ret0 ((emit .clearCflag s).setBlk { s.blk with seqPc := .ret1 })
  | ret1 (hp : s.blk.seqPc = .ret1) (hf : s.blk.faulted = false) :
      Effect s .ret1 ((emit .dmaDisable s).setBlk { s.blk with seqPc := .ret2, descEn := false })
  | ret2 (hp : s.blk.seqPc = .ret2) (hf : s.blk.faulted = false) :
      Effect s .ret2 (s.setBlk (chunkBlock (retireBlock s.blk)))
  /-- An adapter operation alone (R170). -/
  | adapter (i : Instr) (op : AdapterOp) (ho : adapterOpOf i = some op) : Effect s i (emit op s)
  | envDmaXfer (he : s.ext.xferEnabled = true) (ha : admits s.platform (xferAddr s.ext) = true) :
      Effect s .envDmaXfer
        (s.setExt { s.ext.push (Memory.readHalf s.mem (xferAddr s.ext)) with dRemain := s.ext.dRemain - 1 })
  | envDmaTc (he : s.ext.tcEnabled = true) :
      Effect s .envDmaTc (s.setExt { s.ext with cflag := true, irqPend := true, tcArmed := false })
  | envShift (w : Half) (rest : List Half) (hq : s.ext.txq = w :: rest) :
      Effect s .envShift
        (s.setExt { s.ext with txq := rest, wire := s.ext.wire ++ [w], txc := s.ext.txc || rest.isEmpty })
  /-- A dispatch that is ignored (R213). -/
  | dispatchFrozen (hq : s.ext.irqPend = true) (hf : s.blk.faulted = true) :
      Effect s .envDispatch (s.setExt { s.ext with irqPend := false })
  /-- A dispatch whose COMPLETE faults (R150, R189). -/
  | dispatchFault (c : FaultCause) (v : Word) (hc : c ≠ .none) (hq : s.ext.irqPend = true) (hf : s.blk.faulted = false)
      (hs : s.blk.inited = false ∨ s.blk.state ≠ .running) :
      Effect s .envDispatch ((s.setExt { s.ext with irqPend := false }).setBlk
        { s.blk with faulted := true, cause := c, finfo := v })
  /-- A dispatch that completes the running burst (R150, R189). -/
  | dispatch (hq : s.ext.irqPend = true) (hf : s.blk.faulted = false) (hi : s.blk.inited = true)
      (hs : s.blk.state = .running) :
      Effect s .envDispatch ((s.setExt { s.ext with irqPend := false }).setBlk
        { s.blk with state := .retiring, seqPc := .ret0 })
  | wsbDone (hw : s.blk.wsbPending = true) (hc : s.ext.txc = true) :
      Effect s .wsbDone (s.setBlk { s.blk with wsbPending := false })

/-- Raising a fault has one of two effects. -/
theorem Effect.ofRaise {s : State} (i : Instr) {c : FaultCause} (hc : c ≠ .none) (v : Word) :
    Effect s i (raiseFault c v s) := by
  cases hf : s.blk.faulted
  · rw [raiseFault_of_clear hf]
    exact .fault i c v hc hf
  · rw [raiseFault_of_faulted hf]
    exact .nothing i

theorem effect_init {n : Half} {s t : State} (h : exec (.init n) s = .next t) : Effect s (.init n) t := by
  simp only [exec, execInit] at h
  rcases cmdPort_cases s _ with ⟨-, e⟩ | ⟨-, -, e⟩ | ⟨hf, hw, e⟩ <;> rw [e] at h <;> clear e
  · cases h; exact .nothing _
  · exact absurd h (by simp)
  split at h
  · cases h; exact .ofRaise _ (by simp) _
  rename_i hi
  split at h
  · cases h; exact .ofRaise _ (by simp) _
  rename_i hn
  split at h
  · cases h; exact .ofRaise _ (by simp) _
  rename_i ho
  split at h
  · cases h; exact .ofRaise _ (by simp) _
  rename_i hr
  cases h
  rw [Bool.or_eq_true, not_or, Bool.not_eq_true, Bool.not_eq_true] at ho
  exact .init n hf hw (by simpa using hi) (by omega) (by omega) ho.1 ho.2 (by simpa using hr)

theorem effect_enq {len : Half} {s t : State} (h : exec (.enq len) s = .next t) : Effect s (.enq len) t := by
  simp only [exec, execEnq] at h
  rcases cmdPort_cases s _ with ⟨-, e⟩ | ⟨-, -, e⟩ | ⟨hf, hw, e⟩ <;> rw [e] at h <;> clear e
  · cases h; exact .nothing _
  · exact absurd h (by simp)
  split at h
  · cases h; exact .ofRaise _ (by simp) _
  rename_i hi
  split at h
  · cases h; exact .ofRaise _ (by simp) _
  rename_i ho
  split at h
  · cases h; exact .ofRaise _ (by simp) _
  rename_i hr
  split at h
  · rename_i ha
    cases h
    exact .enqDropped len hf hw (by simpa using hi) ha
  rename_i ha
  split at h
  · exact absurd h (by simp)
  rename_i m hm
  cases h
  exact .enqQueued len m hf hw (by simpa using hi) (fun h0 => by simpa [h0] using ho) (fun h0 => by simpa [h0] using hr)
    (by omega) hm

theorem effect_wsb {w : Half} {s t : State} (h : exec (.wsb w) s = .next t) : Effect s (.wsb w) t := by
  simp only [exec, execWsb] at h
  rcases cmdPort_cases s _ with ⟨-, e⟩ | ⟨-, -, e⟩ | ⟨hf, hw, e⟩ <;> rw [e] at h <;> clear e
  · cases h; exact .nothing _
  · exact absurd h (by simp)
  split at h
  · cases h; exact .ofRaise _ (by simp) _
  rename_i hi
  split at h
  · cases h; exact .ofRaise _ (by simp) _
  rename_i hs
  cases h
  exact .wsb w hf hw (by simpa using hi) (by simpa using hs)

theorem effect_complete {s t : State} (h : exec .complete s = .next t) : Effect s .complete t := by
  simp only [exec, execComplete] at h
  cases h
  rcases enterCompletion_cases s with ⟨-, e⟩ | ⟨-, c, hc, -, e⟩ | ⟨hf, hi, hs, e⟩ <;> rw [e]
  · exact .nothing _
  · exact .ofRaise _ hc _
  · exact .complete hf hi hs

theorem effect_illegal {p : Port} {w : Word} {s t : State} (h : exec (.illegal p w) s = .next t) :
    Effect s (.illegal p w) t := by
  cases p
  · simp only [exec, execIllegal] at h
    rcases cmdPort_cases s _ with ⟨-, e⟩ | ⟨-, -, e⟩ | ⟨-, -, e⟩ <;> rw [e] at h
    · cases h; exact .nothing _
    · exact absurd h (by simp)
    · cases h; exact .ofRaise _ (by simp) _
  · cases h; exact .ofRaise _ (by simp) _

theorem effect_badRegAccess {off : BitVec 6} {size : Nat} {dir : Dir} {s t : State}
    (h : exec (.badRegAccess off size dir) s = .next t) : Effect s (.badRegAccess off size dir) t := by
  cases dir
  · cases h
    cases hf : s.blk.faulted
    · rw [raiseFault_of_clear hf]
      exact .faultRead _ _ _ (by simp) hf
    · rw [raiseFault_of_faulted hf]
      exact .read _ 0
  · cases h; exact .ofRaise _ (by simp) _

theorem effect_wrArg0 {v : Word} {s t : State} (h : exec (.wrArg0 v) s = .next t) : Effect s (.wrArg0 v) t := by
  simp only [exec, execWrArg0, writeReg] at h
  split at h <;> cases h
  · exact .nothing _
  · rename_i hf; exact .wrArg0 v (by simpa using hf)

theorem effect_wrArg1 {v : Word} {s t : State} (h : exec (.wrArg1 v) s = .next t) : Effect s (.wrArg1 v) t := by
  simp only [exec, execWrArg1, writeReg] at h
  split at h <;> cases h
  · exact .nothing _
  · rename_i hf; exact .wrArg1 v (by simpa using hf)

theorem effect_arm6 {s t : State} (h : exec .arm6 s = .next t) : Effect s .arm6 t := by
  obtain ⟨hp, hf, h⟩ := microStep_next h
  split at h
  · rename_i ha; cases h; exact .arm6 hp hf ha
  · exact absurd h (by simp)

theorem effect_envDmaXfer {s t : State} (h : exec .envDmaXfer s = .next t) : Effect s .envDmaXfer t := by
  simp only [exec, execEnvDmaXfer] at h
  split at h
  · exact absurd h (by simp)
  rename_i he
  split at h
  · exact absurd h (by simp)
  rename_i ha
  cases h
  exact .envDmaXfer (by simpa using he) (by simpa using ha)

theorem effect_envDispatch {s t : State} (h : exec .envDispatch s = .next t) : Effect s .envDispatch t := by
  simp only [exec, execEnvDispatch] at h
  split at h
  · rename_i hq
    cases h
    rcases enterCompletion_cases (s.setExt { s.ext with irqPend := false }) with
      ⟨hf, e⟩ | ⟨hf, c, hc, hs, e⟩ | ⟨hf, hi, hs, e⟩ <;> rw [e]
    · exact .dispatchFrozen hq hf
    · rw [raiseFault_of_clear hf]
      exact .dispatchFault c _ hc hq hf hs
    · exact .dispatch hq hf hi hs
  · exact absurd h (by simp)

/-- Everything exec can answer with a next state. -/
theorem exec_effect {i : Instr} {s t : State} (h : exec i s = .next t) : Effect s i t := by
  cases i with
  | init n => exact effect_init h
  | enq len => exact effect_enq h
  | wsb w => exact effect_wsb h
  | complete => exact effect_complete h
  | illegal p w => exact effect_illegal h
  | wrArg0 v => exact effect_wrArg0 h
  | wrArg1 v => exact effect_wrArg1 h
  | rdArg0 => cases h; exact .read _ _
  | rdArg1 => cases h; exact .read _ _
  | rdStatus => cases h; exact .read _ _
  | rdIndex => cases h; exact .read _ _
  | rdLevel => cases h; exact .read _ _
  | rdSession => cases h; exact .read _ _
  | rdBase => cases h; exact .read _ _
  | rdDsrc => cases h; exact .read _ _
  | rdDdst => cases h; exact .read _ _
  | rdDctl => cases h; exact .read _ _
  | rdFinfo => cases h; exact .read _ _
  | inert off dir =>
    cases dir
    · cases h; exact .read _ _
    · cases h; exact .nothing _
  | badRegAccess off size dir => exact effect_badRegAccess h
  | chunk => cases h; exact .chunk
  | arm0 => obtain ⟨hp, hf, h⟩ := microStep_next h; cases h; exact .arm0 hp hf
  | arm1 => obtain ⟨hp, hf, h⟩ := microStep_next h; cases h; exact .arm1 hp hf
  | arm2 => obtain ⟨hp, hf, h⟩ := microStep_next h; cases h; exact .arm2 hp hf
  | arm3 => obtain ⟨hp, hf, h⟩ := microStep_next h; cases h; exact .arm3 hp hf
  | arm4 => obtain ⟨hp, hf, h⟩ := microStep_next h; cases h; exact .arm4 hp hf
  | arm5 => obtain ⟨hp, hf, h⟩ := microStep_next h; cases h; exact .arm5 hp hf
  | arm6 => exact effect_arm6 h
  | arm7 => obtain ⟨hp, hf, h⟩ := microStep_next h; cases h; exact .arm7 hp hf
  | ret0 => obtain ⟨hp, hf, h⟩ := microStep_next h; cases h; exact .ret0 hp hf
  | ret1 => obtain ⟨hp, hf, h⟩ := microStep_next h; cases h; exact .ret1 hp hf
  | ret2 => obtain ⟨hp, hf, h⟩ := microStep_next h; cases h; exact .ret2 hp hf
  | periphDisable => cases h; exact .adapter _ _ rfl
  | clearCflag => cases h; exact .adapter _ _ rfl
  | dmaProgram src len => cases h; exact .adapter _ _ rfl
  | dmaEnable => cases h; exact .adapter _ _ rfl
  | periphSetFrames n => cases h; exact .adapter _ _ rfl
  | periphEnable => cases h; exact .adapter _ _ rfl
  | pushWord w => cases h; exact .adapter _ _ rfl
  | periphStart => cases h; exact .adapter _ _ rfl
  | dmaDisable => cases h; exact .adapter _ _ rfl
  | envDmaXfer => exact effect_envDmaXfer h
  | envDmaTc =>
    simp only [exec, execEnvDmaTc] at h
    split at h
    · rename_i he; cases h; exact .envDmaTc he
    · exact absurd h (by simp)
  | envShift =>
    simp only [exec, execEnvShift] at h
    split at h
    · exact absurd h (by simp)
    · rename_i w rest hq; cases h; exact .envShift w rest hq
  | envDispatch => exact effect_envDispatch h
  | wsbDone =>
    simp only [exec, execWsbDone] at h
    split at h
    · rename_i hc
      cases h
      rw [Bool.and_eq_true] at hc
      exact .wsbDone hc.1 hc.2
    · exact absurd h (by simp)

/-- No instruction touches the platform's parameters or the model's own waiting and scheduling fields. -/
theorem exec_frame {i : Instr} {s t : State} (h : exec i s = .next t) :
    t.platform = s.platform ∧ t.wsbAgent = s.wsbAgent ∧ t.stuck = s.stuck ∧ t.sched = s.sched := by
  cases exec_effect h <;> exact ⟨rfl, rfl, rfl, rfl⟩

end Sys2Proof.Machine
end

