-- ==== Sys2Proof/Laws/PerInstr.lean ====
section
/-! SUPPORT. The laws that hold of every instruction as a term, one lemma a constructor: decoding the encoding of a well-formed
instruction gives the instruction back. -/

namespace Sys2Proof.Laws

/-! ### The fields of the words the encoder writes -/

/-- A bit of a command word, by the field it lies in. -/
theorem getLsbD_commandWord (opc : BitVec 4) (imm : Half) (k : Nat) :
    (commandWord opc imm).getLsbD k =
      if k < 4 then opc.getLsbD k else if k - 4 < 12 then false else imm.getLsbD (k - 4 - 12) := by
  rw [commandWord, BitVec.getLsbD_append, BitVec.getLsbD_append]
  simp

/-- A bit of an adapter word, by the field it lies in. -/
theorem getLsbD_adapterWord (a : Word) (h : Half) (b aop : BitVec 8) (k : Nat) :
    (adapterWord a h b aop).getLsbD k =
      if k < 8 then aop.getLsbD k else if k - 8 < 8 then b.getLsbD (k - 8)
      else if k - 8 - 8 < 16 then h.getLsbD (k - 8 - 8) else a.getLsbD (k - 8 - 8 - 16) := by
  rw [adapterWord, BitVec.getLsbD_append, BitVec.getLsbD_append, BitVec.getLsbD_append]

theorem opcOf_commandWord (opc : BitVec 4) (imm : Half) : opcOf (commandWord opc imm) = opc := by
  apply BitVec.eq_of_getLsbD_eq
  intro i hi
  rw [opcOf, BitVec.getLsbD_extractLsb', getLsbD_commandWord]
  simp [hi]

theorem rsvOf_commandWord (opc : BitVec 4) (imm : Half) : rsvOf (commandWord opc imm) = 0 := by
  apply BitVec.eq_of_getLsbD_eq
  intro i hi
  rw [rsvOf, BitVec.getLsbD_extractLsb', getLsbD_commandWord]
  simp [hi]

theorem immOf_commandWord (opc : BitVec 4) (imm : Half) : immOf (commandWord opc imm) = imm := by
  apply BitVec.eq_of_getLsbD_eq
  intro i hi
  rw [immOf, BitVec.getLsbD_extractLsb', getLsbD_commandWord]
  simp [hi, show ¬ 16 + i < 4 by omega, show ¬ 16 + i - 4 < 12 by omega, show 16 + i - 4 - 12 = i by omega]

theorem aopOf_adapterWord (a : Word) (h : Half) (b aop : BitVec 8) : aopOf (adapterWord a h b aop) = aop := by
  apply BitVec.eq_of_getLsbD_eq
  intro i hi
  rw [aopOf, BitVec.getLsbD_extractLsb', getLsbD_adapterWord]
  simp [hi]

theorem b8Of_adapterWord (a : Word) (h : Half) (b aop : BitVec 8) : b8Of (adapterWord a h b aop) = b := by
  apply BitVec.eq_of_getLsbD_eq
  intro i hi
  rw [b8Of, BitVec.getLsbD_extractLsb', getLsbD_adapterWord]
  simp [hi]

theorem h16Of_adapterWord (a : Word) (h : Half) (b aop : BitVec 8) : h16Of (adapterWord a h b aop) = h := by
  apply BitVec.eq_of_getLsbD_eq
  intro i hi
  rw [h16Of, BitVec.getLsbD_extractLsb', getLsbD_adapterWord]
  simp [hi, show ¬ 16 + i < 8 by omega, show ¬ 16 + i - 8 < 8 by omega, show 16 + i - 8 - 8 = i by omega]

theorem a32Of_adapterWord (a : Word) (h : Half) (b aop : BitVec 8) : a32Of (adapterWord a h b aop) = a := by
  apply BitVec.eq_of_getLsbD_eq
  intro i hi
  rw [a32Of, BitVec.getLsbD_extractLsb', getLsbD_adapterWord]
  simp [hi, show ¬ 32 + i < 8 by omega, show ¬ 32 + i - 8 < 8 by omega, show ¬ 32 + i - 8 - 8 < 16 by omega,
    show 32 + i - 8 - 8 - 16 = i by omega]

/-- R90: a word that is illegal on a port decodes to nothing but the illegal command. -/
theorem decodeCommand_illegal {port : Port} {w : Word} (h : illegalWord port w = true) :
    decodeCommand port w = .illegal port w := by
  by_cases hr : rsvOf w = 0
  · have hr' : w.extractLsb' 4 12 = 0 := hr
    cases port
    · obtain ⟨h1, h2, h3⟩ : opcOf w ≠ 1 ∧ opcOf w ≠ 2 ∧ opcOf w ≠ 3 := by
        refine ⟨?_, ?_, ?_⟩ <;> intro ho <;> have ho' := ho <;> unfold opcOf at ho' <;>
          simp [illegalWord, reservedOpc, wrongPort, hr', ho'] at h
      simp only [decodeCommand, hr, h1, h2, h3, ne_eq, not_true_eq_false, if_false]
    · have h' : ¬ (opcOf w = 4 ∧ immOf w = 0) := by
        rintro ⟨ho, hi⟩
        unfold opcOf at ho
        unfold immOf at hi
        simp [illegalWord, reservedOpc, wrongPort, hr', ho, hi] at h
      simp only [decodeCommand, hr, ne_eq, not_true_eq_false, if_false, h']
  · simp only [decodeCommand, hr, ne_eq, not_false_eq_true, if_true]

/-- A register-window access is decoded by its offset when it is 32 bits wide and aligned. -/
theorem decodeAccess_aligned {off : BitVec 6} (h : off.toNat % 4 = 0) (dir : Dir) :
    decodeAccess off 32 dir = match dir with
      | .read => decodeRead off
      | .write v => decodeWrite off v := by
  cases dir <;> simp [decodeAccess, h]

/-! ### The round trip -/

/-- Decoding what the encoder writes for a well-formed instruction gives the instruction back. -/
def RoundTrip.Statement (i : Instr) : Prop := WellFormed i = true → decode (encode i) = .ok i

namespace RoundTrip

theorem init (n : Half) : RoundTrip.Statement (.init n) := fun _ => by
  simp [encode, decode, decodeAccess, decodeWrite, decodeCommand, opcOf_commandWord, rsvOf_commandWord, immOf_commandWord]

theorem enq (len : Half) : RoundTrip.Statement (.enq len) := fun _ => by
  simp [encode, decode, decodeAccess, decodeWrite, decodeCommand, opcOf_commandWord, rsvOf_commandWord, immOf_commandWord]

theorem wsb (w : Half) : RoundTrip.Statement (.wsb w) := fun _ => by
  simp [encode, decode, decodeAccess, decodeWrite, decodeCommand, opcOf_commandWord, rsvOf_commandWord, immOf_commandWord]

theorem complete : RoundTrip.Statement .complete := fun _ => by
  simp [encode, decode, decodeAccess, decodeWrite, decodeCommand, opcOf_commandWord, rsvOf_commandWord, immOf_commandWord]

theorem illegal (port : Port) (w : Word) : RoundTrip.Statement (.illegal port w) := fun h => by
  cases port <;> simp [encode, decode, decodeAccess, decodeWrite, decodeCommand_illegal h]

theorem wrArg0 (v : Word) : RoundTrip.Statement (.wrArg0 v) := fun _ => by simp [encode, decode, decodeAccess, decodeWrite]

theorem rdArg0 : RoundTrip.Statement .rdArg0 := fun _ => by decide

theorem wrArg1 (v : Word) : RoundTrip.Statement (.wrArg1 v) := fun _ => by simp [encode, decode, decodeAccess, decodeWrite]

theorem rdArg1 : RoundTrip.Statement .rdArg1 := fun _ => by decide

theorem rdStatus : RoundTrip.Statement .rdStatus := fun _ => by decide

theorem rdIndex : RoundTrip.Statement .rdIndex := fun _ => by decide

theorem rdLevel : RoundTrip.Statement .rdLevel := fun _ => by decide

theorem rdSession : RoundTrip.Statement .rdSession := fun _ => by decide

theorem rdBase : RoundTrip.Statement .rdBase := fun _ => by decide

theorem rdDsrc : RoundTrip.Statement .rdDsrc := fun _ => by decide

theorem rdDdst : RoundTrip.Statement .rdDdst := fun _ => by decide

theorem rdDctl : RoundTrip.Statement .rdDctl := fun _ => by decide

theorem rdFinfo : RoundTrip.Statement .rdFinfo := fun _ => by decide

theorem inert (off : BitVec 6) (dir : Dir) : RoundTrip.Statement (.inert off dir) := fun h => by
  cases dir with
  | read =>
    have h' : off = 0x00 ∨ off = 0x04 ∨ off = 0x34 ∨ off = 0x38 ∨ off = 0x3C := by
      simpa [WellFormed, inertAccess, or_assoc] using h
    rcases h' with rfl | rfl | rfl | rfl | rfl <;> rfl
  | write v =>
    have h' : off.toNat % 4 = 0 ∧ 0x10 ≤ off.toNat := by simpa [WellFormed, inertAccess] using h
    have hne : ∀ x : BitVec 6, x.toNat < 0x10 → off ≠ x := fun x hx hc => by
      rw [hc] at h'
      omega
    simp [encode, decode, decodeAccess_aligned h'.1, decodeWrite, hne]

theorem badRegAccess (off : BitVec 6) (size : Nat) (dir : Dir) : RoundTrip.Statement (.badRegAccess off size dir) := fun h => by
  have h' : size ≠ 32 ∨ off.toNat % 4 ≠ 0 := by simpa [WellFormed, badAccess] using h
  simp only [encode, decode, decodeAccess, h', if_true]

theorem chunk : RoundTrip.Statement .chunk := fun _ => by decide

theorem arm0 : RoundTrip.Statement .arm0 := fun _ => by decide

theorem arm1 : RoundTrip.Statement .arm1 := fun _ => by decide

theorem arm2 : RoundTrip.Statement .arm2 := fun _ => by decide

theorem arm3 : RoundTrip.Statement .arm3 := fun _ => by decide

theorem arm4 : RoundTrip.Statement .arm4 := fun _ => by decide

theorem arm5 : RoundTrip.Statement .arm5 := fun _ => by decide

theorem arm6 : RoundTrip.Statement .arm6 := fun _ => by decide

theorem arm7 : RoundTrip.Statement .arm7 := fun _ => by decide

theorem ret0 : RoundTrip.Statement .ret0 := fun _ => by decide

theorem ret1 : RoundTrip.Statement .ret1 := fun _ => by decide

theorem ret2 : RoundTrip.Statement .ret2 := fun _ => by decide

theorem periphDisable : RoundTrip.Statement .periphDisable := fun _ => by decide

theorem clearCflag : RoundTrip.Statement .clearCflag := fun _ => by decide

theorem dmaProgram (src : Word) (len : BitVec 8) : RoundTrip.Statement (.dmaProgram src len) := fun _ => by
  simp [encode, decode, decodeAdapter, aopOf_adapterWord, b8Of_adapterWord, h16Of_adapterWord, a32Of_adapterWord]

theorem dmaEnable : RoundTrip.Statement .dmaEnable := fun _ => by decide

theorem periphSetFrames (n : BitVec 8) : RoundTrip.Statement (.periphSetFrames n) := fun _ => by
  simp [encode, decode, decodeAdapter, aopOf_adapterWord, b8Of_adapterWord, h16Of_adapterWord, a32Of_adapterWord]

theorem periphEnable : RoundTrip.Statement .periphEnable := fun _ => by decide

theorem pushWord (w : Half) : RoundTrip.Statement (.pushWord w) := fun _ => by
  simp [encode, decode, decodeAdapter, aopOf_adapterWord, b8Of_adapterWord, h16Of_adapterWord, a32Of_adapterWord]

theorem periphStart : RoundTrip.Statement .periphStart := fun _ => by decide

theorem dmaDisable : RoundTrip.Statement .dmaDisable := fun _ => by decide

theorem envDmaXfer : RoundTrip.Statement .envDmaXfer := fun _ => by decide

theorem envDmaTc : RoundTrip.Statement .envDmaTc := fun _ => by decide

theorem envShift : RoundTrip.Statement .envShift := fun _ => by decide

theorem envDispatch : RoundTrip.Statement .envDispatch := fun _ => by decide

theorem wsbDone : RoundTrip.Statement .wsbDone := fun _ => by decide

end RoundTrip

end Sys2Proof.Laws
end

