-- ==== Sys2Proof/Laws/Step.lean ====
section
/-! SUPPORT. What a step can do: which event it takes, and what one event does. -/

namespace Sys2Proof.Machine

/-- An event that does not wait is not held, and its agent has a step and no earlier event that waits. -/
theorem waits_eq_false {s : State} {blocked : List Agent} {e : Event} :
    waits s blocked e = false ↔
      heldEvent s e = false ∧ ∀ a, e.agent = some a → a ∉ blocked ∧ agentWaits s a = false := by
  cases h : e.agent <;> simp [waits, h]

/-- With no agent blocked, an event waits when it is held or its agent has no step. -/
theorem waits_nil {s : State} {e : Event} :
    waits s [] e = true ↔ heldEvent s e = true ∨ ∃ a, e.agent = some a ∧ agentWaits s a = true := by
  cases h : e.agent <;> simp [waits, h]

/-- An event of no bus agent never waits. -/
theorem waits_of_no_agent {s : State} {blocked : List Agent} {e : Event} (h : e.agent = none) :
    waits s blocked e = false := by
  rw [waits_eq_false]
  cases e <;> simp_all [heldEvent, Event.agent]

/-- The event taken from a schedule does not wait, no earlier event is its agent's, and each earlier one waits, for its own
agent's step or behind another event. -/
theorem takeFirst_some {s : State} {blocked : List Agent} {l rest : List Event} {e : Event}
    (h : takeFirst s blocked l = some (e, rest)) :
    waits s blocked e = false ∧ ∃ pre post, l = pre ++ e :: post ∧ rest = pre ++ post ∧
      ∀ x ∈ pre, (∃ b, waits s b x = true) ∧ ∀ a, x.agent = some a → e.agent ≠ some a := by
  induction l generalizing rest blocked with
  | nil => simp [takeFirst] at h
  | cons d l ih =>
    unfold takeFirst at h
    split at h
    · rename_i hd
      rw [Option.map_eq_some_iff] at h
      obtain ⟨⟨e', r⟩, hr, h⟩ := h
      simp only [Prod.mk.injEq] at h
      obtain ⟨rfl, rfl⟩ := h
      obtain ⟨he, pre, post, rfl, rfl, hp⟩ := ih hr
      rw [waits_eq_false] at he
      refine ⟨waits_eq_false.mpr ⟨he.1, fun a ha => ?_⟩, d :: pre, post, rfl, rfl, ?_⟩
      · obtain ⟨h1, h2⟩ := he.2 a ha
        exact ⟨fun hb => h1 (List.mem_append_right _ hb), h2⟩
      · intro x hx
        rcases List.mem_cons.mp hx with rfl | hx
        · refine ⟨⟨blocked, hd⟩, fun a ha h' => (he.2 a h').1 (by simp [ha])⟩
        · exact hp x hx
    · rename_i hd
      simp only [Option.some.injEq, Prod.mk.injEq] at h
      obtain ⟨rfl, rfl⟩ := h
      exact ⟨by simpa using hd, [], l, rfl, rfl, by simp⟩

/-- With no event to take, every event of the schedule waits. -/
theorem takeFirst_none {s : State} {blocked : List Agent} {l : List Event} (h : takeFirst s blocked l = none) :
    ∀ x ∈ l, ∃ b, waits s b x = true := by
  induction l generalizing blocked with
  | nil => simp
  | cons d l ih =>
    unfold takeFirst at h
    split at h
    · rename_i hd
      intro x hx
      rcases List.mem_cons.mp hx with rfl | hx
      · exact ⟨blocked, hd⟩
      · exact ih (by simpa using h) x hx
    · exact absurd h (by simp)

/-- Everything that a step can take: an event of the schedule that does not wait, and that no event before it in the schedule
shares its agent with; or, when nothing can be taken, SEQ's turn. -/
theorem takeEvent_cases (s : State) :
    (∃ pre post, s.sched = pre ++ (takeEvent s).1 :: post ∧ (takeEvent s).2 = pre ++ post ∧
      waits s [] (takeEvent s).1 = false ∧ ∀ x ∈ pre, ∀ a, x.agent = some a → (takeEvent s).1.agent ≠ some a) ∨
    (takeEvent s = (.seq, s.sched) ∧ ∀ x ∈ s.sched, ∃ b, waits s b x = true) := by
  cases h : takeFirst s [] s.sched with
  | none => exact .inr ⟨by simp [takeEvent, h], takeFirst_none h⟩
  | some p =>
    obtain ⟨he, pre, post, h1, h2, h3⟩ := takeFirst_some (e := p.1) (rest := p.2) h
    have : takeEvent s = p := by simp [takeEvent, h]
    rw [this]
    exact .inl ⟨pre, post, h1, h2, he, fun x hx => (h3 x hx).2⟩

/-- The event taken does not wait. -/
theorem takeEvent_ready (s : State) : waits s [] (takeEvent s).1 = false := by
  rcases takeEvent_cases s with ⟨-, -, -, -, h, -⟩ | ⟨h, -⟩
  · exact h
  · rw [h]; exact waits_of_no_agent rfl

/-- An event that does not wait and stands first is the one taken. -/
theorem takeEvent_cons {s : State} {e : Event} {rest : List Event} (hs : s.sched = e :: rest) (he : waits s [] e = false) :
    takeEvent s = (e, rest) := by
  simp [takeEvent, hs, takeFirst, he]

theorem step_cons {s : State} {e : Event} {rest : List Event} (hs : s.sched = e :: rest) (he : waits s [] e = false) :
    step s = turn e (s.setSched rest) := by
  simp [step, takeEvent_cons hs he]

/-- With nothing in the schedule it is SEQ's turn. -/
theorem step_empty {s : State} (hs : s.sched = []) : step s = turn .seq s := by
  have : s.setSched [] = s := by cases s; cases hs; rfl
  simp [step, takeEvent, hs, takeFirst, this]

/-- Noting the agent of a WSB changes wsbAgent alone. -/
theorem noteWsb_cases (who : Option Agent) (s t : State) :
    noteWsb who s t = t ∨ ∃ a, who = some a ∧ t.blk.wsbPending = true ∧ s.blk.wsbPending = false ∧
      noteWsb who s t = t.setWsbAgent a := by
  cases who with
  | none => exact .inl rfl
  | some a =>
    unfold noteWsb
    simp only
    split
    · rename_i h
      rw [Bool.and_eq_true, Bool.not_eq_true'] at h
      exact .inr ⟨a, rfl, h.1, h.2, rfl⟩
    · exact .inl rfl

@[simp] theorem noteWsb_none (s t : State) : noteWsb none s t = t := rfl
@[simp] theorem noteWsb_blk (w : Option Agent) (s t : State) : (noteWsb w s t).blk = t.blk := by
  rcases noteWsb_cases w s t with h | ⟨a, -, -, -, h⟩ <;> rw [h]; rfl
@[simp] theorem noteWsb_ext (w : Option Agent) (s t : State) : (noteWsb w s t).ext = t.ext := by
  rcases noteWsb_cases w s t with h | ⟨a, -, -, -, h⟩ <;> rw [h]; rfl
@[simp] theorem noteWsb_mem (w : Option Agent) (s t : State) : (noteWsb w s t).mem = t.mem := by
  rcases noteWsb_cases w s t with h | ⟨a, -, -, -, h⟩ <;> rw [h]; rfl
@[simp] theorem noteWsb_rdata (w : Option Agent) (s t : State) : (noteWsb w s t).rdata = t.rdata := by
  rcases noteWsb_cases w s t with h | ⟨a, -, -, -, h⟩ <;> rw [h]; rfl
@[simp] theorem noteWsb_platform (w : Option Agent) (s t : State) : (noteWsb w s t).platform = t.platform := by
  rcases noteWsb_cases w s t with h | ⟨a, -, -, -, h⟩ <;> rw [h]; rfl
@[simp] theorem noteWsb_stuck (w : Option Agent) (s t : State) : (noteWsb w s t).stuck = t.stuck := by
  rcases noteWsb_cases w s t with h | ⟨a, -, -, -, h⟩ <;> rw [h]; rfl
@[simp] theorem noteWsb_sched (w : Option Agent) (s t : State) : (noteWsb w s t).sched = t.sched := by
  rcases noteWsb_cases w s t with h | ⟨a, -, -, -, h⟩ <;> rw [h]; rfl

theorem noteStuck_eq (w : Option Agent) (s : State) : noteStuck w s = s.setStuck (w.toList ++ s.stuck) := by
  cases w <;> rfl
@[simp] theorem noteStuck_blk (w : Option Agent) (s : State) : (noteStuck w s).blk = s.blk := by rw [noteStuck_eq]; rfl
@[simp] theorem noteStuck_ext (w : Option Agent) (s : State) : (noteStuck w s).ext = s.ext := by rw [noteStuck_eq]; rfl
@[simp] theorem noteStuck_mem (w : Option Agent) (s : State) : (noteStuck w s).mem = s.mem := by rw [noteStuck_eq]; rfl
@[simp] theorem noteStuck_rdata (w : Option Agent) (s : State) : (noteStuck w s).rdata = s.rdata := by rw [noteStuck_eq]; rfl
@[simp] theorem noteStuck_platform (w : Option Agent) (s : State) : (noteStuck w s).platform = s.platform := by
  rw [noteStuck_eq]; rfl
@[simp] theorem noteStuck_wsbAgent (w : Option Agent) (s : State) : (noteStuck w s).wsbAgent = s.wsbAgent := by
  rw [noteStuck_eq]; rfl
@[simp] theorem noteStuck_stuck (w : Option Agent) (s : State) : (noteStuck w s).stuck = w.toList ++ s.stuck := by
  rw [noteStuck_eq]; rfl
@[simp] theorem noteStuck_sched (w : Option Agent) (s : State) : (noteStuck w s).sched = s.sched := by
  rw [noteStuck_eq]; rfl

/-- A turn that settles into a next state was a transition, or left the state as it was, or made its agent stuck. -/
theorem settle_next {who : Option Agent} {s t : State} {o : Host.Outcome State Fault Refusal}
    (h : settle who s o = .next t) :
    (∃ u, o = .next u ∧ t = noteWsb who s u) ∨ (t = s ∧ ∃ f, o = .fault f) ∨
      (t = noteStuck who s ∧ o = .fault .memoryNotAdmitted) := by
  cases o with
  | next u => exact .inl ⟨u, rfl, by simpa [settle] using h.symm⟩
  | fault f =>
    cases f with
    | memoryNotAdmitted => exact .inr (.inr ⟨by simpa [settle] using h.symm, rfl⟩)
    | notEnabled => exact .inr (.inl ⟨by simpa [settle] using h.symm, _, rfl⟩)
    | writeHeld => exact .inr (.inl ⟨by simpa [settle] using h.symm, _, rfl⟩)
  | refused r => simp [settle] at h

/-- Everything an event that presents a code can do when it answers a next state. -/
theorem runCode_next {e : Event} {s t : State} (h : runCode e s = .next t) :
    t = s ∨
    (∃ code i, eventCode s e = some code ∧ decode code = .ok i ∧ exec i s = .fault .memoryNotAdmitted ∧
      t = noteStuck e.agent s) ∨
    (∃ code i u, eventCode s e = some code ∧ decode code = .ok i ∧ exec i s = .next u ∧ t = noteWsb e.agent s u) := by
  unfold runCode at h
  split at h
  · exact .inl (by simpa using h.symm)
  · rename_i code hc
    split at h
    · rename_i i hi
      rcases settle_next h with ⟨u, h1, h2⟩ | ⟨h, -⟩ | ⟨h, h1⟩
      · exact .inr (.inr ⟨code, i, u, hc, hi, h1, h2⟩)
      · exact .inl h
      · exact .inr (.inl ⟨code, i, hc, hi, h1, h⟩)
    · exact absurd h (by simp)
    · exact .inl (by simpa using h.symm)
    · exact .inl (by simpa using h.symm)

/-- Everything one event can do when it answers a next state: nothing; a stuck write; a reset; the platform's setup; a
store; or a transition of the instruction it presents. -/
theorem turn_next {e : Event} {s t : State} (h : turn e s = .next t) :
    t = s ∨
    (∃ code i, eventCode s e = some code ∧ decode code = .ok i ∧ exec i s = .fault .memoryNotAdmitted ∧
      t = noteStuck e.agent s) ∨
    (e = .reset ∧ t = resetBlock s) ∨
    (e = .platformSetup ∧ t = s.setExt s.ext.makeBootReady) ∨
    (∃ who addr v, e = .store who addr v ∧ (s.blk.inited && s.blk.inStore addr.toNat) = false ∧
      t = s.setMem (Memory.write s.mem addr.toNat v)) ∨
    (∃ code i u, eventCode s e = some code ∧ decode code = .ok i ∧ exec i s = .next u ∧ t = noteWsb e.agent s u) := by
  cases e with
  | reset => exact .inr (.inr (.inl ⟨rfl, by simpa [turn] using h.symm⟩))
  | platformSetup => exact .inr (.inr (.inr (.inl ⟨rfl, by simpa [turn] using h.symm⟩)))
  | store who addr v =>
    simp only [turn, foreignStore] at h
    split at h
    · exact absurd h (by simp)
    · rename_i hc
      exact .inr (.inr (.inr (.inr (.inl ⟨who, addr, v, rfl, by simpa using hc, by simpa using h.symm⟩))))
  | access who addr size dir => exact (runCode_next (e := .access who addr size dir) (s := s) h).imp_right (Or.imp_right fun h => .inr (.inr (.inr h)))
  | seq => exact (runCode_next (e := .seq) (s := s) h).imp_right (Or.imp_right fun h => .inr (.inr (.inr h)))
  | env v => exact (runCode_next (e := .env v) (s := s) h).imp_right (Or.imp_right fun h => .inr (.inr (.inr h)))
  | adapterWord w => exact (runCode_next (e := .adapterWord w) (s := s) h).imp_right (Or.imp_right fun h => .inr (.inr (.inr h)))

end Sys2Proof.Machine
end

