-- ==== Sys2Proof/Tests/Slice0.lean ====
section
/-! SUPPORT. Tests: the well-formedness checks, the decoding of words written out from the spec's encodings, one step on small
states with the results of spec/95_test_vectors.md (the vector's name stands in the test's comment), and for each statement
with hypotheses a state and operands that meet them. -/

namespace Sys2Proof.Tests

open Sys2Proof Sys2Proof.Machine

/-! ### The well-formedness checks refuse ill-formed terms -/

theorem test_wf_illegal : WellFormed (.illegal .cmd 0x01000001) = false := by decide
theorem test_wf_illegal_complete : WellFormed (.illegal .cpl 0x00000004) = false := by decide
theorem test_wf_illegal_ok : WellFormed (.illegal .cpl 0x01000001) = true := by decide
theorem test_wf_inert_read : WellFormed (.inert 0x10 .read) = false := by decide
theorem test_wf_inert_write : WellFormed (.inert 0x08 (.write 0)) = false := by decide
theorem test_wf_inert_odd : WellFormed (.inert 0x12 (.write 0)) = false := by decide
theorem test_wf_bad_access : WellFormed (.badRegAccess 0x10 32 .read) = false := by decide

/-! ### Decoding: words written out from R80, R87, R88, R30, R92, R93 -/

/-- CMD32: {IMM16, RSV, OPC}, written to 0x00 (CMD) or 0x04 (CPL). -/
theorem test_decode_commands :
    decode (.access 0x00 32 (.write 0b0000000100000000_000000000000_0001)) = .ok (.init 0x0100) ∧
    decode (.access 0x00 32 (.write 0b0000000000001010_000000000000_0010)) = .ok (.enq 10) ∧
    decode (.access 0x00 32 (.write 0b1011111011101111_000000000000_0011)) = .ok (.wsb 0xBEEF) ∧
    decode (.access 0x04 32 (.write 0b0000000000000000_000000000000_0100)) = .ok .complete := by decide

/-- I12, I13, RG10, RG11, CP13, CP14, W9: words that are illegal on their port. -/
theorem test_decode_illegal :
    decode (.access 0x00 32 (.write 0x01000011)) = .ok (.illegal .cmd 0x01000011) ∧
    decode (.access 0x04 32 (.write 0x01000001)) = .ok (.illegal .cpl 0x01000001) ∧
    decode (.access 0x00 32 (.write 0x00000000)) = .ok (.illegal .cmd 0x00000000) ∧
    decode (.access 0x00 32 (.write 0x00000005)) = .ok (.illegal .cmd 0x00000005) ∧
    decode (.access 0x00 32 (.write 0x0000000F)) = .ok (.illegal .cmd 0x0000000F) ∧
    decode (.access 0x04 32 (.write 0x00010004)) = .ok (.illegal .cpl 0x00010004) ∧
    decode (.access 0x00 32 (.write 0x00000004)) = .ok (.illegal .cmd 0x00000004) ∧
    decode (.access 0x04 32 (.write 0x12340003)) = .ok (.illegal .cpl 0x12340003) := by decide

/-- MMIO32: the offsets of R80. -/
theorem test_decode_registers :
    decode (.access 0x08 32 (.write 5)) = .ok (.wrArg0 5) ∧ decode (.access 0x08 32 .read) = .ok .rdArg0 ∧
    decode (.access 0x0C 32 (.write 6)) = .ok (.wrArg1 6) ∧ decode (.access 0x0C 32 .read) = .ok .rdArg1 ∧
    decode (.access 0x10 32 .read) = .ok .rdStatus ∧ decode (.access 0x14 32 .read) = .ok .rdIndex ∧
    decode (.access 0x18 32 .read) = .ok .rdLevel ∧ decode (.access 0x1C 32 .read) = .ok .rdSession ∧
    decode (.access 0x20 32 .read) = .ok .rdBase ∧ decode (.access 0x24 32 .read) = .ok .rdDsrc ∧
    decode (.access 0x28 32 .read) = .ok .rdDdst ∧ decode (.access 0x2C 32 .read) = .ok .rdDctl ∧
    decode (.access 0x30 32 .read) = .ok .rdFinfo := by decide

/-- R201 and R81: accesses that do nothing, and accesses of a wrong width or alignment (RG5 to RG8). -/
theorem test_decode_inert_and_bad :
    decode (.access 0x00 32 .read) = .ok (.inert 0x00 .read) ∧ decode (.access 0x04 32 .read) = .ok (.inert 0x04 .read) ∧
    decode (.access 0x34 32 .read) = .ok (.inert 0x34 .read) ∧
    decode (.access 0x10 32 (.write 0xFFFFFFFF)) = .ok (.inert 0x10 (.write 0xFFFFFFFF)) ∧
    decode (.access 0x3C 32 (.write 1)) = .ok (.inert 0x3C (.write 1)) ∧
    decode (.access 0x10 8 .read) = .ok (.badRegAccess 0x10 8 .read) ∧
    decode (.access 0x02 32 (.write 7)) = .ok (.badRegAccess 0x02 32 (.write 7)) := by decide

/-- SEQ_UOP: the SEQ_PC codes of R30; CHUNK has none, and the codes 0 and 12 to 15 are no instruction. -/
theorem test_decode_sequencer :
    decode (.seq 0b0001) = .ok .arm0 ∧ decode (.seq 0b0010) = .ok .arm1 ∧ decode (.seq 0b0011) = .ok .arm2 ∧
    decode (.seq 0b0100) = .ok .arm3 ∧ decode (.seq 0b0101) = .ok .arm4 ∧ decode (.seq 0b0110) = .ok .arm5 ∧
    decode (.seq 0b0111) = .ok .arm6 ∧ decode (.seq 0b1000) = .ok .arm7 ∧ decode (.seq 0b1001) = .ok .ret0 ∧
    decode (.seq 0b1010) = .ok .ret1 ∧ decode (.seq 0b1011) = .ok .ret2 ∧ decode .chunk = .ok .chunk ∧
    decode (.seq 0b0000) = .error .seqNone ∧ decode (.seq 0b1100) = .error (.seqNeverHeld 0b1100) ∧
    decode (.seq 0b1111) = .error (.seqNeverHeld 0b1111) := by decide

/-- ADAPTER64: {A32, H16, B8, AOP} of R92 and R93; a field that the operation does not use must be 0. -/
theorem test_decode_adapter :
    decode (.adapter 0x0000000000000001) = .ok .periphDisable ∧ decode (.adapter 0x0000000000000002) = .ok .clearCflag ∧
    decode (.adapter 0x2000019200003703) = .ok (.dmaProgram 0x20000192 0x37) ∧
    decode (.adapter 0x0000000000000004) = .ok .dmaEnable ∧
    decode (.adapter 0x0000000000003805) = .ok (.periphSetFrames 0x38) ∧
    decode (.adapter 0x0000000000000006) = .ok .periphEnable ∧
    decode (.adapter 0x00000000A5C30007) = .ok (.pushWord 0xA5C3) ∧
    decode (.adapter 0x0000000000000008) = .ok .periphStart ∧ decode (.adapter 0x0000000000000009) = .ok .dmaDisable ∧
    decode (.adapter 0x0000000000000101) = .error (.reservedAdapterWord 0x0000000000000101) ∧
    decode (.adapter 0x000000000000000A) = .error (.reservedAdapterWord 0x000000000000000A) := by decide

/-- ENV_STEP: names, no bits. -/
theorem test_decode_environment :
    decode (.env .dmaXfer) = .ok .envDmaXfer ∧ decode (.env .dmaTc) = .ok .envDmaTc ∧
    decode (.env .shift) = .ok .envShift ∧ decode (.env .dispatch) = .ok .envDispatch ∧
    decode (.env .wsbDone) = .ok .wsbDone := by decide

/-- Words of the table as the host numbers them (notes/assumptions/14.md). -/
theorem test_table_words :
    decodeTableWord 32 0x01000001 = some (.init 256) ∧ decodeTableWord 32 0x00000004 = some .complete ∧
    decodeTableWord 8 0x2C = some .rdDctl ∧ decodeTableWord 8 0x7 = some .arm6 ∧ decodeTableWord 16 0xB = some .ret2 ∧
    decodeTableWord 64 0x2000019200003703 = some (.dmaProgram 0x20000192 55) ∧ decodeTableWord 24 0 = none := by decide

/-! ### Small states -/

/-- What a next state is asked; false when there is none. -/
def holds (o : Host.Outcome State Fault Refusal) (p : State → Bool) : Bool :=
  match o with
  | .next t => p t
  | .fault _ => false
  | .refused _ => false

/-- The registers of vector I1, with the caller's buffer in ARG0. -/
def ring : Block :=
  { Block.reset with inited := true, n := 256, base := 0x20000000, descDst := 0x4000300C, arg0 := 0x20001000, arg1 := 0x4000300C }

/-- Ten words armed (vector E1). -/
def armed : Block := { ring with head := 10, session := 10, sessionValid := true, state := .armed, seqPc := .arm0 }

/-- The same burst after ARM3. -/
def channelOn : Block :=
  { armed with
    seqPc := .arm4, descSrc := 0x20000002, descLen := 9, descEn := true, descMinc := true, descWsize := 1 }

def running : Block := { channelOn with state := .running, seqPc := .none }

/-- The burst before RET2. -/
def lastRetire : Block := { running with state := .retiring, seqPc := .ret2, descEn := false }

/-- The adapter after ARM7, before the first DMA transfer. -/
def started : Adapter :=
  { Adapter.reset with
    pEn := true, pFrames := 10, pStart := true, txq := [0x1100], txc := false, dEn := true, dSrc := 0x20000002,
    dDst := 0x4000300C, dLen := 9, dMinc := true, dWsize := 1, dRemain := 9, tcArmed := true }

/-- Slots 0 and 1 and the caller's first two words. -/
def words : Memory := [(0x20000000, 0x00), (0x20000001, 0x11), (0x20000002, 0x01), (0x20000003, 0x11),
  (0x20001000, 0xCD), (0x20001001, 0xAB), (0x20001002, 0x34), (0x20001003, 0x12)].filter fun c => c.2 != unlistedByte

/-- A state with these registers, this adapter and this schedule. -/
def at_ (b : Block) (x : Adapter := Adapter.reset) (l : List Event := []) : State :=
  { State.reset with blk := b, ext := x, mem := words, sched := l }

/-! ### One step: commands -/

/-- I1. -/
theorem test_init : holds (exec (.init 0x0100) (at_ { Block.reset with arg0 := 0x20000000, arg1 := 0x4000300C }))
    (fun t => t.blk.statusWord == 0x00000004 && t.blk.indexWord == 0x01000000 && t.blk.levelWord == 0x0000FF00) = true := by
  decide

/-- I8: 0xFFFFFE02 + 511 passes the last address. -/
theorem test_init_bad_address : holds (exec (.init 0x0100) (at_ { Block.reset with arg0 := 0xFFFFFE02 }))
    (fun t => t.blk.statusWord == 0x00000640 && t.blk.finfo == 0x01000001) = true := by decide

/-- E12: a copy that wraps; slots 7 and 0 get the caller's words, and the run stops at the last slot. -/
theorem test_enq_wraps : holds (exec (.enq 2) (at_ { ring with n := 8, head := 7, tail := 6 }))
    (fun t => t.mem.readHalf 0x2000000E == 0xABCD && t.mem.readHalf 0x20000000 == 0x1234 && t.blk.head == 1 &&
      t.blk.session == 2 && t.blk.statusWord == 0x00001015) = true := by decide

/-- E5: more words than the ring has room for. -/
theorem test_enq_dropped : holds (exec (.enq 0x0100) (at_ ring))
    (fun t => t.blk.statusWord == 0x0000000C && t.mem == words && t.blk.head == 0) = true := by decide

/-- W1. -/
theorem test_wsb : holds (exec (.wsb 0x1234) (at_ ring))
    (fun t => t.ext.atrace == [0x0000000012340007] && t.ext.txq == [0x1234] && !t.ext.txc &&
      t.blk.statusWord == 0x00000024) = true := by decide

/-- W7. -/
theorem test_wsb_while_burst : holds (exec (.wsb 0x1234) (at_ running started))
    (fun t => t.blk.cause == .singleWhileBurst && t.blk.finfo == 0x12340003 && t.ext == started) = true := by decide

/-- CP1. -/
theorem test_complete : holds (exec .complete (at_ running started)) (fun t => t.blk.statusWord == 0x00009017) = true := by
  decide

/-- CP9. -/
theorem test_complete_spurious : holds (exec .complete (at_ ring))
    (fun t => t.blk.statusWord == 0x00000844 && t.blk.finfo == 0x00000004) = true := by decide

/-- RG12, and RG13: the first fault stays. -/
theorem test_illegal : holds (exec (.illegal .cmd 0x80000012) (at_ ring))
    (fun t => t.blk.cause == .illegalCmd && t.blk.finfo == 0x80000012 &&
      holds (exec (.illegal .cpl 0x00000000) t) (fun u => u.blk.finfo == 0x80000012)) = true := by decide

/-! ### One step: register accesses -/

/-- RG3, RG4 and the field layouts of R82 to R86. -/
theorem test_reads :
    holds (exec .rdIndex (at_ { ring with n := 4, tail := 3, head := 1 })) (fun t => t.rdata == 0x00040301) = true ∧
    holds (exec .rdStatus (at_ armed)) (fun t => t.rdata == 0x00001015) = true ∧
    holds (exec .rdLevel (at_ armed)) (fun t => t.rdata == 0x0000F50A) = true ∧
    holds (exec .rdDctl (at_ running)) (fun t => t.rdata == 0x00001309) = true ∧
    holds (exec .rdSession (at_ armed)) (fun t => t.rdata == 0x0000000A) = true ∧
    holds (exec .rdDsrc (at_ running)) (fun t => t.rdata == 0x20000002) = true ∧
    holds (exec .rdBase (at_ ring)) (fun t => t.rdata == 0x20000000) = true ∧
    holds (exec .rdDdst (at_ ring)) (fun t => t.rdata == 0x4000300C) = true ∧
    holds (exec .rdArg0 (at_ ring)) (fun t => t.rdata == 0x20001000) = true ∧
    holds (exec .rdArg1 (at_ ring)) (fun t => t.rdata == 0x4000300C) = true ∧
    holds (exec .rdFinfo (at_ { ring with faulted := true, cause := .reinit, finfo := 0x01000001 }))
      (fun t => t.rdata == 0x01000001) = true := by decide

/-- RG9. -/
theorem test_writes :
    holds (exec (.wrArg0 0x20001000) (at_ Block.reset)) (fun t => t.blk.arg0 == 0x20001000) = true ∧
    holds (exec (.wrArg1 0x4000300C) (at_ Block.reset)) (fun t => t.blk.arg1 == 0x4000300C) = true := by decide

/-- RG7, RG8, RG14. -/
theorem test_bad_access :
    holds (exec (.badRegAccess 0x10 8 .read) (at_ ring)) (fun t => t.blk.finfo == 0x00000010 && t.rdata == 0) = true ∧
    holds (exec (.badRegAccess 0x02 32 (.write 1)) (at_ ring)) (fun t => t.blk.finfo == 0x00000002) = true ∧
    holds (exec (.badRegAccess 0x01 16 (.write 1)) (at_ { ring with faulted := true, cause := .reinit }))
      (fun t => t.blk.cause == .reinit) = true := by decide

/-! ### One step: the sequencer -/

/-- Table 2.1: which runs arm. -/
theorem test_chunk :
    (chunkBlock { ring with n := 100, head := 3, tail := 97 }).session = 3 ∧
    (chunkBlock { ring with head := 9, tail := 255 }).state = .idle ∧
    (chunkBlock { ring with head := 0, tail := 1 }).session = 255 ∧ (chunkBlock { ring with head := 1 }).state = .idle := by
  decide

/-- Table 2.4, last row: the descriptor of a burst that ends at the last slot. -/
theorem test_arm2 : holds (exec .arm2 (at_ { armed with base := 0x20000100, tail := 254, head := 0, session := 2, seqPc := .arm2 }))
    (fun t => t.ext.atrace == [0x200002FE00000103] && t.blk.descSrc == 0x200002FE && t.ext.dRemain == 1 &&
      t.ext.dDst == 0x4000300C && t.blk.dctlWord == 0x00001201) = true := by decide

/-- P1: ARM4's word. -/
theorem test_arm4 : holds (exec .arm4 (at_ channelOn)) (fun t => t.ext.atrace == [0x0000000000000A05]) = true := by decide

/-- P1: ARM6 pushes slot 0. -/
theorem test_arm6 : holds (exec .arm6 (at_ { channelOn with seqPc := .arm6 }))
    (fun t => t.ext.atrace == [0x0000000011000007] && t.ext.txq == [0x1100] && t.blk.seqPc == .arm7) = true := by decide

/-- P1: ARM7, and the STATUS that follows. -/
theorem test_arm7 : holds (exec .arm7 (at_ { channelOn with seqPc := .arm7 }))
    (fun t => t.ext.atrace == [0x0000000000000008] && t.blk.statusWord == 0x00000016) = true := by decide

/-- CP4. -/
theorem test_ret2 : holds (exec .ret2 (at_ lastRetire))
    (fun t => t.blk.tail == 10 && t.blk.statusWord == 0x00000004 && t.blk.levelWord == 0x0000FF00) = true := by decide

/-- CP5: the wrapped region is armed in the same step. -/
theorem test_ret2_wrap : holds (exec .ret2 (at_ { lastRetire with tail := 200, head := 4, session := 56 }))
    (fun t => t.blk.tail == 0 && t.blk.session == 4 && t.blk.statusWord == 0x00001015) = true := by decide

/-! ### One step: the adapter and the environment -/

/-- A2, A4, A6: broken adapter rules. -/
theorem test_adapter_rules :
    holds (exec .periphDisable (at_ ring started)) (fun t => !t.ext.pEn && t.ext.envFault) = true ∧
    holds (exec (.periphSetFrames 4) (at_ ring started)) (fun t => t.ext.pFrames == 4 && t.ext.envFault) = true ∧
    holds (exec (.dmaProgram 0x20000192 55) (at_ ring started)) (fun t => t.ext.dRemain == 55 && t.ext.envFault) = true := by
  decide

/-- A7. -/
theorem test_dma_xfer : holds (exec .envDmaXfer (at_ running started))
    (fun t => t.ext.txq == [0x1100, 0x1101] && t.ext.dRemain == 8) = true := by decide

/-- A9 and A10. -/
theorem test_dma_tc :
    holds (exec .envDmaTc (at_ running { started with dRemain := 0, txq := [0x1109] })) (fun _ => true) = false ∧
    holds (exec .envDmaTc (at_ running { started with dRemain := 0, txq := [] }))
      (fun t => t.ext.cflag && t.ext.irqPend && !t.ext.tcArmed) = true := by decide

/-- W2. -/
theorem test_shift : holds (exec .envShift (at_ ring { Adapter.reset with txq := [0x1234], txc := false }))
    (fun t => t.ext.wire == [0x1234] && t.ext.txq == [] && t.ext.txc) = true := by decide

/-- A11. -/
theorem test_dispatch : holds (exec .envDispatch (at_ running { started with irqPend := true }))
    (fun t => !t.ext.irqPend && t.blk.statusWord == 0x00009017) = true := by decide

/-- W3. -/
theorem test_wsb_done : holds (exec .wsbDone (at_ { ring with wsbPending := true }))
    (fun t => t.blk.statusWord == 0x00000004) = true := by decide

/-! ### Steps -/

/-- W4, W5: a write of CMD waits while WSB_PENDING = 1, and a read of another agent goes on. -/
theorem test_step_held : holds (step (at_ { ring with wsbPending := true } Adapter.reset
      [.access .producer 0x00 32 (.write 0x000A0002), .access .dispatch 0x18 32 .read]))
    (fun t => t.rdata == 0x0000FF00 && t.sched == [.access .producer 0x00 32 (.write 0x000A0002)]) = true := by decide

/-- R184: the PRODUCER has no step while WSB_PENDING = 1, not to ARG0 either, until R185. -/
theorem test_step_producer_waits : holds (step (at_ { ring with wsbPending := true } Adapter.reset
      [.access .producer 0x08 32 (.write 7), .env .wsbDone]))
    (fun t => t.blk.arg0 == 0x20001000 && !t.blk.wsbPending && t.sched == [.access .producer 0x08 32 (.write 7)]) = true := by
  decide

/-- R67: an ENQ whose source is not admitted leaves its agent stuck, and the ring as it was. -/
theorem test_step_stuck : holds (step { at_ ring Adapter.reset [.access .producer 0x00 32 (.write 0x00010002)] with
      platform := { Platform.reset with denied := [(0x20001000, 0x20001000)] } })
    (fun t => t.blk == ring && t.mem == words && t.stuck == [.producer]) = true := by decide

/-- R67: a stuck agent has no step; another agent's goes on. -/
theorem test_step_stuck_waits : holds (step { at_ ring Adapter.reset
      [.access .producer 0x08 32 (.write 7), .access .dispatch 0x10 32 .read] with stuck := [.producer] })
    (fun t => t.blk == ring && t.rdata == 0x00000004) = true := by decide

/-- R142: with no event to take, SEQ takes its step (P1's first arming step). -/
theorem test_step_seq_turn : holds (step (at_ armed)) (fun t => t.blk.seqPc == .arm1) = true := by decide

/-- A word placed by withFetchWord is what the next step runs. -/
theorem test_step_fetch :
    holds (step (State.reset.withFetchWord 32 0x01000001)) (fun t => t.blk.n == 256 && t.blk.inited) = true ∧
    holds (step (State.reset.withFetchWord 16 0x8)) (fun t => t.blk.state == .running && t.ext.pStart) = true ∧
    holds (step (State.reset.withFetchWord 64 0x0000000012340007)) (fun t => t.ext.txq == [0x1234]) = true := by decide

/-- R98: the worked split of a word into the device's command and data. -/
theorem test_payload : payloadCommand 0xA5C3 = 0b10100 ∧ payloadData 0xA5C3 = 0b10111000011 ∧
    frameBits 0x8001 = true :: List.replicate 14 false ++ [true] := by decide

/-! ### States that meet the invariants -/

theorem words_wf : Memory.wf words := by decide

theorem inv_ring : Block.Inv ring := by constructor <;> decide
theorem inv_armed : Block.Inv armed := by constructor <;> decide
theorem inv_channelOn : Block.Inv channelOn := by constructor <;> decide
theorem inv_arm6 : Block.Inv { channelOn with seqPc := .arm6 } := by constructor <;> decide
theorem inv_running : Block.Inv running := by constructor <;> decide
theorem inv_lastRetire : Block.Inv lastRetire := by constructor <;> decide

/-- Two words from slot 254 on, the burst before RET2, `h` words wrapped to slot 0. -/
def wrapping (h : BitVec 8) : Block := { lastRetire with tail := 254, head := h, session := 2 }

theorem inv_wrapping_0 : Block.Inv (wrapping 0) := by constructor <;> decide
theorem inv_wrapping_1 : Block.Inv (wrapping 1) := by constructor <;> decide
theorem inv_wrapping_2 : Block.Inv (wrapping 2) := by constructor <;> decide

/-- The smallest burst, at the end of a ring of 3 slots. -/
def small : Block := { ring with n := 3, head := 1, tail := 0 }

theorem inv_small : Block.Inv small := by constructor <;> decide

theorem coupled_ring (x : Adapter) (hx : x.bootReady = true) (l : List Event) : State.Coupled (at_ ring x l) := by
  obtain ⟨⟨⟨⟨⟨h1, h2⟩, h3⟩, h4⟩, h5⟩, h6⟩ : ((((x.txq = [] ∧ x.txc = true) ∧ x.dEn = false) ∧ x.tcArmed = false) ∧
    x.cflag = false) ∧ x.irqPend = false := by simpa [Adapter.bootReady] using hx
  intro _ _
  constructor <;> simp [at_, ring, Block.reset, h1, h2, h3, h4, h6, Block.programmed, SeqStep.code]

theorem coupled_armed : Coupling armed Adapter.reset := by constructor <;> decide
theorem coupled_running : Coupling running started := by constructor <;> decide

theorem wire_running (l : List Event) : State.WireInOrder (at_ running started l) := by
  intro _ _ _
  have h : (at_ running started []).slotWords 0 1 = [0x1100] := by decide
  exact ⟨[], h⟩

/-! ### Each statement's hypotheses are met by a state and operands -/

/-- Faulted, pending, and both. -/
def frozen : Block := { ring with faulted := true, cause := .reinit, finfo := 0x01000001 }
def pending : Block := { ring with wsbPending := true }

/-- No access is admitted. -/
def walled (b : Block) (x : Adapter := Adapter.reset) (l : List Event := []) : State :=
  { at_ b x l with platform := { Platform.reset with denied := [(0, 0xFFFFFFFF)] } }

theorem witness_ResetPutsEveryBlockRegister :
    (at_ lastRetire started [.reset]).sched = .reset :: [] ∧ State.reset.blk = Block.reset := ⟨rfl, rfl⟩

theorem witness_DecodeOfEncodeIsTheInstruction :
    WellFormed (.init 0xFFFF) = true ∧ WellFormed (.illegal .cpl 0x00010004) = true ∧
    WellFormed (.inert 0x3C (.write 0xFFFFFFFF)) = true ∧ WellFormed (.badRegAccess 0x3F 64 .read) = true ∧
    WellFormed (.dmaProgram 0xFFFFFFFE 255) = true := by decide

theorem witness_EncodeOfDecodeIsTheCode :
    decode (.access 0x3F 32 .read) = .ok (.badRegAccess 0x3F 32 .read) ∧ decode (.seq 0xB) = .ok .ret2 ∧
    decode (.adapter 0x00000000FFFF0007) = .ok (.pushWord 0xFFFF) ∧ decode (.env .wsbDone) = .ok .wsbDone := by decide

theorem witness_IllegalWordsFault :
    (at_ ring).Open ∧ (at_ frozen).blk.faulted = true ∧ (at_ ring).blk.faulted = false ∧
    ((at_ pending).blk.faulted = false ∧ (at_ pending).blk.wsbPending = true) := ⟨⟨rfl, rfl⟩, rfl, rfl, rfl, rfl⟩

theorem witness_StepRunsTheDecodedInstruction :
    (let s := at_ ring Adapter.reset [.access .producer 0x10 32 .read]
     takeEvent s = (.access .producer 0x10 32 .read, []) ∧
      eventCode s (.access .producer 0x10 32 .read) = some (.access 0x10 32 .read)) ∧
    (let s := at_ armed Adapter.reset [.seq]
     takeEvent s = (.seq, []) ∧ eventCode s .seq = some (.seq 1)) ∧
    (takeEvent (at_ armed) = (.seq, []) ∧ eventCode (at_ armed) .seq = some (.seq 1)) ∧
    decode (.access 0x10 32 .read) = .ok .rdStatus ∧ decode (.seq 1) = .ok .arm0 := by decide

theorem witness_BusAccessesReachTheWindow :
    takeEvent (at_ ring Adapter.reset [.access (.other 0) 0x40 32 .read]) = (.access (.other 0) 0x40 32 .read, []) ∧
    ∀ off : BitVec 6, (0x40 : Word) ≠ (at_ ring).platform.regBase + off.setWidth 32 := by decide

/-- A held write of the DISPATCH, an access of the PRODUCER, of a stuck agent, and one that does not wait. -/
theorem witness_OnlyCmdWritesAreHeld :
    (let s := at_ pending Adapter.reset [.access .dispatch 0 32 (.write 2)]
     s.blk.wsbPending = true ∧ s.blk.faulted = false ∧
      ∃ who w, (.access .dispatch 0 32 (.write 2) : Event) = .access who s.platform.regBase 32 (.write w)) ∧
    ((.access .producer 0x10 32 .read : Event).agent = some .producer ∧ pending.wsbPending = true) ∧
    ((.store (.other 3) 0 0 : Event).agent = some (.other 3) ∧
      (Agent.other 3) ∈ ({ at_ ring with stuck := [.other 3] } : State).stuck) ∧
    ((.access .dispatch 0x10 32 .read : Event).agent = some .dispatch ∧
      ¬ (Agent.dispatch ∈ (at_ pending).stuck ∨
        ((at_ pending).blk.wsbPending = true ∧ (Agent.dispatch = .producer ∨ Agent.dispatch = (at_ pending).wsbAgent)))) :=
  ⟨⟨rfl, rfl, _, _, rfl⟩, ⟨rfl, rfl⟩, ⟨rfl, by decide⟩, rfl, by decide⟩

/-- OccupancyAndAvailable, RunLengthStaysInTheStore: table 2.1, the extreme rings and index values. -/
theorem witness_index_arithmetic :
    (1 ≤ 1 ∧ 1 ≤ 256 ∧ 0 < 1) ∧ (1 ≤ 256 ∧ 256 ≤ 256 ∧ 255 < 256 ∧ 0 < 256) ∧
    (occOf 0 0 1 = 0 ∧ availOf 0 0 1 = 0 ∧ runOf 0 0 1 = 0) ∧
    (occOf 255 0 256 = 255 ∧ availOf 255 0 256 = 0 ∧ runOf 255 0 256 = 255) ∧
    (occOf 0 1 256 = 255 ∧ runOf 0 1 256 = 255) ∧ (occOf 4 200 256 = 60 ∧ availOf 4 200 256 = 195 ∧ runOf 4 200 256 = 56) ∧
    (occOf 9 255 256 = 10 ∧ runOf 9 255 256 = 1) ∧ (occOf 3 97 100 = 6 ∧ runOf 3 97 100 = 3) ∧
    (occOf 1 6 8 = 3 ∧ runOf 1 6 8 = 2) := by decide

theorem witness_InitByCases :
    (at_ frozen).blk.faulted = true ∧ ((at_ pending).blk.faulted = false ∧ (at_ pending).blk.wsbPending = true) ∧
    ((at_ ring).Open ∧ (at_ ring).blk.inited = true) ∧
    ((at_ Block.reset).Open ∧ (at_ Block.reset).blk.inited = false) ∧
    ((0 : Half).toNat < 1 ∧ 256 < (257 : Half).toNat ∧ 1 ≤ (1 : Half).toNat ∧ (256 : Half).toNat ≤ 256) ∧
    ((0x20000001 : Word).toNat % 2 = 1 ∧ (0x4000300D : Word).toNat % 2 = 1 ∧ (0x4000300C : Word).toNat % 2 = 0) ∧
    2 ^ 32 < (0xFFFFFE02 : Word).toNat + 2 * (256 : Half).toNat ∧
    (0xFFFFFE00 : Word).toNat + 2 * (256 : Half).toNat ≤ 2 ^ 32 :=
  ⟨rfl, ⟨rfl, rfl⟩, ⟨⟨rfl, rfl⟩, rfl⟩, ⟨⟨rfl, rfl⟩, rfl⟩, by decide, by decide, by decide, by decide⟩

theorem witness_EnqByCases :
    ((at_ ring).Open ∧ (at_ ring).blk.inited = true ∧ (at_ ring).blk.avail = 255 ∧ (at_ ring).blk.arg0.toNat % 2 = 0 ∧
      (at_ ring).blk.head.toNat < (at_ ring).blk.n.toNat ∧ (at_ ring).blk.tail.toNat < (at_ ring).blk.n.toNat) ∧
    ((at_ Block.reset).Open ∧ (at_ Block.reset).blk.inited = false) ∧
    ((0x20001001 : Word).toNat % 2 = 1 ∧ 2 ^ 32 < (0xFFFFFFFE : Word).toNat + 2 * (2 : Half).toNat ∧
      (0xFFFFFFFE : Word).toNat + 2 * (1 : Half).toNat ≤ 2 ^ 32) ∧
    ((255 : Half).toNat ≤ 255 ∧ 255 < (256 : Half).toNat) ∧
    ((walled ring).Open ∧ 0 < (1 : Half).toNat ∧ admits (walled ring).platform 0x20001000 = false) ∧
    (∀ i, i < 2 → admits (at_ ring).platform ((at_ ring).blk.arg0 + BitVec.ofNat 32 (2 * i)) = true ∧
      admits (at_ ring).platform ((at_ ring).blk.base + BitVec.ofNat 32 (2 * ((0 + i) % 256))) = true) ∧
    ((at_ frozen).blk.faulted = true ∧ (at_ pending).blk.faulted = false ∧ (at_ pending).blk.wsbPending = true) :=
  ⟨⟨⟨rfl, rfl⟩, by decide⟩, ⟨⟨rfl, rfl⟩, rfl⟩, by decide, by decide, ⟨⟨rfl, rfl⟩, by decide⟩, by decide, rfl, rfl, rfl⟩

theorem witness_EnqPutsEachWordInItsSlot :
    (at_ ring).Inv ∧ (at_ ring).Open ∧ (at_ ring).blk.inited = true ∧
    (∃ t, exec (.enq 2) (at_ ring) = .next t ∧ t.blk.faulted = false ∧ t.blk.result = false) ∧
    (at_ ring).blk.base.toNat + 2 * (at_ ring).blk.n.toNat ≤ (at_ ring).blk.arg0.toNat :=
  ⟨⟨inv_ring, words_wf⟩, ⟨rfl, rfl⟩, rfl, ⟨_, rfl, rfl, rfl⟩, by decide⟩

/-- With a burst in flight. -/
theorem witness_EnqWritesOnlyFreeSlots :
    (at_ running started).Inv ∧ (at_ running started).blk.inited = true ∧ (at_ running started).blk.occ = 10 ∧
    ∃ t, exec (.enq 2) (at_ running started) = .next t ∧ t.blk.faulted = false ∧ t.blk.result = false :=
  ⟨⟨inv_running, words_wf⟩, rfl, by decide, _, rfl, rfl, rfl⟩

theorem witness_WsbByCases :
    ((at_ ring).Open ∧ (at_ ring).blk.inited = true ∧ (at_ ring).blk.state = .idle) ∧
    ((at_ armed).Open ∧ (at_ armed).blk.inited = true ∧ (at_ armed).blk.state ≠ .idle) ∧
    ((at_ Block.reset).Open ∧ (at_ Block.reset).blk.inited = false) ∧ (at_ frozen).blk.faulted = true ∧
    ((at_ pending).blk.faulted = false ∧ (at_ pending).blk.wsbPending = true) :=
  ⟨⟨⟨rfl, rfl⟩, rfl, rfl⟩, ⟨⟨rfl, rfl⟩, rfl, by decide⟩, ⟨⟨rfl, rfl⟩, rfl⟩, rfl, rfl, rfl⟩

theorem witness_CompleteByCases :
    (at_ frozen).blk.faulted = true ∧ (Block.reset.faulted = false ∧ Block.reset.inited = false) ∧
    (lastRetire.faulted = false ∧ lastRetire.inited = true ∧ lastRetire.state ≠ .running) ∧
    (running.faulted = false ∧ running.inited = true ∧ running.state = .running) := by decide

theorem witness_LevelAddsUp : Block.reset.inited = false ∧ ring.inited = true ∧ Block.Inv ring :=
  ⟨rfl, rfl, inv_ring⟩

/-- ArgumentWrites, InertAccesses, BadAccessesFault. -/
theorem witness_register_accesses :
    ((at_ ring).blk.faulted = false ∧ (at_ frozen).blk.faulted = true) ∧
    ((0x00 : BitVec 6).toNat = 0x00 ∧ (0x3C : BitVec 6).toNat = 0x3C) ∧
    (0x10 ≤ (0x10 : BitVec 6).toNat ∧ (0x10 : BitVec 6).toNat % 4 = 0 ∧ (0x3C : BitVec 6).toNat % 4 = 0) ∧
    ((8 : Nat) ≠ 32 ∧ (0x3F : BitVec 6).toNat % 4 ≠ 0) := by decide

theorem witness_ChunkByCases :
    armed.state ≠ .idle ∧ (ring.head.toNat < ring.n.toNat ∧ ring.tail.toNat < ring.n.toNat) ∧ (ring.state = .idle ∧ runOf ring.head.toNat ring.tail.toNat ring.n.toNat ≤ 1) ∧
    (({ ring with head := 2 } : Block).state = .idle ∧ 2 ≤ runOf (2 : BitVec 8).toNat ring.tail.toNat ring.n.toNat) := by
  decide

/-- ArmStepsWithoutOperands, ArmStepsWithOperands, ArmPushesTheFirstWord, RetireClearsAndDisables, RetireAdvancesTail: any
step can be the one SEQ_PC holds while FAULTED = 0; and it can be another one, or FAULTED can be 1. -/
theorem witness_micro_steps (p q : SeqStep) (h : q ≠ p) :
    (let s := at_ { armed with seqPc := p }
     (s.blk.seqPc = p ∧ s.blk.faulted = false) ∧ 1 ≤ s.blk.session.toNat ∧ 1 ≤ s.blk.n.toNat) ∧
    (let s := at_ { armed with seqPc := q }
     ¬ (s.blk.seqPc = p ∧ s.blk.faulted = false)) ∧
    (let s := at_ { frozen with seqPc := p }
     ¬ (s.blk.seqPc = p ∧ s.blk.faulted = false)) :=
  ⟨⟨⟨rfl, rfl⟩, (by decide : 1 ≤ armed.session.toNat), (by decide : 1 ≤ armed.n.toNat)⟩, fun h' => h h'.1, fun h' => by cases h'.2⟩

theorem witness_ArmPushesTheFirstWord :
    admits (at_ { channelOn with seqPc := .arm6 }).platform 0x20000000 = true ∧
    admits (walled { channelOn with seqPc := .arm6 }).platform 0x20000000 = false := by decide

/-- The run that starts from a state; it stays where a step has no next state. -/
def runFrom (s : State) (n : Nat) : State :=
  match n with
  | 0 => s
  | n + 1 =>
    match step (runFrom s n) with
    | .next t => t
    | .fault _ => runFrom s n
    | .refused _ => runFrom s n

/-- A run that has come to a state which steps to itself stays there. -/
theorem runFrom_fixed {s : State} {k : Nat} (hk : step (runFrom s k) = .next (runFrom s k)) (m : Nat) (hm : k ≤ m) :
    runFrom s m = runFrom s k := by
  induction m, hm using Nat.le_induction with
  | base => rfl
  | succ m _ ih => simp only [runFrom, ih, hk]

theorem isRun_of_fixed {s : State} {k : Nat}
    (h : ∀ i, i < k → step (runFrom s i) = .next (runFrom s (i + 1)))
    (hk : step (runFrom s k) = .next (runFrom s k)) : IsRun (runFrom s) := by
  intro n
  by_cases hn : n < k
  · exact h n hn
  · rw [runFrom_fixed hk n (by omega), runFrom_fixed hk (n + 1) (by omega), hk]

theorem witness_SequencerIsNeverBlocked :
    (isMicroStep .arm6 (at_ { channelOn with seqPc := .arm6 }).blk.seqPc ∧
      (at_ { channelOn with seqPc := .arm6 }).blk.faulted = false ∧
      admits (at_ channelOn).platform ((at_ channelOn).blk.slotAddr (at_ channelOn).blk.tail.toNat) = true) ∧
    (IsRun (runFrom (at_ armed)) ∧ SeqEnabled (runFrom (at_ armed) 0)) := by
  refine ⟨⟨rfl, rfl, by decide⟩, isRun_of_fixed (k := 8) (fun i hi => ?_) rfl, .arm0, _, rfl, rfl⟩
  interval_cases i <;> rfl

theorem witness_DmaMovesOneWord :
    (started.dEn = true ∧ started.pEn = true ∧ started.pStart = true ∧ 0 < started.dRemain.toNat) ∧
    ¬ (Adapter.reset.dEn = true) ∧
    admits (at_ running started).platform (xferAddr started) = true ∧
    admits (walled running started).platform (xferAddr started) = false := by decide

theorem witness_CompletionAndShift :
    (let x := { started with dRemain := 0, txq := [] }
     x.dEn = true ∧ x.tcArmed = true ∧ x.dRemain.toNat = 0 ∧ x.txq = []) ∧
    ¬ (started.dRemain.toNat = 0) ∧ started.txq = 0x1100 :: [] := by decide

theorem witness_DispatchAndWsbDone :
    ({ started with irqPend := true } : Adapter).irqPend = true ∧ started.irqPend = false ∧
    (pending.wsbPending = true ∧ Adapter.reset.txc = true) ∧ ¬ (started.txc = true) := by decide

theorem witness_FaultsArePrecise :
    ((at_ ring).blk.faulted = false ∧ ∃ t, exec .complete (at_ ring) = .next t ∧ t.blk.faulted = true) ∧
    ((at_ frozen).blk.faulted = true ∧ ∃ t, exec (.badRegAccess 0 8 .read) (at_ frozen) = .next t) :=
  ⟨⟨rfl, _, rfl, rfl⟩, rfl, _, rfl⟩

theorem witness_FrozenWhileFaulted :
    (at_ frozen).blk.faulted = true ∧ isMicroStep .arm0 .arm0 ∧
    (at_ frozen { started with irqPend := true }).ext.irqPend = true ∧
    (∃ t, step (at_ frozen Adapter.reset [.reset]) = .next t) ∧
    ∃ t, step (at_ { frozen with wsbPending := true } Adapter.reset [.env .wsbDone]) = .next t :=
  ⟨rfl, rfl, rfl, ⟨_, rfl⟩, ⟨_, rfl⟩⟩

theorem witness_StuckAccessesChangeNothing :
    (let s := walled { channelOn with seqPc := .arm6 } Adapter.reset [.seq]
     takeEvent s = (.seq, []) ∧ eventCode s .seq = some (.seq 7) ∧ decode (.seq 7) = .ok .arm6 ∧
      exec .arm6 { s with sched := [] } = .fault .memoryNotAdmitted ∧ s.Inv ∧ s.blk.seqPc = .arm6 ∧
      admits s.platform (s.blk.slotAddr s.blk.tail.toNat) = false ∧ (∃ t, step s = .next t)) ∧
    (let s := walled ring Adapter.reset [.access .producer 0 32 (.write 0x00010002)]
     takeEvent s = (.access .producer 0 32 (.write 0x00010002), []) ∧ exec (.enq 1) { s with sched := [] } = .fault .memoryNotAdmitted ∧
      ∃ t, step s = .next t ∧ Agent.producer ∈ t.stuck ∧ ∃ u, step t = .next u) ∧
    exec .envDmaXfer (walled running started) = .fault .memoryNotAdmitted :=
  ⟨⟨rfl, rfl, rfl, rfl, ⟨inv_arm6, words_wf⟩, rfl, by decide, _, rfl⟩, ⟨rfl, rfl, _, rfl, by decide, _, rfl⟩, rfl⟩

theorem witness_StepKeepsTheInvariant :
    (at_ lastRetire Adapter.reset [.seq]).Inv ∧ (∃ t, step (at_ lastRetire Adapter.reset [.seq]) = .next t) ∧
    (at_ ring Adapter.reset [.access .producer 0 32 (.write 0x00020002)]).Inv ∧
    ∃ t, step (at_ ring Adapter.reset [.access .producer 0 32 (.write 0x00020002)]) = .next t ∧ t.blk.state = .armed :=
  ⟨⟨inv_lastRetire, words_wf⟩, ⟨_, rfl⟩, ⟨inv_ring, words_wf⟩, _, rfl, rfl⟩

theorem witness_InvariantGivesTheSpecsLaws :
    (Block.Inv running ∧ running.inited = true ∧ running.state = .running) ∧ (Block.Inv ring ∧ ring.state = .idle) :=
  ⟨⟨inv_running, rfl, rfl⟩, inv_ring, rfl⟩

/-- A step of the DMA keeps the platform's contract. -/
theorem keeps_xfer : PlatformKeeps (at_ running started [.env .dmaXfer]) (.env .dmaXfer) :=
  ⟨nofun, nofun, nofun, nofun⟩

/-- INIT with the boot condition met keeps the platform's contract. -/
theorem keeps_init : PlatformKeeps (at_ Block.reset Adapter.reset [.access .producer 0 32 (.write 0x01000001)])
    (.access .producer 0 32 (.write 0x01000001)) := by
  refine ⟨fun _ h => ?_, fun h => ?_, fun _ _ _ => rfl, fun h => ?_⟩
  · cases h
  · cases h
  · revert h; decide

/-- WireKeepsSlotOrder too. -/
theorem witness_TxringNeverBreaksAnAdapterRule :
    (at_ running started [.env .dmaXfer]).Inv ∧ (at_ running started [.env .dmaXfer]).Coupled ∧
    (at_ running started [.env .dmaXfer]).WireInOrder ∧
    PlatformKeeps (at_ running started [.env .dmaXfer]) (takeEvent (at_ running started [.env .dmaXfer])).1 ∧
    ∃ t, step (at_ running started [.env .dmaXfer]) = .next t ∧ t.ext.dRemain = 8 := by
  refine ⟨⟨inv_running, words_wf⟩, fun _ _ => coupled_running, wire_running _, keeps_xfer, _, rfl, rfl⟩

theorem witness_ArmingSendsEightOperationsInOrder :
    (at_ armed Adapter.reset (List.replicate 8 .seq ++ [])).Inv ∧ armed.faulted = false ∧ armed.seqPc = .arm0 ∧
    admits (at_ armed).platform ((at_ armed).blk.slotAddr (at_ armed).blk.tail.toNat) = true :=
  ⟨⟨inv_armed, words_wf⟩, rfl, rfl, by decide⟩

theorem witness_BurstReachesTheWire :
    (at_ armed Adapter.reset (List.replicate 8 .seq ++ burstEvents 10 ++ [])).Inv ∧
    (at_ armed Adapter.reset (List.replicate 8 .seq ++ burstEvents 10 ++ [])).Coupled ∧
    armed.inited = true ∧ armed.faulted = false ∧ armed.seqPc = .arm0 ∧ armed.session.toNat = 10 ∧
    ∀ i, i < 10 → admits (at_ armed).platform ((at_ armed).blk.slotAddr ((at_ armed).blk.tail.toNat + i)) = true :=
  ⟨⟨inv_armed, words_wf⟩, fun _ _ => coupled_armed, rfl, rfl, rfl, by decide, by decide⟩

theorem witness_EachIndexHasOneWriter :
    (let s := at_ ring Adapter.reset [.access .producer 0 32 (.write 0x00020002)]
     takeEvent s = (.access .producer 0 32 (.write 0x00020002), []) ∧ (Event.access .producer 0 32 (.write 0x00020002)) ≠ .reset ∧
      ∃ t, step s = .next t ∧ t.blk.head ≠ s.blk.head) ∧
    (let s := at_ lastRetire Adapter.reset [.seq]
     takeEvent s = (.seq, []) ∧ ∃ t, step s = .next t ∧ t.blk.tail ≠ s.blk.tail) :=
  ⟨⟨rfl, by decide, _, rfl, by decide⟩, rfl, _, rfl, by decide⟩

theorem witness_RingIsNeverResized :
    (at_ ring Adapter.reset [.access .producer 0 32 (.write 0x00800001)]).blk.inited = true ∧
    (∃ t, step (at_ ring Adapter.reset [.access .producer 0 32 (.write 0x00800001)]) = .next t) ∧
    (takeEvent (at_ ring Adapter.reset [.access .producer 0 32 (.write 0x00800001)])).1 ≠ .reset :=
  ⟨rfl, ⟨_, rfl⟩, by decide⟩

theorem witness_RetireTakesTheCommittedCount :
    (let s := at_ lastRetire Adapter.reset [.seq]
     s.Inv ∧ s.blk.inited = true ∧ takeEvent s = (.seq, []) ∧ (Event.seq ≠ .reset) ∧ s.blk.state ≠ .idle ∧
      ∃ t, step s = .next t) :=
  ⟨⟨inv_lastRetire, words_wf⟩, rfl, rfl, by decide, by decide, _, rfl⟩

theorem witness_NoBurstWraps :
    Block.Inv running ∧ running.inited = true ∧ running.state ≠ .idle ∧ running.programmed = true ∧
    8 < running.descLen.toNat ∧ (Block.Inv (wrapping 0) ∧ (wrapping 0).state ≠ .idle) :=
  ⟨inv_running, rfl, by decide, rfl, by decide, inv_wrapping_0, by decide⟩

/-- At both sides of the boundary: 2 words and 1 word wrapped to slot 0. -/
theorem witness_WrappedRegionIsSentNext :
    ((at_ (wrapping 2)).Inv ∧ (wrapping 2).inited = true ∧ (wrapping 2).faulted = false ∧ (wrapping 2).seqPc = .ret2 ∧
      (wrapping 2).tail.toNat + (wrapping 2).session.toNat = (wrapping 2).n.toNat ∧ 2 ≤ (wrapping 2).head.toNat) ∧
    ((at_ (wrapping 1)).Inv ∧ (wrapping 1).head.toNat ≤ 1) :=
  ⟨⟨⟨inv_wrapping_2, words_wf⟩, rfl, rfl, rfl, by decide, by decide⟩, ⟨inv_wrapping_1, words_wf⟩, by decide⟩

/-- Vector CP7's stall, with the ENQ that does not help. -/
def stalled : Block := { ring with head := 255, tail := 255 }

theorem inv_stalled : Block.Inv stalled := by constructor <;> decide

theorem witness_TailInTheLastSlotStalls :
    (let s := at_ stalled Adapter.reset [.access .producer 0 32 (.write 0x000A0002)]
     s.Inv ∧ s.blk.inited = true ∧ s.blk.state = .idle ∧ s.blk.tail.toNat = s.blk.n.toNat - 1 ∧
      (∃ t, step s = .next t ∧ t.blk.head = 9) ∧ (takeEvent s).1 ≠ .reset) :=
  ⟨⟨inv_stalled, words_wf⟩, rfl, rfl, by decide, ⟨_, rfl, by decide⟩, by decide⟩

/-- OnlyEnqLeavesIdle too: the second word of a ring of 3 slots arms; and a RET2 that arms the next burst. -/
theorem witness_SmallRingsNeverTransmit :
    (let s := at_ small Adapter.reset [.access .producer 0 32 (.write 0x00010002)]
     s.Inv ∧ s.blk.inited = true ∧ s.blk.state = .idle ∧
      takeEvent s = (.access .producer 0 32 (.write 0x00010002), []) ∧
      (∃ t, step s = .next t ∧ t.blk.state ≠ .idle) ∧ s.blk.n.toNat = 3) ∧
    (let s := at_ (wrapping 2)
     s.Inv ∧ s.blk.inited = true ∧ s.blk.state = .retiring ∧ ∃ t, step s = .next t ∧ t.blk.state = .armed) ∧
    (Block.Inv (wrapping 2) ∧ (wrapping 2).inited = true ∧ (wrapping 2).state ≠ .idle) :=
  ⟨⟨⟨inv_small, words_wf⟩, rfl, rfl, rfl, ⟨_, rfl, by decide⟩, by decide⟩,
    ⟨⟨inv_wrapping_2, words_wf⟩, rfl, rfl, _, rfl, rfl⟩, inv_wrapping_2, rfl, by decide⟩

/-- The adapter after DMA_TC. -/
def done : Adapter := { started with dRemain := 0, txq := [], txc := true, tcArmed := false, cflag := true, irqPend := true }

/-- The dispatch, then the three retire steps, which SEQ takes with nothing else to do. -/
theorem done_fixed : step (runFrom (at_ running done [.env .dispatch]) 4) = .next (runFrom (at_ running done [.env .dispatch]) 4) :=
  rfl

/-- In that run no environment step is left enabled, so it is fair. -/
theorem done_fair : EnvFair (runFrom (at_ running done [.env .dispatch])) := by
  intro e n he _
  refine ⟨n + 4, by omega, .inr ?_⟩
  rw [runFrom_fixed done_fixed (n + 4) (by omega)]
  rintro ⟨i, t, hi, ht⟩
  cases e with
  | wsbDone => exact he rfl
  | _ => cases hi; exact absurd (show Host.Outcome.fault Fault.notEnabled = _ from ht) (by simp)

theorem witness_RunningWaitsForCompletion :
    (let s := at_ running started [.env .shift]
     s.Inv ∧ takeEvent s = (.env .shift, []) ∧ (∃ t, step s = .next t) ∧ s.blk.state = .running ∧
      (Event.env .shift) ≠ .reset ∧ eventInstr s (.env .shift) ≠ some .envDispatch ∧
      eventInstr s (.env .shift) ≠ some .complete) ∧
    (let σ := runFrom (at_ running done [.env .dispatch])
     IsRun σ ∧ EnvFair σ ∧ (∀ m, 0 ≤ m → (σ m).blk.faulted = false ∧ (takeEvent (σ m)).1 ≠ .platformSetup) ∧
      (σ 0).blk.state = .running ∧ (σ 0).ext.irqPend = true) := by
  refine ⟨⟨⟨inv_running, words_wf⟩, rfl, ⟨_, rfl⟩, rfl, by decide, by decide, by decide⟩,
    isRun_of_fixed (k := 4) (fun i hi => ?_) done_fixed, done_fair, fun m _ => ?_, rfl, rfl⟩
  · interval_cases i <;> rfl
  · by_cases hm : m < 4
    · interval_cases m <;> exact ⟨rfl, by decide⟩
    · rw [runFrom_fixed done_fixed m (by omega)]
      exact ⟨rfl, by decide⟩

theorem witness_OnlyAdapterStepsChangeTheAdapter :
    ∃ t, exec (.wsb 1) (at_ ring) = .next t ∧ t.ext ≠ (at_ ring).ext := ⟨_, rfl, by decide⟩

theorem witness_RecordsAreNeverRead : ∃ t, step (at_ running started [.env .shift]) = .next t ∧ t.ext.wire = [0x1100] :=
  ⟨_, rfl, rfl⟩

theorem witness_OnlyEnqAndStoresChangeMemory :
    (let s := at_ ring Adapter.reset [.store .producer 0x20000200 7]
     takeEvent s = (.store .producer 0x20000200 7, []) ∧ ∃ t, step s = .next t ∧ t.mem ≠ s.mem) := ⟨rfl, _, rfl, by decide⟩

/-- OutsideInputs, at both ends of the backing store. -/
theorem witness_OutsideInputs :
    (∀ a : Word, a = 0x20000000 ∨ a = 0x200001FF → ring.inited = true ∧ ring.base.toNat ≤ a.toNat ∧
      a.toNat < ring.base.toNat + 2 * ring.n.toNat) ∧
    (0x1FFFFFFF : Word).toNat < ring.base.toNat ∧ ring.base.toNat + 2 * ring.n.toNat ≤ (0x20000200 : Word).toNat ∧
    (at_ Block.reset Adapter.reset [.platformSetup]).sched = .platformSetup :: [] := by
  refine ⟨?_, by decide, by decide, rfl⟩
  rintro a (rfl | rfl) <;> decide

theorem witness_HalfwordsAreLittleEndian :
    Memory.wf words ∧ (5 : Nat) ≠ (0xFFFFFFFF : Word).toNat ∧ (5 : Nat) ≠ ((0xFFFFFFFF : Word) + 1).toNat :=
  ⟨words_wf, by decide, by decide⟩

theorem witness_PseudoInstructionsExpand :
    (0xFFFF < 2 ^ 16 ∧ 2 ^ 16 ≤ 0x10000) ∧ (∃ t, exec .rdStatus (at_ ring) = .next t) ∧
    (at_ ring).blk.Inv ∧ (at_ ring).blk.inited = true ∧ ∃ t, exec .rdLevel (at_ ring) = .next t :=
  ⟨by decide, ⟨_, rfl⟩, inv_ring, rfl, _, rfl⟩

end Sys2Proof.Tests
end

section
/-! SUPPORT. The step through the event it takes, for the statements of 00_scope.md. -/

namespace Sys2Proof.Machine

theorem step_eq_turn {s : State} {e : Event} {rest : List Event} (h : takeEvent s = (e, rest)) :
    step s = turn e (s.setSched rest) := by
  simp [step, h]

/-- Which code an event presents does not depend on the events still to come. -/
@[simp] theorem eventCode_setSched (s : State) (l : List Event) (e : Event) :
    eventCode (s.setSched l) e = eventCode s e := by
  cases e <;> rfl

/-- The turn of an event that presents a code that decodes to an instruction settles that instruction's outcome. -/
theorem turn_of_decode {s : State} {e : Event} {c : Code} {i : Instr} (hc : eventCode s e = some c)
    (hi : decode c = .ok i) : turn e s = settle e.agent s (exec i s) := by
  have hrun : runCode e s = settle e.agent s (exec i s) := by simp only [runCode, hc, hi]
  cases e with
  | access who addr size dir => exact hrun
  | seq => exact hrun
  | env v => exact hrun
  | adapterWord w => exact hrun
  | reset => simp [eventCode] at hc
  | platformSetup => simp [eventCode] at hc
  | store who addr v => simp [eventCode] at hc

/-- R184: the agent whose access makes WSB_PENDING rise is noted. -/
theorem noteWsb_some (a : Agent) (s t : State) :
    noteWsb (some a) s t =
      if s.blk.wsbPending = false ∧ t.blk.wsbPending = true then t.setWsbAgent a else t := by
  cases hs : s.blk.wsbPending <;> cases ht : t.blk.wsbPending <;> simp [noteWsb, hs, ht]

/-- R62: the two ends of the backing store. -/
theorem Block.inStore_iff (b : Block) (a : Nat) :
    b.inStore a = true ↔ b.base.toNat ≤ a ∧ a < b.base.toNat + 2 * b.n.toNat := by
  simp [Block.inStore]

/-- R62: an address on either side of the backing store. -/
theorem Block.inStore_eq_false (b : Block) (a : Nat) :
    b.inStore a = false ↔ a < b.base.toNat ∨ b.base.toNat + 2 * b.n.toNat ≤ a := by
  rw [← Bool.not_eq_true, Block.inStore_iff]
  omega

/-- R76: a store that hits the backing store of a ring in use has no next state. -/
theorem turn_store_refused {s : State} {addr : Word} (hi : s.blk.inited = true)
    (ha : s.blk.inStore addr.toNat = true) (who : Agent) (v : Byte) :
    turn (.store who addr v) s = .refused (.foreignRingStore addr) := by
  simp [turn, foreignStore, hi, ha]

/-- R69: every other store writes its byte and nothing else. -/
theorem turn_store_next {s : State} {addr : Word} (h : s.blk.inited = false ∨ s.blk.inStore addr.toNat = false)
    (who : Agent) (v : Byte) : turn (.store who addr v) s = .next (s.setMem (Memory.write s.mem addr.toNat v)) := by
  rcases h with h | h <;> simp [turn, foreignStore, h]

/-- R5: no event changes the platform's parameters. -/
theorem turn_platform {e : Event} {s t : State} (h : turn e s = .next t) : t.platform = s.platform := by
  rcases turn_next h with rfl | ⟨_, _, _, _, _, rfl⟩ | ⟨_, rfl⟩ | ⟨_, rfl⟩ | ⟨_, _, _, _, _, rfl⟩ |
    ⟨_, _, u, _, _, hu, rfl⟩
  · rfl
  · exact noteStuck_platform _ _
  · rfl
  · rfl
  · rfl
  · rw [noteWsb_platform]
    exact (exec_frame hu).1

/-- R5: no step changes the platform's parameters. -/
theorem step_platform {s t : State} (h : step s = .next t) : t.platform = s.platform :=
  (turn_platform h).trans (State.setSched_platform s _)

end Sys2Proof.Machine

/-! The statements of 00_scope.md that this part settles. -/

open Sys2Proof Sys2Proof.Machine

/-- Settles O6: the step is the taken event's turn, and the turn settles the outcome of exec, read off outcome by outcome. -/
theorem stepRunsTheDecodedInstruction : Obligations.StepRunsTheDecodedInstruction := by
  intro s e rest c i htake hcode hdec
  have hstep : step s = settle e.agent { s with sched := rest } (exec i { s with sched := rest }) := by
    rw [step_eq_turn htake]
    exact turn_of_decode (by rwa [eventCode_setSched]) hdec
  rw [hstep]
  cases exec i { s with sched := rest } with
  | next t =>
    cases e.agent with
    | none => rfl
    | some a => exact congrArg Host.Outcome.next (noteWsb_some a _ t)
  | fault f => cases f <;> cases e.agent <;> rfl
  | refused r => rfl

/-- Settles O58: a store by its place against the backing store, the platform's setup as the first event, which never waits,
and the parameters by the cases of one turn. -/
theorem outsideInputs : Obligations.OutsideInputs := by
  intro s rest
  refine ⟨fun who addr v htake => ⟨?_, fun hout => ?_⟩, fun hsched => ?_, fun t => step_platform⟩
  · rintro ⟨hi, hlo, hhi⟩
    rw [step_eq_turn htake]
    exact turn_store_refused (s := s.setSched rest) hi ((Block.inStore_iff _ _).mpr ⟨hlo, hhi⟩) who v
  · rw [step_eq_turn htake]
    exact turn_store_next (s := s.setSched rest) (hout.imp_right (Block.inStore_eq_false _ _).mpr) who v
  · exact ⟨_, step_cons hsched (waits_of_no_agent rfl), rfl, rfl, rfl, rfl, rfl, rfl, rfl, rfl, rfl, rfl, rfl⟩

end

section
/-! SUPPORT. The invariant of 10_state.md (R22, R26, R30, R39): one lemma per way in which the block's registers change, then
every effect of an instruction, then every event. CHUNK is where it turns: INIT, ENQ and RET2 leave a ring at rest whose run is
anything, and CHUNK arms it when the run is 2 or more. -/

namespace Sys2Proof.Machine

/-! ### Index arithmetic under R26 -/

/-- R110: the occupancy is at most `N - 1`. -/
theorem occOf_le {head tail n : Nat} (hh : head < n) (ht : tail < n) : occOf head tail n ≤ n - 1 := by
  unfold occOf
  split <;> omega

/-- R110, R113: `len` words that fit raise the occupancy by `len`. -/
theorem occOf_add {head tail n len : Nat} (hh : head < n) (ht : tail < n) (hl : len ≤ availOf head tail n) :
    occOf ((head + len) % n) tail n = occOf head tail n + len := by
  have hfit : occOf head tail n + len ≤ n - 1 := by
    have := occOf_le hh ht
    simp only [availOf] at hl
    omega
  have hmod : (head + len) % n = if head + len < n then head + len else head + len - n := by
    split
    · exact Nat.mod_eq_of_lt ‹_›
    · rw [Nat.mod_eq_sub_mod (by omega), Nat.mod_eq_of_lt (by omega)]
  rw [hmod]
  unfold occOf at hfit ⊢
  split at hfit <;> split <;> split <;> omega

/-- R111: occupancy and available space add up to `N - 1`. -/
theorem Block.occ_add_avail {b : Block} (hh : b.head.toNat < b.n.toNat) (ht : b.tail.toNat < b.n.toNat) :
    b.occ + b.avail = b.n.toNat - 1 :=
  Nat.add_sub_of_le (occOf_le hh ht)

/-- R130: an empty ring has no run. -/
theorem Block.run_of_empty {b : Block} (h : b.head = b.tail) : b.run = 0 := by
  simp [Block.run, runOf, occOf, h]

/-- An index taken modulo a slot count that R22 admits fits in its 8 bits and is below the count. -/
theorem toNat_ofNat_mod {k n : Nat} (h1 : 1 ≤ n) (h2 : n ≤ 256) : (BitVec.ofNat 8 (k % n)).toNat = k % n := by
  have := Nat.mod_lt k h1
  rw [BitVec.toNat_ofNat]
  exact Nat.mod_eq_of_lt (by omega)

/-! ### What STATE and SEQ_PC say of descriptor and channel -/

/-- `Block.programmed`, read off STATE and SEQ_PC alone. -/
def programmedAt (st : BurstState) (p : SeqStep) : Bool := st == .running || (4 ≤ p.code.toNat && p.code.toNat ≤ 8)

/-- `Block.channelOn`, read off STATE and SEQ_PC alone. -/
def channelOnAt (st : BurstState) (p : SeqStep) : Bool := st == .running || (5 ≤ p.code.toNat && p.code.toNat ≤ 10)

theorem Block.programmed_eq (b : Block) : b.programmed = programmedAt b.state b.seqPc := rfl

theorem Block.channelOn_eq (b : Block) : b.channelOn = channelOnAt b.state b.seqPc := rfl

/-- R136, R152: DESC_EN is read off STATE and SEQ_PC. -/
theorem Block.Inv.descEn_eq {b : Block} (h : b.Inv) : b.descEn = channelOnAt b.state b.seqPc :=
  Bool.eq_iff_iff.mpr h.channel

/-! ### A ring at rest -/

/-- An initialised block with no burst in flight and no WSB pending, whatever its run: what INIT, an ENQ and the retire leave
for CHUNK. -/
structure Block.AtRest (b : Block) : Prop where
  inited : b.inited = true
  idle : b.state = .idle
  noStep : b.seqPc = .none
  invalid : b.sessionValid = false
  channelOff : b.descEn = false
  noWsb : b.wsbPending = false
  slots : 1 ≤ b.n.toNat ∧ b.n.toNat ≤ 256
  store : b.base.toNat + 2 * b.n.toNat ≤ 2 ^ 32
  even : oddAddr b.base = false ∧ oddAddr b.descDst = false
  indexes : b.head.toNat < b.n.toNat ∧ b.tail.toNat < b.n.toNat
  cause : b.faulted = false → b.cause = .none ∧ b.finfo = 0
  caused : b.faulted = true → b.cause ≠ .none

/-- R39(iv): a ring at rest with less than two words to send meets the invariant. -/
theorem Block.AtRest.inv {b : Block} (h : b.AtRest) (hr : b.run ≤ 1) : b.Inv where
  beforeInit hi := absurd (hi.symm.trans h.inited) Bool.false_ne_true
  slots _ := h.slots
  store _ := h.store
  even _ := h.even
  indexes _ := h.indexes
  armed := by rw [h.idle, h.noStep]; decide
  retiring := by rw [h.idle, h.noStep]; decide
  valid := by rw [h.idle, h.invalid]; decide
  session hs := absurd h.idle hs
  idleRun _ _ := hr
  descriptor hp := by
    rw [Block.programmed_eq, h.idle, h.noStep] at hp
    exact absurd hp Bool.false_ne_true
  channel := by
    rw [Block.channelOn_eq, h.idle, h.noStep, h.channelOff]
    exact Iff.rfl
  wsb _ := h.idle
  cause := h.cause
  caused := h.caused

/-- R130: the run fits in SESSION's 8 bits and ends inside the store. -/
theorem Block.AtRest.run_bounds {b : Block} (h : b.AtRest) :
    (BitVec.ofNat 8 b.run).toNat = b.run ∧ b.run ≤ b.occ ∧ b.tail.toNat + b.run ≤ b.n.toNat := by
  obtain ⟨hh, ht⟩ := h.indexes
  have hn := h.slots.2
  have hocc : b.run ≤ b.occ := min_le_left _ _
  have hend : b.run ≤ b.n.toNat - b.tail.toNat := min_le_right _ _
  have hle : b.occ ≤ b.n.toNat - 1 := occOf_le hh ht
  refine ⟨?_, hocc, by omega⟩
  rw [BitVec.toNat_ofNat]
  exact Nat.mod_eq_of_lt (by omega)

/-- R131, R39(iii): a ring at rest with two words or more to send meets the invariant once it is armed. -/
theorem Block.AtRest.arm {b : Block} (h : b.AtRest) (hr : 2 ≤ b.run) :
    Block.Inv { b with
      session := BitVec.ofNat 8 b.run, sessionValid := true, state := .armed, seqPc := .arm0 } where
  beforeInit hi := absurd (hi.symm.trans h.inited) Bool.false_ne_true
  slots _ := h.slots
  store _ := h.store
  even _ := h.even
  indexes _ := h.indexes
  armed := iff_of_true rfl rfl
  retiring := iff_of_false nofun Bool.false_ne_true
  valid := iff_of_true rfl nofun
  session _ := by
    obtain ⟨hrun, hocc, hend⟩ := h.run_bounds
    rw [hrun]
    exact ⟨hr, hocc, hend⟩
  idleRun _ := nofun
  descriptor hp := absurd hp Bool.false_ne_true
  channel := by
    rw [show b.descEn = false from h.channelOff]
    exact Iff.rfl
  wsb hw := absurd (h.noWsb.symm.trans hw) Bool.false_ne_true
  cause := h.cause
  caused := h.caused

/-- R131: CHUNK makes a ring at rest meet the invariant: a short run stays unsent, a longer one is armed. -/
theorem Block.AtRest.chunk {b : Block} (h : b.AtRest) : (chunkBlock b).Inv := by
  rcases chunkBlock_cases b with ⟨heq, hs | hr⟩ | ⟨-, hr, heq⟩ <;> rw [heq]
  · exact absurd h.idle hs
  · exact h.inv hr
  · exact h.arm hr

/-! ### The block's registers, changed in one way each -/

theorem Block.inv_reset : Block.Inv Block.reset := by constructor <;> decide

/-- R212: a fault with a cause. -/
theorem Block.Inv.fault {b : Block} (h : b.Inv) {c : FaultCause} (hc : c ≠ .none) (v : Word) :
    Block.Inv { b with faulted := true, cause := c, finfo := v } :=
  { h with
    cause := nofun
    caused := fun _ => hc }

/-- R230: a burst is in flight only after INIT. -/
theorem Block.Inv.inited_of_busy {b : Block} (h : b.Inv) (hs : b.state ≠ .idle) : b.inited = true := by
  cases hi : b.inited
  · exact absurd (h.beforeInit hi).1 hs
  · rfl

/-- R30: SEQ_PC is NONE while STATE is neither Armed nor Retiring. -/
theorem Block.Inv.seqPc_none {b : Block} (h : b.Inv) (ha : b.state ≠ .armed) (hr : b.state ≠ .retiring) :
    b.seqPc = .none := by
  have hna := mt h.armed.mpr ha
  have hnr := mt h.retiring.mpr hr
  cases hp : b.seqPc <;> simp [hp, SeqStep.isArm, SeqStep.isRet, SeqStep.code] at hna hnr ⊢

/-- R143: a burst in flight and a pending WSB exclude each other. -/
theorem Block.Inv.noWsb_of_busy {b : Block} (h : b.Inv) (hs : b.state ≠ .idle) : b.wsbPending = false := by
  cases hw : b.wsbPending
  · rfl
  · exact absurd (h.wsb hw) hs

/-- An initialised Idle block without a pending WSB is at rest. -/
theorem Block.Inv.atRest {b : Block} (h : b.Inv) (hi : b.inited = true) (hs : b.state = .idle)
    (hw : b.wsbPending = false) : b.AtRest := by
  have hp : b.seqPc = .none := h.seqPc_none (by simp [hs]) (by simp [hs])
  have hv : b.sessionValid = false := Bool.eq_false_iff.mpr fun hv => h.valid.mp hv hs
  have hd : b.descEn = false := h.descEn_eq.trans (by rw [hs, hp]; rfl)
  exact ⟨hi, hs, hp, hv, hd, hw, h.slots hi, h.store hi, h.even hi, h.indexes hi, h.cause, h.caused⟩

/-- R112: the registers INIT sets up are a ring at rest. -/
theorem Block.Inv.initAtRest {b : Block} (h : b.Inv) {n : Half} (hw : b.wsbPending = false) (hi : b.inited = false)
    (h1 : 1 ≤ n.toNat) (h2 : n.toNat ≤ 256) (hb : oddAddr b.arg0 = false) (hd : oddAddr b.arg1 = false)
    (hr : rangeOverflows b.arg0 n.toNat = false) :
    Block.AtRest { b with
      n := n.setWidth 9, base := b.arg0, descDst := b.arg1, head := 0, tail := 0,
      state := .idle, sessionValid := false, seqPc := .none, inited := true } := by
  obtain ⟨-, -, -, -, hen⟩ := h.beforeInit hi
  have hn : (n.setWidth 9).toNat = n.toNat := by
    rw [BitVec.toNat_setWidth]
    exact Nat.mod_eq_of_lt (by omega)
  have hend : b.arg0.toNat + 2 * n.toNat ≤ 2 ^ 32 := by
    simp only [rangeOverflows, decide_eq_false_iff_not] at hr
    omega
  rw [← hn] at h1 h2 hend
  exact ⟨rfl, rfl, rfl, rfl, hen, hw, ⟨h1, h2⟩, hend, ⟨hb, hd⟩, ⟨h1, h1⟩, h.cause, h.caused⟩

/-- R113: wherever in the ring HEAD moves, a ring at rest stays one. -/
theorem Block.AtRest.setHead {b : Block} (h : b.AtRest) (k : Nat) (r : Bool) :
    Block.AtRest { b with head := BitVec.ofNat 8 (k % b.n.toNat), result := r } :=
  { h with
    indexes := by
      obtain ⟨h1, h2⟩ := h.slots
      show (BitVec.ofNat 8 (k % b.n.toNat)).toNat < b.n.toNat ∧ _
      rw [toNat_ofNat_mod h1 h2]
      exact ⟨Nat.mod_lt _ h1, h.indexes.2⟩ }

/-- R113, R143: an ENQ that is queued while a burst is in flight. -/
theorem Block.Inv.enqBusy {b : Block} (h : b.Inv) (hs : b.state ≠ .idle) {len : Nat} (hl : len ≤ b.avail) :
    Block.Inv { b with head := BitVec.ofNat 8 ((b.head.toNat + len) % b.n.toNat), result := false } := by
  have hi := h.inited_of_busy hs
  obtain ⟨h1, h2⟩ := h.slots hi
  obtain ⟨hh, ht⟩ := h.indexes hi
  have hhead := toNat_ofNat_mod (k := b.head.toNat + len) h1 h2
  exact
    { h with
      indexes := fun _ => by
        show (BitVec.ofNat 8 ((b.head.toNat + len) % b.n.toNat)).toNat < b.n.toNat ∧ _
        rw [hhead]
        exact ⟨Nat.mod_lt _ h1, ht⟩
      session := fun _ => by
        obtain ⟨hlow, hocc, hend⟩ := h.session hs
        have hnew : Block.occ { b with head := BitVec.ofNat 8 ((b.head.toNat + len) % b.n.toNat), result := false } =
            b.occ + len := by
          simp only [Block.occ, hhead]
          exact occOf_add hh ht hl
        exact ⟨hlow, hnew ▸ Nat.le_add_right_of_le hocc, hend⟩
      idleRun := fun _ hc => absurd hc hs }

/-- R113: a queued ENQ, CHUNK included. -/
theorem Block.Inv.enq {b : Block} (h : b.Inv) (hi : b.inited = true) (hw : b.wsbPending = false) {len : Nat}
    (hl : len ≤ b.avail) :
    (chunkBlock { b with head := BitVec.ofNat 8 ((b.head.toNat + len) % b.n.toNat), result := false }).Inv := by
  by_cases hs : b.state = .idle
  · exact ((h.atRest hi hs hw).setHead _ _).chunk
  · rw [chunkBlock_busy (by exact hs)]
    exact h.enqBusy hs hl

/-- R184: a WSB from Idle. -/
theorem Block.Inv.setWsb {b : Block} (h : b.Inv) (hi : b.inited = true) (hs : b.state = .idle) :
    Block.Inv { b with wsbPending := true } :=
  { h with
    beforeInit := fun hc => absurd (hc.symm.trans hi) Bool.false_ne_true
    wsb := fun _ => hs }

/-- R185: the pending WSB is done. -/
theorem Block.Inv.clearWsb {b : Block} (h : b.Inv) : Block.Inv { b with wsbPending := false } :=
  { h with
    beforeInit := fun hi => by
      obtain ⟨hs, hp, hv, -, hd⟩ := h.beforeInit hi
      exact ⟨hs, hp, hv, rfl, hd⟩
    wsb := nofun }

/-! ### A burst in flight moves on -/

/-- STATE and SEQ_PC agree on a burst in flight (R27, R30). -/
abbrev InFlight (st : BurstState) (p : SeqStep) : Prop :=
  st ≠ .idle ∧ (st = .armed ↔ SeqStep.isArm p = true) ∧ (st = .retiring ↔ SeqStep.isRet p = true)

/-- A burst in flight moves to another step: descriptor and channel are what the new step asks for (R39(v)), and the ring, the
session and the fault registers stay. -/
theorem Block.Inv.advance {b : Block} (h : b.Inv) (hs : b.state ≠ .idle) {st : BurstState} {p : SeqStep} {src : Word}
    {len : BitVec 8} {en minc pinc : Bool} {wsize : BitVec 2} (hf : InFlight st p)
    (hdesc : programmedAt st p = true → src = b.slotAddr (b.tail.toNat + 1) ∧ len.toNat = b.session.toNat - 1)
    (hchan : en = channelOnAt st p) :
    Block.Inv { b with
      state := st, seqPc := p, descSrc := src, descLen := len, descEn := en, descMinc := minc, descPinc := pinc,
      descWsize := wsize } := by
  obtain ⟨hst, harmed, hretiring⟩ := hf
  exact
    { h with
      beforeInit := fun hc => absurd (hc.symm.trans (h.inited_of_busy hs)) Bool.false_ne_true
      armed := harmed
      retiring := hretiring
      valid := iff_of_true (h.valid.mpr hs) hst
      session := fun _ => h.session hs
      idleRun := fun _ hc => absurd hc hst
      descriptor := hdesc
      channel := by rw [hchan]; exact Iff.rfl
      wsb := fun hw => absurd (h.wsb hw) hs }

/-- What the move from one step of a burst to another asks for when descriptor and channel stay. -/
abbrev Follows (st : BurstState) (p : SeqStep) (st' : BurstState) (p' : SeqStep) : Prop :=
  st ≠ .idle ∧ InFlight st' p' ∧ (programmedAt st' p' = true → programmedAt st p = true) ∧
    channelOnAt st' p' = channelOnAt st p

/-- A burst in flight moves to a step that leaves descriptor and channel as they were. -/
theorem Block.Inv.follow {b : Block} (h : b.Inv) {st' : BurstState} {p' : SeqStep}
    (hf : Follows b.state b.seqPc st' p') : Block.Inv { b with state := st', seqPc := p' } := by
  obtain ⟨hs, hf, hprog, hchan⟩ := hf
  exact h.advance hs hf (fun hp => h.descriptor (hprog hp)) (h.descEn_eq.trans hchan.symm)

/-- R30: an arming step is held exactly while STATE is Armed. -/
theorem Block.Inv.armed_of_seqPc {b : Block} (h : b.Inv) {p : SeqStep} (hp : b.seqPc = p) (ha : SeqStep.isArm p = true) :
    b.state = .armed := h.armed.mpr (hp ▸ ha)

/-- R30: a retire step is held exactly while STATE is Retiring. -/
theorem Block.Inv.retiring_of_seqPc {b : Block} (h : b.Inv) {p : SeqStep} (hp : b.seqPc = p) (hr : SeqStep.isRet p = true) :
    b.state = .retiring := h.retiring.mpr (hp ▸ hr)

/-- R133, R134, R137 to R139: an arming step hands on to the next one. -/
theorem Block.Inv.nextArm {b : Block} (h : b.Inv) {p p' : SeqStep} (hp : b.seqPc = p) (ha : SeqStep.isArm p = true)
    (hf : Follows .armed p .armed p') : Block.Inv { b with seqPc := p' } := by
  have hs := h.armed_of_seqPc hp ha
  rw [← hp, ← hs] at hf
  exact h.follow hf

/-- R135: ARM2 writes the descriptor of the burst in flight. -/
theorem Block.Inv.arm2 {b : Block} (h : b.Inv) (hp : b.seqPc = .arm2) :
    Block.Inv { b with
      seqPc := .arm3, descSrc := b.slotAddr (b.tail.toNat + 1), descLen := BitVec.ofNat 8 (b.session.toNat - 1),
      descMinc := true, descPinc := false, descWsize := 0b01 } := by
  have hs := h.armed_of_seqPc hp rfl
  have hlen : (BitVec.ofNat 8 (b.session.toNat - 1)).toNat = b.session.toNat - 1 := by
    rw [BitVec.toNat_ofNat]
    exact Nat.mod_eq_of_lt (by omega)
  refine h.advance (by simp [hs]) (by rw [hs]; decide) (fun _ => ⟨rfl, hlen⟩) ?_
  rw [h.descEn_eq, hs, hp]
  rfl

/-- R136: ARM3 enables the channel. -/
theorem Block.Inv.arm3 {b : Block} (h : b.Inv) (hp : b.seqPc = .arm3) :
    Block.Inv { b with seqPc := .arm4, descEn := true } := by
  have hs := h.armed_of_seqPc hp rfl
  refine h.advance (by simp [hs]) (by rw [hs]; decide) (fun _ => h.descriptor ?_) ?_
  · rw [Block.programmed_eq, hs, hp]; rfl
  · rw [hs]; rfl

/-- R152: RET1 disables the channel. -/
theorem Block.Inv.ret1 {b : Block} (h : b.Inv) (hp : b.seqPc = .ret1) :
    Block.Inv { b with seqPc := .ret2, descEn := false } := by
  have hs := h.retiring_of_seqPc hp rfl
  refine h.advance (by simp [hs]) (by rw [hs]; decide) (fun hc => ?_) ?_
  · rw [hs] at hc; exact absurd hc Bool.false_ne_true
  · rw [hs]; rfl

/-- R153: RET2 retires the session and leaves a ring at rest. -/
theorem Block.Inv.retireAtRest {b : Block} (h : b.Inv) (hp : b.seqPc = .ret2) : (retireBlock b).AtRest := by
  have hs := h.retiring_of_seqPc hp rfl
  have hbusy : b.state ≠ .idle := by simp [hs]
  have hi := h.inited_of_busy hbusy
  obtain ⟨h1, h2⟩ := h.slots hi
  have htail := toNat_ofNat_mod (k := b.tail.toNat + b.session.toNat) h1 h2
  exact
    { inited := hi
      idle := rfl
      noStep := rfl
      invalid := rfl
      channelOff := h.descEn_eq.trans (by rw [hs, hp]; rfl)
      noWsb := h.noWsb_of_busy hbusy
      slots := ⟨h1, h2⟩
      store := h.store hi
      even := h.even hi
      indexes := ⟨(h.indexes hi).1, htail.trans_lt (Nat.mod_lt _ h1)⟩
      cause := h.cause
      caused := h.caused }

/-- R150: a completion of the running burst. -/
theorem Block.Inv.complete {b : Block} (h : b.Inv) (hs : b.state = .running) :
    Block.Inv { b with state := .retiring, seqPc := .ret0 } :=
  h.follow (by
    rw [h.seqPc_none (by simp [hs]) (by simp [hs]), hs]
    decide)

/-! ### Every effect -/

/-- Every effect of an instruction keeps the block's invariant. CHUNK alone is left out: it has no event of its own (R99), and
before INIT it could arm a burst. -/
theorem Effect.keeps_blockInv {s t : State} {i : Instr} (h : s.blk.Inv) (he : Effect s i t) (hne : i ≠ .chunk) :
    t.blk.Inv := by
  cases he with
  | nothing | read | adapter | envDmaXfer | envDmaTc | envShift | dispatchFrozen => exact h
  | fault _ c v hc | faultRead _ c v hc | dispatchFault c v hc => exact h.fault hc v
  | init n hf hw hi h1 h2 h3 h4 h5 =>
    exact (h.initAtRest hw hi h1 h2 h3 h4 h5).inv ((Block.run_of_empty rfl).trans_le (Nat.zero_le 1))
  | enqDropped | wrArg0 | wrArg1 => exact { h with }
  | enqQueued len m hf hw hi ho hr ha => exact h.enq hi hw ha
  | wsb w hf hw hi hs => exact h.setWsb hi hs
  | complete hf hi hs | dispatch _ hf hi hs => exact h.complete hs
  | chunk => exact absurd rfl hne
  | arm0 hp | arm1 hp | arm4 hp | arm5 hp | arm6 hp =>
    exact h.nextArm hp rfl (by decide)
  | arm2 hp => exact h.arm2 hp
  | arm3 hp => exact h.arm3 hp
  | arm7 hp =>
    exact h.follow (by rw [h.armed_of_seqPc hp rfl, hp]; decide)
  | ret0 hp =>
    have hs := h.retiring_of_seqPc hp rfl
    have hf : Follows s.blk.state s.blk.seqPc s.blk.state .ret1 := by
      rw [hs, hp]; decide
    exact h.follow hf
  | ret1 hp => exact h.ret1 hp
  | ret2 hp => exact (h.retireAtRest hp).chunk
  | wsbDone => exact h.clearWsb

/-- Every effect of an instruction keeps the canonical form of memory. -/
theorem Effect.keeps_memoryWf {s t : State} {i : Instr} (h : Memory.wf s.mem) (he : Effect s i t) : Memory.wf t.mem := by
  cases he with
  | enqQueued len m hf hw hi ho hr ha hm => exact copyWords_wf h hm
  | _ => exact h

/-! ### CHUNK has no code (R99) -/

theorem decodeCommand_ne_chunk (port : Port) (w : Word) : decodeCommand port w ≠ .chunk := by
  unfold decodeCommand
  cases port <;> repeat' split
  all_goals nofun

theorem decodeRead_ne_chunk (off : BitVec 6) : decodeRead off ≠ .chunk := by
  revert off
  decide

theorem decodeWrite_ne_chunk (off : BitVec 6) (v : Word) : decodeWrite off v ≠ .chunk := by
  unfold decodeWrite
  split
  · exact decodeCommand_ne_chunk .cmd v
  split
  · exact decodeCommand_ne_chunk .cpl v
  repeat' split
  all_goals nofun

theorem decodeAccess_ne_chunk (off : BitVec 6) (size : Nat) (dir : Dir) : decodeAccess off size dir ≠ .chunk := by
  unfold decodeAccess
  split
  · nofun
  · cases dir with
    | read => exact decodeRead_ne_chunk off
    | write v => exact decodeWrite_ne_chunk off v

theorem decodeSeq_ne_chunk (code : BitVec 4) : decodeSeq code ≠ .ok .chunk := by
  revert code
  decide

theorem decodeAdapter_ne_chunk (w : DWord) : decodeAdapter w ≠ .ok .chunk := by
  unfold decodeAdapter
  split
  case h_10 => nofun
  all_goals dsimp only; split_ifs <;> nofun

/-- R99: CHUNK runs only inside ENQ and RET2. -/
theorem ne_chunk_of_event {s : State} {e : Event} {c : Code} {i : Instr} (hc : eventCode s e = some c)
    (hi : decode c = .ok i) : i ≠ .chunk := by
  rintro rfl
  cases c with
  | access off size dir => exact decodeAccess_ne_chunk off size dir (Except.ok.inj hi)
  | seq code => exact decodeSeq_ne_chunk code hi
  | adapter w => exact decodeAdapter_ne_chunk w hi
  | env v => cases v <;> exact absurd hi (by decide)
  | chunk => cases e <;> simp [eventCode] at hc

/-! ### The event -/

/-- Every event keeps the invariant: a reset sets the registers to R45's, a store and an ENQ keep memory canonical. -/
theorem State.Inv.turn {e : Event} {s t : State} (h : s.Inv) (ht : turn e s = .next t) : t.Inv := by
  obtain ⟨hb, hm⟩ := h
  rcases turn_next ht with rfl | ⟨_, _, _, _, _, rfl⟩ | ⟨_, rfl⟩ | ⟨_, rfl⟩ | ⟨_, addr, v, _, _, rfl⟩ |
    ⟨_, i, u, hc, hi, hu, rfl⟩
  · exact ⟨hb, hm⟩
  · exact ⟨by simpa using hb, by simpa using hm⟩
  · exact ⟨Block.inv_reset, hm⟩
  · exact ⟨hb, hm⟩
  · exact ⟨hb, Memory.write_wf hm addr.isLt v⟩
  · have he := exec_effect hu
    refine ⟨?_, ?_⟩
    · rw [noteWsb_blk]
      exact he.keeps_blockInv hb (ne_chunk_of_event hc hi)
    · rw [noteWsb_mem]
      exact he.keeps_memoryWf hm

end Sys2Proof.Machine
end

section
/-! SUPPORT. Who writes what: TXRING's registers after a step, the two indexes (R24, R25), the adapter (R36). -/

namespace Sys2Proof.Machine

theorem eventInstr_of_decode {s : State} {e : Event} {c : Code} {i : Instr} (hc : eventCode s e = some c)
    (hi : decode c = .ok i) : eventInstr s e = some i := by
  simp only [eventInstr, hc, hi]

/-- TXRING's registers after one turn: as they were, or reset, or as an instruction that the event presents left them. -/
theorem turn_blk {e : Event} {s t : State} (h : turn e s = .next t) :
    t.blk = s.blk ∨ (e = .reset ∧ t.blk = Block.reset) ∨
      ∃ i u, eventInstr s e = some i ∧ Effect s i u ∧ t.blk = u.blk := by
  rcases turn_next h with rfl | ⟨_, _, _, _, _, rfl⟩ | ⟨he, rfl⟩ | ⟨_, rfl⟩ | ⟨_, _, _, _, _, rfl⟩ |
    ⟨_, i, u, hc, hi, hu, rfl⟩
  · exact .inl rfl
  · exact .inl (noteStuck_blk _ _)
  · exact .inr (.inl ⟨he, rfl⟩)
  · exact .inl rfl
  · exact .inl rfl
  · exact .inr (.inr ⟨i, u, eventInstr_of_decode hc hi, exec_effect hu, noteWsb_blk _ _ _⟩)

@[simp] theorem eventInstr_setSched (s : State) (l : List Event) (e : Event) :
    eventInstr (s.setSched l) e = eventInstr s e := by
  simp only [eventInstr, eventCode_setSched]

/-- `turn_blk` for the step that takes the event. -/
theorem step_blk {s t : State} {e : Event} {rest : List Event} (htake : takeEvent s = (e, rest))
    (h : step s = .next t) :
    t.blk = s.blk ∨ (e = .reset ∧ t.blk = Block.reset) ∨
      ∃ i u, eventInstr s e = some i ∧ Effect (s.setSched rest) i u ∧ t.blk = u.blk := by
  rw [step_eq_turn htake] at h
  have := turn_blk h
  rwa [eventInstr_setSched] at this

@[simp] theorem chunkBlock_head (b : Block) : (chunkBlock b).head = b.head := by
  obtain ⟨-, -, -, h, -⟩ := chunkBlock_frame b
  exact h

@[simp] theorem chunkBlock_tail (b : Block) : (chunkBlock b).tail = b.tail := by
  obtain ⟨-, -, -, -, h, -⟩ := chunkBlock_frame b
  exact h

/-- R24: only INIT and ENQ write HEAD. -/
theorem Effect.head_writer {s t : State} {i : Instr} (he : Effect s i t) (hne : t.blk.head ≠ s.blk.head) :
    (∃ n, i = .init n) ∨ ∃ len, i = .enq len := by
  cases he with
  | init n => exact .inl ⟨n, rfl⟩
  | enqQueued len => exact .inr ⟨len, rfl⟩
  | chunk | ret2 => exact absurd (chunkBlock_head _) hne
  | _ => exact absurd rfl hne

/-- R25: only INIT and RET2 write TAIL. -/
theorem Effect.tail_writer {s t : State} {i : Instr} (he : Effect s i t) (hne : t.blk.tail ≠ s.blk.tail) :
    (∃ n, i = .init n) ∨ i = .ret2 := by
  cases he with
  | init n => exact .inl ⟨n, rfl⟩
  | ret2 => exact .inr rfl
  | chunk | enqQueued => exact absurd (chunkBlock_tail _) hne
  | _ => exact absurd rfl hne

/-- R93: an adapter operation is encoded as its word. -/
theorem encode_of_adapterOpOf {i : Instr} {op : AdapterOp} (h : adapterOpOf i = some op) :
    encode i = .adapter op.word := by
  cases i with
  | periphDisable | clearCflag | dmaProgram | dmaEnable | periphSetFrames | periphEnable | pushWord | periphStart
  | dmaDisable => cases h; rfl
  | _ => exact absurd h nofun

/-- R36: what changes the adapter is a micro-step, a WSB, an adapter operation or a step of the environment. -/
theorem Effect.adapter_writer {s t : State} {i : Instr} (he : Effect s i t) (hne : t.ext ≠ s.ext) :
    (∃ p, isMicroStep i p ∧ p ≠ .ret2) ∨ (∃ w, i = .wsb w) ∨ (∃ w, encode i = .adapter w) ∨
      (∃ e, encode i = .env e ∧ e ≠ .wsbDone) := by
  cases he with
  | wsb w => exact .inr (.inl ⟨w, rfl⟩)
  | adapter i op ho => exact .inr (.inr (.inl ⟨_, encode_of_adapterOpOf ho⟩))
  | envDmaXfer | envDmaTc | envShift | dispatchFrozen | dispatchFault | dispatch =>
    exact .inr (.inr (.inr ⟨_, rfl, nofun⟩))
  | arm0 hp | arm1 hp | arm2 hp | arm3 hp | arm4 hp | arm5 hp | arm6 hp | arm7 hp | ret0 hp | ret1 hp =>
    exact .inl ⟨s.blk.seqPc, by rw [hp]; rfl, by simp [hp]⟩
  | _ => exact absurd rfl hne

end Sys2Proof.Machine
end

section
/-! SUPPORT. WIRE, CFLAG, ENV_FAULT and ATRACE are records: no meaning reads them (R38, R188). A state with the four forgotten
stands for all states that differ in them alone; every operation answers the same with them forgotten, up to the records it
leaves. -/

namespace Sys2Proof.Machine

/-- The adapter with its four records blanked. -/
def Adapter.forget (x : Adapter) : Adapter := { x with wire := [], cflag := false, envFault := false, atrace := [] }

/-- The state with the adapter's records blanked. -/
def State.forget (s : State) : State := s.setExt s.ext.forget

/-- An outcome, its next state with the records blanked. -/
def forgetNext (o : Host.Outcome State Fault Refusal) : Host.Outcome State Fault Refusal :=
  match o with
  | .next s => .next s.forget
  | .fault f => .fault f
  | .refused r => .refused r

@[simp] theorem State.forget_blk (s : State) : s.forget.blk = s.blk := rfl
@[simp] theorem State.forget_mem (s : State) : s.forget.mem = s.mem := rfl
@[simp] theorem State.forget_platform (s : State) : s.forget.platform = s.platform := rfl
@[simp] theorem State.forget_ext (s : State) : s.forget.ext = s.ext.forget := rfl

/-- States that agree but for the records differ by the second one's records. -/
theorem State.eq_of_forget_eq {t u : State} (h : u.forget = t.forget) :
    u = { t with ext := { t.ext with
      wire := u.ext.wire, cflag := u.ext.cflag, envFault := u.ext.envFault, atrace := u.ext.atrace } } := by
  obtain ⟨_, ⟨⟩⟩ := u
  obtain ⟨_, ⟨⟩⟩ := t
  simp only [State.forget, Adapter.forget, State.setExt, State.mk.injEq, Adapter.mk.injEq] at h ⊢
  simp [h]

/-- An outcome that is a next state up to the records is one. -/
theorem next_of_forgetNext {o : Host.Outcome State Fault Refusal} {t : State} (h : forgetNext o = .next t.forget) :
    ∃ u, o = .next u ∧ u.forget = t.forget := by
  cases o with
  | next u => exact ⟨u, rfl, Host.Outcome.next.inj h⟩
  | fault f => cases h
  | refused r => cases h

/-! ### The shared operations -/

/-- A condition that reads no record chooses alike with the records forgotten. -/
theorem forgetNext_ite {c : Prop} {d d' : Decidable c} {o o' q q' : Host.Outcome State Fault Refusal}
    (ho : forgetNext o' = forgetNext o) (hq : forgetNext q' = forgetNext q) :
    forgetNext (@ite _ c d' o' q') = forgetNext (@ite _ c d o q) := by
  by_cases hc : c
  · rwa [if_pos hc, if_pos hc]
  · rwa [if_neg hc, if_neg hc]

theorem raiseFault_forget (c : FaultCause) (v : Word) (s : State) :
    raiseFault c v s.forget = (raiseFault c v s).forget := by
  cases hf : s.blk.faulted
  · rw [raiseFault_of_clear hf, raiseFault_of_clear (s := s.forget) hf]; rfl
  · rw [raiseFault_of_faulted hf, raiseFault_of_faulted (s := s.forget) hf]

theorem forgetNext_raiseFault (c : FaultCause) (v : Word) (s : State) :
    forgetNext (.next (raiseFault c v s.forget)) = forgetNext (.next (raiseFault c v s)) := by
  rw [raiseFault_forget]
  rfl

theorem forgetNext_enterCompletion (s : State) :
    forgetNext (.next (enterCompletion s.forget)) = forgetNext (.next (enterCompletion s)) := by
  unfold enterCompletion
  simp only [State.forget_blk, raiseFault_forget]
  split_ifs <;> rfl

theorem forgetNext_cmdPort {s : State} {o o' : Host.Outcome State Fault Refusal} (h : forgetNext o' = forgetNext o) :
    forgetNext (cmdPort s.forget o') = forgetNext (cmdPort s o) :=
  forgetNext_ite rfl (forgetNext_ite rfl h)

theorem forgetNext_microStep {p : SeqStep} {s : State} {o o' : Host.Outcome State Fault Refusal}
    (h : forgetNext o' = forgetNext o) : forgetNext (microStep p s.forget o') = forgetNext (microStep p s o) :=
  forgetNext_ite h rfl

theorem forgetNext_writeReg (s : State) (b : Block) : forgetNext (writeReg s.forget b) = forgetNext (writeReg s b) :=
  forgetNext_ite rfl rfl

/-! ### The instructions that decide something -/

theorem execInit_forget (n : Half) (s : State) : forgetNext (execInit n s.forget) = forgetNext (execInit n s) :=
  forgetNext_cmdPort <|
    forgetNext_ite (forgetNext_raiseFault _ _ s) <| forgetNext_ite (forgetNext_raiseFault _ _ s) <|
    forgetNext_ite (forgetNext_raiseFault _ _ s) <| forgetNext_ite (forgetNext_raiseFault _ _ s) rfl

theorem execEnq_forget (len : Half) (s : State) : forgetNext (execEnq len s.forget) = forgetNext (execEnq len s) := by
  refine forgetNext_cmdPort <|
    forgetNext_ite (forgetNext_raiseFault _ _ s) <| forgetNext_ite (forgetNext_raiseFault _ _ s) <|
    forgetNext_ite (forgetNext_raiseFault _ _ s) <| forgetNext_ite rfl ?_
  simp only [State.forget_blk, State.forget_mem, State.forget_platform]
  cases copyWords s.platform s.blk s.blk.arg0 len.toNat 0 s.mem <;> rfl

theorem execWsb_forget (w : Half) (s : State) : forgetNext (execWsb w s.forget) = forgetNext (execWsb w s) :=
  forgetNext_cmdPort <|
    forgetNext_ite (forgetNext_raiseFault _ _ s) <| forgetNext_ite (forgetNext_raiseFault _ _ s) rfl

theorem execIllegal_forget (port : Port) (w : Word) (s : State) :
    forgetNext (execIllegal port w s.forget) = forgetNext (execIllegal port w s) := by
  cases port with
  | cmd => exact forgetNext_cmdPort (forgetNext_raiseFault _ _ s)
  | cpl => exact forgetNext_raiseFault _ _ s

theorem execBadRegAccess_forget (off : BitVec 6) (dir : Dir) (s : State) :
    forgetNext (execBadRegAccess off dir s.forget) = forgetNext (execBadRegAccess off dir s) := by
  cases dir with
  | read => simp only [execBadRegAccess, raiseFault_forget]; rfl
  | write v => exact forgetNext_raiseFault _ _ s

theorem execEnvShift_forget (s : State) : forgetNext (execEnvShift s.forget) = forgetNext (execEnvShift s) := by
  have hq : s.forget.ext.txq = s.ext.txq := rfl
  unfold execEnvShift
  rw [hq]
  cases s.ext.txq <;> rfl

/-- R38, R188: no instruction reads a record. -/
theorem exec_forget (i : Instr) (s : State) : forgetNext (exec i s.forget) = forgetNext (exec i s) := by
  cases i with
  | init n => exact execInit_forget n s
  | enq len => exact execEnq_forget len s
  | wsb w => exact execWsb_forget w s
  | complete => exact forgetNext_enterCompletion s
  | illegal port w => exact execIllegal_forget port w s
  | wrArg0 | wrArg1 => exact forgetNext_writeReg s _
  | inert off dir => cases dir <;> rfl
  | badRegAccess off size dir => exact execBadRegAccess_forget off dir s
  | arm0 | arm1 | arm2 | arm3 | arm4 | arm5 | arm7 | ret0 | ret1 | ret2 => exact forgetNext_microStep rfl
  | arm6 => exact forgetNext_microStep (forgetNext_ite rfl rfl)
  | envDmaXfer => exact forgetNext_ite rfl (forgetNext_ite rfl rfl)
  | envDmaTc | wsbDone => exact forgetNext_ite rfl rfl
  | envShift => exact execEnvShift_forget s
  | envDispatch => exact forgetNext_ite (forgetNext_enterCompletion (s.setExt { s.ext with irqPend := false })) rfl
  | rdArg0 | rdArg1 | rdStatus | rdIndex | rdLevel | rdSession | rdBase | rdDsrc | rdDdst | rdDctl | rdFinfo | chunk
  | periphDisable | clearCflag | dmaProgram | dmaEnable | periphSetFrames | periphEnable | pushWord | periphStart
  | dmaDisable => rfl

/-! ### The step -/

theorem noteWsb_forget (who : Option Agent) (s t : State) : (noteWsb who s t).forget = noteWsb who s t.forget := by
  cases who with
  | none => rfl
  | some a => exact apply_ite State.forget _ _ _

theorem settle_forget {who : Option Agent} {s : State} {o o' : Host.Outcome State Fault Refusal}
    (h : forgetNext o' = forgetNext o) : forgetNext (settle who s.forget o') = forgetNext (settle who s o) := by
  cases o with
  | next t =>
    obtain ⟨t', rfl, ht⟩ := next_of_forgetNext h
    have hnote : (noteWsb who s.forget t').forget = (noteWsb who s t).forget := by
      rw [noteWsb_forget, noteWsb_forget, ht]
      rfl
    exact congrArg Host.Outcome.next hnote
  | fault f =>
    obtain rfl : o' = .fault f := by cases o' <;> cases h; rfl
    cases f <;> cases who <;> rfl
  | refused r =>
    obtain rfl : o' = .refused r := by cases o' <;> cases h; rfl
    rfl

theorem eventCode_forget (s : State) (e : Event) : eventCode s.forget e = eventCode s e := by
  cases e <;> rfl

theorem runCode_forget (e : Event) (s : State) : forgetNext (runCode e s.forget) = forgetNext (runCode e s) := by
  unfold runCode
  rw [eventCode_forget]
  cases eventCode s e with
  | none => rfl
  | some c =>
    cases hc : decode c with
    | ok i => simpa only [hc] using settle_forget (exec_forget i s)
    | error d => cases d <;> simp only [hc] <;> rfl

theorem turn_forget (e : Event) (s : State) : forgetNext (turn e s.forget) = forgetNext (turn e s) := by
  cases e with
  | reset | platformSetup => rfl
  | store who addr v => exact forgetNext_ite rfl rfl
  | access who addr size dir => exact runCode_forget (.access who addr size dir) s
  | seq => exact runCode_forget .seq s
  | env v => exact runCode_forget (.env v) s
  | adapterWord w => exact runCode_forget (.adapterWord w) s

theorem takeFirst_forget (s : State) (blocked : List Agent) (l : List Event) :
    takeFirst s.forget blocked l = takeFirst s blocked l := by
  induction l generalizing blocked with
  | nil => rfl
  | cons e l ih =>
    simp only [takeFirst, ih]
    rfl

/-- R38, R188: no step reads a record. -/
theorem step_forget (s : State) : forgetNext (step s.forget) = forgetNext (step s) := by
  have htake : takeEvent s.forget = takeEvent s := by
    unfold takeEvent
    rw [takeFirst_forget]
    rfl
  unfold step
  rw [htake]
  exact turn_forget (takeEvent s).1 (s.setSched (takeEvent s).2)

/-- R38, R188: states that agree but for the records answer next states that do. -/
theorem step_of_forget_eq {s s' t : State} (hs : s'.forget = s.forget) (h : step s = .next t) :
    ∃ u, step s' = .next u ∧ u.forget = t.forget := by
  refine next_of_forgetNext ?_
  rw [← step_forget, hs, step_forget, h]
  rfl

end Sys2Proof.Machine
end

section
/-! SUPPORT. What the commands other than INIT do before INIT (R230), with the command words written out (R87). -/

namespace Sys2Proof.Machine

/-- R87: a command word is its immediate above its opcode, the reserved bits 0. -/
theorem commandWord_eq_append (opc : BitVec 4) (imm : Half) : commandWord opc imm = imm ++ opc.setWidth 16 := by
  apply BitVec.eq_of_getLsbD_eq
  intro k hk
  rw [Laws.getLsbD_commandWord, BitVec.getLsbD_append, BitVec.getLsbD_setWidth]
  by_cases h4 : k < 4
  · simp [h4, show k < 16 by omega]
  · by_cases h16 : k < 16
    · simp [h4, h16, show k - 4 < 12 by omega, BitVec.getLsbD_of_ge opc k (by omega)]
    · simp [h4, h16, show ¬ k - 4 < 12 by omega, show k - 4 - 12 = k - 16 by omega]

/-! Before INIT, ENQ, WSB and COMPLETE fault NOT_INIT (R113, R184, R150). -/

theorem exec_enq_notInit {s : State} (ho : s.Open) (hi : s.blk.inited = false) (len : Half) :
    exec (.enq len) s = .next (s.faultWith .notInit (len ++ 2#16)) := by
  obtain ⟨hf, hw⟩ := ho
  have hword : commandWord 0x2 len = len ++ 2#16 := commandWord_eq_append 0x2 len
  simp only [exec, execEnq, cmdPort_clear hf hw, hi, hword, raiseFault_of_clear hf, State.faultWith]
  rfl

theorem exec_wsb_notInit {s : State} (ho : s.Open) (hi : s.blk.inited = false) (w : Half) :
    exec (.wsb w) s = .next (s.faultWith .notInit (w ++ 3#16)) := by
  obtain ⟨hf, hw⟩ := ho
  have hword : commandWord 0x3 w = w ++ 3#16 := commandWord_eq_append 0x3 w
  simp only [exec, execWsb, cmdPort_clear hf hw, hi, hword, raiseFault_of_clear hf, State.faultWith]
  rfl

theorem exec_complete_notInit {s : State} (hf : s.blk.faulted = false) (hi : s.blk.inited = false) :
    exec .complete s = .next (s.faultWith .notInit 0x00000004) := by
  have hword : commandWord 0x4 0 = 0x00000004 := by decide
  simp only [exec, execComplete, enterCompletion, hf, hi, hword, raiseFault_of_clear hf, State.faultWith]
  rfl

end Sys2Proof.Machine
end

section
/-! The statements of 10_state.md that this part settles. -/

open Sys2Proof Sys2Proof.Machine

/-- Settles O1: reset never waits and sets the registers to R45's; with INITED = 0 and nothing frozen or held the three commands
fault. -/
theorem resetPutsEveryBlockRegister : Obligations.ResetPutsEveryBlockRegister := by
  refine ⟨_, rfl, rfl, fun s rest hs => step_cons hs (waits_of_no_agent rfl), fun s hs => ?_⟩
  have ho : s.Open := by rw [State.Open, hs]; exact ⟨rfl, rfl⟩
  have hi : s.blk.inited = false := by rw [hs]
  exact ⟨exec_enq_notInit ho hi, exec_wsb_notInit ho hi, exec_complete_notInit ho.1 hi⟩

/-- Settles O39: the registers by their values, and the two couplings speak only of states after INIT. -/
theorem resetMeetsTheInvariant : Obligations.ResetMeetsTheInvariant :=
  ⟨⟨Block.inv_reset, Memory.wf_nil⟩, fun hi => absurd hi Bool.false_ne_true, fun hi => absurd hi Bool.false_ne_true⟩

/-- Settles O40: a step is one event's turn, in a state with the same registers and memory. -/
theorem stepKeepsTheInvariant : Obligations.StepKeepsTheInvariant := by
  rintro s t ⟨hb, hm⟩ hstep
  exact State.Inv.turn (s := s.setSched (takeEvent s).2) ⟨hb, hm⟩ hstep

/-- Settles O41: each law is a field of the invariant or the arithmetic of R110 and R111. -/
theorem invariantGivesTheSpecsLaws : Obligations.InvariantGivesTheSpecsLaws := by
  intro b h hi
  obtain ⟨hh, ht⟩ := h.indexes hi
  refine ⟨hh, ht, Block.occ_add_avail hh ht, occOf_le hh ht, h.valid, h.session, h.idleRun hi, fun hs => ?_⟩
  have hprog : b.programmed = true := by rw [Block.programmed_eq, hs]; rfl
  have hchan : b.channelOn = true := by rw [Block.channelOn_eq, hs]; rfl
  obtain ⟨hsrc, hlen⟩ := h.descriptor hprog
  exact ⟨h.channel.mpr hchan, hsrc, hlen⟩

/-- Settles O46: a step that is no reset changes the registers by an instruction's effect, and of these few write an index. -/
theorem eachIndexHasOneWriter : Obligations.EachIndexHasOneWriter := by
  intro s t e rest htake hstep hreset
  rcases step_blk htake hstep with hb | ⟨he, -⟩ | ⟨i, u, hi, heff, hb⟩
  · rw [hb]
    exact ⟨absurd rfl, absurd rfl⟩
  · exact absurd he hreset
  · rw [hb]
    refine ⟨fun hne => ?_, fun hne => ?_⟩
    · rcases heff.head_writer hne with ⟨n, rfl⟩ | ⟨len, rfl⟩
      · exact .inl ⟨n, hi⟩
      · exact .inr ⟨len, hi⟩
    · rcases heff.tail_writer hne with ⟨n, rfl⟩ | rfl
      · exact .inl ⟨n, hi⟩
      · exact .inr hi

/-- Settles O55: read off the effects. -/
theorem onlyAdapterStepsChangeTheAdapter : Obligations.OnlyAdapterStepsChangeTheAdapter :=
  fun _ _ _ h hne => (exec_effect h).adapter_writer hne

/-- Settles O56: the two states are equal with the records forgotten, and so are their next states. -/
theorem recordsAreNeverRead : Obligations.RecordsAreNeverRead := by
  intro s t wire cflag envFault atrace h
  obtain ⟨u, hu, hut⟩ := step_of_forget_eq (s := s)
    (s' := { s with ext := { s.ext with wire := wire, cflag := cflag, envFault := envFault, atrace := atrace } }) rfl h
  exact ⟨u.ext.wire, u.ext.cflag, u.ext.envFault, u.ext.atrace, hu.trans (congrArg _ (State.eq_of_forget_eq hut))⟩

end

section
/-! SUPPORT. System memory: where the two bytes of a halfword lie (R61), who writes memory (R60, R66), and what an access that is
not admitted does (R67). -/

namespace Sys2Proof.Machine

/-! ### The two bytes of a halfword (R61) -/

theorem Memory.read_writeHalf_low {m : Memory} (hm : Memory.wf m) (a : Word) (v : Half) :
    Memory.read (Memory.writeHalf m a v) a.toNat = v.extractLsb' 0 8 := by
  rw [Memory.writeHalf, Memory.read_write_other _ _ (succ_ne a).symm, Memory.read_write_same hm]

theorem Memory.read_writeHalf_high {m : Memory} (hm : Memory.wf m) (a : Word) (v : Half) :
    Memory.read (Memory.writeHalf m a v) (a + 1).toNat = v.extractLsb' 8 8 :=
  Memory.read_write_same (Memory.write_wf hm a.isLt _) _ _

/-! ### Who writes memory -/

/-- R60, R66: of the instructions, only ENQ writes memory. -/
theorem Effect.mem_writer {s t : State} {i : Instr} (he : Effect s i t) (hne : t.mem ≠ s.mem) :
    ∃ len, i = .enq len := by
  cases he with
  | enqQueued len => exact ⟨len, rfl⟩
  | _ => exact absurd rfl hne

/-- R60, R66, R76: an event that changes memory is an ENQ, or a store that misses the backing store of a ring in use. -/
theorem turn_mem_writer {e : Event} {s t : State} (h : turn e s = .next t) (hne : t.mem ≠ s.mem) :
    (∃ len, eventInstr s e = some (.enq len)) ∨
      ∃ who addr v, e = .store who addr v ∧ (s.blk.inited && s.blk.inStore addr.toNat) = false := by
  rcases turn_next h with rfl | ⟨_, _, _, _, _, rfl⟩ | ⟨_, rfl⟩ | ⟨_, rfl⟩ | ⟨who, addr, v, he, hout, _⟩ |
    ⟨_, i, u, hc, hi, hu, rfl⟩
  · exact absurd rfl hne
  · exact absurd (noteStuck_mem _ _) hne
  · exact absurd rfl hne
  · exact absurd rfl hne
  · exact .inr ⟨who, addr, v, he, hout⟩
  · rw [noteWsb_mem] at hne
    obtain ⟨len, rfl⟩ := (exec_effect hu).mem_writer hne
    exact .inl ⟨len, eventInstr_of_decode hc hi⟩

/-! ### Accesses that are not admitted (R67) -/

theorem ite_ne_notAdmitted {c : Prop} [Decidable c] {o q : Host.Outcome State Fault Refusal}
    (ho : o ≠ .fault .memoryNotAdmitted) (hq : q ≠ .fault .memoryNotAdmitted) :
    (if c then o else q) ≠ .fault .memoryNotAdmitted := by
  split <;> assumption

theorem cmdPort_ne_notAdmitted {s : State} {o : Host.Outcome State Fault Refusal}
    (ho : o ≠ .fault .memoryNotAdmitted) : cmdPort s o ≠ .fault .memoryNotAdmitted :=
  ite_ne_notAdmitted nofun (ite_ne_notAdmitted nofun ho)

theorem microStep_ne_notAdmitted {p : SeqStep} {s : State} {o : Host.Outcome State Fault Refusal}
    (ho : o ≠ .fault .memoryNotAdmitted) : microStep p s o ≠ .fault .memoryNotAdmitted :=
  ite_ne_notAdmitted ho nofun

/-- R67: only ENQ, ARM6 and ENV DMA_XFER access memory, so no other instruction makes an access that is not admitted. -/
theorem exec_notAdmitted {i : Instr} {s : State} (h : exec i s = .fault .memoryNotAdmitted) :
    i = .arm6 ∨ i = .envDmaXfer ∨ ∃ len, i = .enq len := by
  cases i with
  | arm6 => exact .inl rfl
  | envDmaXfer => exact .inr (.inl rfl)
  | enq len => exact .inr (.inr ⟨len, rfl⟩)
  | init =>
    exact absurd h <| cmdPort_ne_notAdmitted <| ite_ne_notAdmitted nofun <| ite_ne_notAdmitted nofun <|
      ite_ne_notAdmitted nofun <| ite_ne_notAdmitted nofun nofun
  | wsb => exact absurd h <| cmdPort_ne_notAdmitted <| ite_ne_notAdmitted nofun <| ite_ne_notAdmitted nofun nofun
  | illegal port =>
    cases port with
    | cmd => exact absurd h (cmdPort_ne_notAdmitted nofun)
    | cpl => exact absurd h nofun
  | inert _ dir | badRegAccess _ _ dir => cases dir <;> exact absurd h nofun
  | wrArg0 | wrArg1 | envDmaTc | envDispatch | wsbDone => exact absurd h (ite_ne_notAdmitted nofun nofun)
  | arm0 | arm1 | arm2 | arm3 | arm4 | arm5 | arm7 | ret0 | ret1 | ret2 =>
    exact absurd h (microStep_ne_notAdmitted nofun)
  | envShift =>
    simp only [exec, execEnvShift] at h
    split at h <;> exact absurd h nofun
  | _ => exact absurd h nofun

/-- R67: no agent is ever released. -/
theorem turn_stuck {e : Event} {s t : State} (h : turn e s = .next t) {a : Agent} (ha : a ∈ s.stuck) : a ∈ t.stuck := by
  rcases turn_next h with rfl | ⟨_, _, _, _, _, rfl⟩ | ⟨_, rfl⟩ | ⟨_, rfl⟩ | ⟨_, _, _, _, _, rfl⟩ |
    ⟨_, _, u, _, _, hu, rfl⟩
  · exact ha
  · rw [noteStuck_stuck]
    exact List.mem_append_right _ ha
  · exact ha
  · exact ha
  · exact ha
  · obtain ⟨-, -, hs, -⟩ := exec_frame hu
    rwa [noteWsb_stuck, hs]

/-- R67: a stuck agent has no step. -/
theorem takeEvent_agent_of_stuck {s : State} {a : Agent} (ha : a ∈ s.stuck) : (takeEvent s).1.agent ≠ some a := by
  intro hagent
  obtain ⟨-, hready⟩ := waits_eq_false.mp (takeEvent_ready s)
  obtain ⟨-, hnot⟩ := hready a hagent
  simp [agentWaits, ha] at hnot

/-- R131: CHUNK leaves an Armed burst where it is. -/
theorem chunkBlock_of_armed {b : Block} {p : SeqStep} (hp : b.seqPc = p) (hs : b.state = .armed) :
    (chunkBlock b).seqPc = p ∧ (chunkBlock b).state = .armed := by
  rw [chunkBlock_busy (by rw [hs]; nofun)]
  exact ⟨hp, hs⟩

/-- R67, R139: while ARM6's access is not admitted, no instruction moves SEQ_PC on or leaves Armed: ARM6 itself cannot, the
other micro-steps are not held, and INIT, COMPLETE and CHUNK need another state. -/
theorem Effect.keeps_stuck_arm6 {s t : State} {i : Instr} (he : Effect s i t) (h : s.blk.Inv) (hp : s.blk.seqPc = .arm6)
    (ha : admits s.platform (s.blk.slotAddr s.blk.tail.toNat) = false) :
    t.blk.seqPc = .arm6 ∧ t.blk.state = .armed := by
  have harmed : s.blk.state = .armed := h.armed_of_seqPc hp rfl
  cases he with
  | init n hf hw hi => exact absurd (hi.symm.trans (h.inited_of_busy (by rw [harmed]; nofun))) nofun
  | complete _ _ hs | dispatch _ _ _ hs => exact absurd (harmed.symm.trans hs) nofun
  | enqQueued | chunk => exact chunkBlock_of_armed hp harmed
  | arm6 _ _ hadm => exact absurd (ha.symm.trans hadm) nofun
  | arm0 hq | arm1 hq | arm2 hq | arm3 hq | arm4 hq | arm5 hq | arm7 hq | ret0 hq | ret1 hq | ret2 hq =>
    exact absurd (hp.symm.trans hq) nofun
  | _ => exact ⟨hp, harmed⟩

end Sys2Proof.Machine
end

section
/-! The statements of 20_memory.md that this part settles. -/

open Sys2Proof Sys2Proof.Machine

/-- Settles O38: the outcome of the refused access settles into the stuck list; what is taken does not wait, while a stuck agent's
event does; and the instructions that could move a burst on from ARM6 are ruled out one by one. -/
theorem stuckAccessesChangeNothing : Obligations.StuckAccessesChangeNothing := by
  refine ⟨fun s e rest c i htake hcode hdec hex => ⟨?_, exec_notAdmitted hex⟩,
    fun s a ha => ⟨takeEvent_agent_of_stuck ha, fun t hstep => turn_stuck hstep ha⟩,
    fun s t hinv hp hadm hreset hstep => ?_⟩
  · calc step s = settle e.agent { s with sched := rest } (exec i { s with sched := rest }) := by
          rw [step_eq_turn htake]
          exact turn_of_decode (by rwa [eventCode_setSched]) hdec
      _ = .next (noteStuck e.agent { s with sched := rest }) := by rw [hex]; rfl
      _ = .next { s with sched := rest, stuck := e.agent.toList ++ s.stuck } := by rw [noteStuck_eq]; rfl
  · rcases step_blk (Prod.mk.eta (p := takeEvent s)).symm hstep with hb | ⟨he, -⟩ | ⟨i, u, -, heff, hb⟩
    · rw [hb]
      exact ⟨hp, hinv.blk.armed_of_seqPc hp rfl⟩
    · exact absurd he hreset
    · rw [hb]
      exact heff.keeps_stuck_arm6 hinv.blk hp hadm

/-- Settles O57: a step is one event's turn, and a store that misses the backing store lies on one side of it. -/
theorem onlyEnqAndStoresChangeMemory : Obligations.OnlyEnqAndStoresChangeMemory := by
  intro s t e rest htake hstep hne
  rw [step_eq_turn htake] at hstep
  rcases turn_mem_writer hstep hne with ⟨len, hi⟩ | ⟨who, addr, v, he, hout⟩
  · exact .inl ⟨len, by rwa [eventInstr_setSched] at hi⟩
  · refine .inr ⟨who, addr, v, he, fun hinit => ?_⟩
    rw [State.setSched_blk, hinit, Bool.true_and] at hout
    exact (Block.inStore_eq_false _ _).mp hout

/-- Settles O59: the laws of a halfword written to canonical memory. -/
theorem halfwordsAreLittleEndian : Obligations.HalfwordsAreLittleEndian := fun m a v hm =>
  ⟨Memory.writeHalf_wf hm a v, Memory.read_writeHalf_low hm a v, Memory.read_writeHalf_high hm a v,
    Memory.readHalf_writeHalf_same hm a v, fun _ hlow hhigh => Memory.read_writeHalf_other m a v hlow hhigh⟩

end

section
/-! SUPPORT. The words that register reads return (R82 to R86, R192): each is a concatenation, and a field is one of its parts. -/

namespace Sys2Proof.Machine

/-! ### STATUS (R82) -/

theorem Block.statusWord_codes (b : Block) :
    b.statusWord.extractLsb' 0 2 = BurstState.code b.state ∧ b.statusWord.extractLsb' 8 4 = FaultCause.code b.cause ∧
    b.statusWord.extractLsb' 12 4 = SeqStep.code b.seqPc ∧ b.statusWord.extractLsb' 16 16 = 0 := by
  refine ⟨?_, ?_, ?_, ?_⟩ <;>
    simp (disch := decide) only [Block.statusWord, BitVec.extractLsb'_append_eq_right,
      BitVec.extractLsb'_append_eq_of_le, Nat.reduceSub, BitVec.extractLsb'_zero, BitVec.ofNat_eq_ofNat]

theorem Block.statusWord_flags (b : Block) :
    b.statusWord.getLsbD 2 = b.inited ∧ b.statusWord.getLsbD 3 = b.result ∧ b.statusWord.getLsbD 4 = b.sessionValid ∧
    b.statusWord.getLsbD 5 = b.wsbPending ∧ b.statusWord.getLsbD 6 = b.faulted ∧ b.statusWord.getLsbD 7 = false := by
  simp only [Block.statusWord, BitVec.getLsbD_append]
  simp

/-! ### INDEX, SESSION and DCTL (R83, R85, R86) -/

theorem Block.indexWord_fields (b : Block) :
    b.indexWord.extractLsb' 0 8 = b.head ∧ b.indexWord.extractLsb' 8 8 = b.tail ∧ b.indexWord.extractLsb' 16 9 = b.n ∧
    b.indexWord.extractLsb' 25 7 = 0 := by
  refine ⟨?_, ?_, ?_, ?_⟩ <;>
    simp (disch := decide) only [Block.indexWord, BitVec.extractLsb'_append_eq_right,
      BitVec.extractLsb'_append_eq_of_le, Nat.reduceSub, BitVec.extractLsb'_zero, BitVec.ofNat_eq_ofNat]

theorem Block.sessionWord_fields (b : Block) :
    b.sessionWord.extractLsb' 0 8 = b.session ∧ b.sessionWord.extractLsb' 8 24 = 0 :=
  ⟨BitVec.extractLsb'_append_eq_right, BitVec.extractLsb'_append_eq_left⟩

theorem Block.dctlWord_fields (b : Block) :
    b.dctlWord.extractLsb' 0 8 = b.descLen ∧ b.dctlWord.extractLsb' 12 2 = b.descWsize ∧
    b.dctlWord.extractLsb' 14 18 = 0 := by
  refine ⟨?_, ?_, ?_⟩ <;>
    simp (disch := decide) only [Block.dctlWord, BitVec.extractLsb'_append_eq_right,
      BitVec.extractLsb'_append_eq_of_le, Nat.reduceSub, BitVec.extractLsb'_zero, BitVec.ofNat_eq_ofNat]

theorem Block.dctlWord_flags (b : Block) :
    b.dctlWord.getLsbD 8 = b.descEn ∧ b.dctlWord.getLsbD 9 = b.descMinc ∧ b.dctlWord.getLsbD 10 = b.descPinc ∧
    b.dctlWord.getLsbD 11 = false := by
  simp only [Block.dctlWord, BitVec.getLsbD_append]
  simp

/-! ### LEVEL (R84, R192) -/

theorem Block.levelWord_fields {b : Block} (hi : b.inited = true) :
    b.levelWord.extractLsb' 0 8 = BitVec.ofNat 8 b.occ ∧ b.levelWord.extractLsb' 8 8 = BitVec.ofNat 8 b.avail ∧
    b.levelWord.extractLsb' 16 16 = 0 := by
  refine ⟨?_, ?_, ?_⟩ <;>
    simp (disch := decide) only [Block.levelWord, hi, if_true, BitVec.extractLsb'_append_eq_right,
      BitVec.extractLsb'_append_eq_of_le, Nat.reduceSub, BitVec.extractLsb'_zero, BitVec.ofNat_eq_ofNat]

/-- R22, R26, R84: occupancy and available space fit in their 8 bits. -/
theorem Block.Inv.levelWord_counts {b : Block} (h : b.Inv) (hi : b.inited = true) :
    (b.levelWord.extractLsb' 0 8).toNat = b.occ ∧ (b.levelWord.extractLsb' 8 8).toNat = b.avail := by
  obtain ⟨hh, ht⟩ := h.indexes hi
  obtain ⟨-, hn⟩ := h.slots hi
  have hsum := Block.occ_add_avail hh ht
  obtain ⟨hocc, havail, -⟩ := Block.levelWord_fields hi
  rw [hocc, havail, BitVec.toNat_ofNat, BitVec.toNat_ofNat]
  exact ⟨Nat.mod_eq_of_lt (by omega), Nat.mod_eq_of_lt (by omega)⟩

end Sys2Proof.Machine
end

section
/-! SUPPORT. Illegal command words (R90): which they are and what the decoder makes of them; and the fault that an access takes
(R81, R212). -/

namespace Sys2Proof.Machine

/-- R90: the list of the illegal words, with the opcode as a number. -/
theorem illegalWord_iff (port : Port) (w : Word) :
    illegalWord port w = true ↔
      ((opcOf w).toNat = 0 ∨ 5 ≤ (opcOf w).toNat) ∨ rsvOf w ≠ 0 ∨ ((opcOf w).toNat = 4 ∧ immOf w ≠ 0) ∨
        (port = .cpl ∧ 1 ≤ (opcOf w).toNat ∧ (opcOf w).toNat ≤ 3) ∨ (port = .cmd ∧ (opcOf w).toNat = 4) := by
  unfold illegalWord reservedOpc opcOf rsvOf immOf
  generalize w.extractLsb' 0 4 = opc
  cases port with
  | cmd => simp [wrongPort, BitVec.toNat_eq, BitVec.le_def, or_assoc]
  | cpl =>
    have h : (opc.toNat = 1 ∨ opc.toNat = 2 ∨ opc.toNat = 3) ↔ 1 ≤ opc.toNat ∧ opc.toNat ≤ 3 := by omega
    simp [wrongPort, BitVec.toNat_eq, BitVec.le_def, or_assoc, h]

/-- R90: a command word decodes to the illegal command exactly when it is illegal on its port. With RSV = 0, what is not
illegal is an opcode of the port, COMPLETE without an immediate. -/
theorem decodeCommand_eq_illegal_iff (port : Port) (w : Word) :
    decodeCommand port w = .illegal port w ↔ illegalWord port w = true := by
  refine ⟨fun h => (illegalWord_iff port w).mpr ?_, Laws.decodeCommand_illegal⟩
  by_cases hr : rsvOf w = 0
  · have hopc : ((opcOf w).toNat = 0 ∨ 5 ≤ (opcOf w).toNat) ∨ (opcOf w).toNat = 4 ∨
        (1 ≤ (opcOf w).toNat ∧ (opcOf w).toNat ≤ 3) := by omega
    refine hopc.imp_right fun hopc => .inr ?_
    cases port with
    | cmd =>
      rw [decodeCommand, if_neg (not_not_intro hr)] at h
      split_ifs at h with h1 h2 h3
      simp only [BitVec.toNat_eq, BitVec.reduceToNat] at h1 h2 h3
      exact .inr (.inr ⟨rfl, by omega⟩)
    | cpl =>
      rw [decodeCommand, if_neg (not_not_intro hr)] at h
      split_ifs at h with hc
      exact hopc.imp (fun h4 => ⟨h4, fun hi => hc ⟨BitVec.eq_of_toNat_eq h4, hi⟩⟩) fun hcmd => .inl ⟨rfl, hcmd⟩
  · exact .inr (.inl hr)

/-- R81, step 5: a write of CMD is held while WSB_PENDING = 1. -/
theorem cmdPort_held {s : State} (hf : s.blk.faulted = false) (hw : s.blk.wsbPending = true)
    (o : Host.Outcome State Fault Refusal) : cmdPort s o = .fault .writeHeld := by
  simp [cmdPort, hf, hw]

/-- R212: a first fault, in the terms of the statements. -/
theorem raiseFault_eq_faultWith {s : State} (hf : s.blk.faulted = false) (c : FaultCause) (v : Word) :
    raiseFault c v s = s.faultWith c v := raiseFault_of_clear hf c v

end Sys2Proof.Machine
end

section
/-! SUPPORT. The register window (R80), the events that wait (R67, R81, R184), and the lines of a program (R96, R97). -/

namespace Sys2Proof.Machine

/-- R80: the register window is the addresses `REG_BASE + offset`. -/
theorem windowOffset_eq_some {p : Platform} {addr : Word} {off : BitVec 6} :
    windowOffset p addr = some off ↔ addr = p.regBase + off.setWidth 32 := by
  rw [← sub_eq_iff_eq_add', windowOffset]
  generalize addr - p.regBase = d
  have hoff := off.isLt
  simp only [BitVec.toNat_eq, Option.ite_none_right_eq_some, Option.some.injEq, BitVec.toNat_setWidth]
  omega

/-! ### What waits -/

/-- R81: what is held is a 32-bit write of CMD while WSB_PENDING = 1 and FAULTED = 0. -/
theorem heldEvent_iff {s : State} {e : Event} :
    heldEvent s e = true ↔
      s.blk.wsbPending = true ∧ s.blk.faulted = false ∧ ∃ who w, e = .access who s.platform.regBase 32 (.write w) := by
  have hcmd (addr : Word) : windowOffset s.platform addr = some 0#6 ↔ addr = s.platform.regBase := by
    simp [windowOffset_eq_some]
  cases e with
  | access who addr size dir =>
    cases dir with
    | read => simp [heldEvent]
    | write w => simp [heldEvent, hcmd, and_assoc, and_comm (a := size = 32)]
  | _ => simp [heldEvent]

/-- R67, R184: an agent has no step while its write is stuck or outstanding. -/
theorem agentWaits_iff {s : State} {a : Agent} :
    agentWaits s a = true ↔ a ∈ s.stuck ∨ (s.blk.wsbPending = true ∧ (a = .producer ∨ a = s.wsbAgent)) := by
  simp [agentWaits]

/-- An event that waits keeps its place: what is taken is a later event that does not wait, of another agent, or SEQ's turn. -/
theorem takeEvent_cons_of_waits {s : State} {e : Event} {rest : List Event} (hs : s.sched = e :: rest)
    (he : waits s [] e = true) :
    ∃ e' rest', takeEvent s = (e', e :: rest') ∧ waits s [] e' = false ∧
      (∀ a, e.agent = some a → e'.agent ≠ some a) ∧ (e' ∈ rest ∨ (e' = .seq ∧ rest' = rest)) := by
  rcases takeEvent_cases s with ⟨pre, post, hl, hrest, hready, hagent⟩ | ⟨htake, -⟩
  · rw [hs] at hl
    cases pre with
    | nil =>
      obtain ⟨rfl, -⟩ := List.cons.inj hl
      exact absurd (he.symm.trans hready) nofun
    | cons d pre =>
      obtain ⟨rfl, htail⟩ := List.cons.inj hl
      exact ⟨(takeEvent s).1, pre ++ post, Prod.ext rfl hrest, hready, hagent e List.mem_cons_self,
        .inl (by simp [htail])⟩
  · rw [hs] at htake
    exact ⟨.seq, rest, htake, waits_of_no_agent rfl, nofun, .inr ⟨rfl, rfl⟩⟩

/-! ### The lines of a program -/

/-- R80: the offset of a register lies in the window. -/
theorem Reg.setWidth_offset (r : Reg) : (r.offset.setWidth 6).setWidth 32 = r.offset := by
  cases r <;> rfl

/-- R96: a line is the access of its register. -/
theorem eventCode_line (s : State) (who : Agent) (r : Reg) (dir : Dir) :
    eventCode s (.access who (s.platform.regBase + r.offset) 32 dir) = some (.access (r.offset.setWidth 6) 32 dir) :=
  congrArg (Option.map _) (windowOffset_eq_some.mpr (congrArg (s.platform.regBase + ·) r.setWidth_offset.symm))

/-- An event that presents an instruction's encoding presents the instruction, where the decoder gives it back. -/
theorem eventInstr_of_encode {s : State} {e : Event} {i : Instr} (hr : Laws.RoundTrip.Statement i)
    (hw : WellFormed i = true) (hc : eventCode s e = some (encode i)) : eventInstr s e = some i :=
  eventInstr_of_decode hc (hr hw)

/-- R87, R97: `imm * 2^16 + opc` is the command word of the operand's low 16 bits. -/
theorem ofNat_eq_commandWord (n : Nat) (opc : BitVec 4) :
    BitVec.ofNat 32 (n * 2 ^ 16 + opc.toNat) = commandWord opc (BitVec.ofNat 16 n) := by
  have hopc := opc.isLt
  apply BitVec.eq_of_toNat_eq
  rw [commandWord_eq_append, BitVec.toNat_append, ← Nat.shiftLeft_add_eq_or_of_lt (BitVec.isLt _), Nat.shiftLeft_eq,
    BitVec.toNat_ofNat, BitVec.toNat_ofNat, BitVec.toNat_setWidth]
  omega

/-- R97: an operand that fits in 16 bits goes into the command word. -/
theorem asmCommand_of_lt {n : Nat} (hn : n < 2 ^ 16) (opc : BitVec 4) :
    asmCommand opc n = some (BitVec.ofNat 32 (n * 2 ^ 16 + opc.toNat)) :=
  (if_pos hn).trans (congrArg some (ofNat_eq_commandWord n opc).symm)

/-- R97: a larger operand is refused. -/
theorem asmCommand_of_le {n : Nat} (hn : 2 ^ 16 ≤ n) (opc : BitVec 4) : asmCommand opc n = none :=
  if_neg (Nat.not_lt.mpr hn)

/-- R96, R97: a line that writes CMD presents the command word. -/
theorem eventCode_lineWr_cmd (s : State) (who : Agent) (n : Nat) (opc : BitVec 4) :
    eventCode s (lineWr s.platform who .cmd (BitVec.ofNat 32 (n * 2 ^ 16 + opc.toNat))) =
      some (.access 0x00 32 (.write (commandWord opc (BitVec.ofNat 16 n)))) := by
  rw [ofNat_eq_commandWord]
  exact eventCode_line s who .cmd _

end Sys2Proof.Machine
end

section
/-! The statements of 30_encoding.md that this part settles. -/

open Sys2Proof Sys2Proof.Machine

/-- Settles O5: the decoder answers the illegal command for the words of R90's list, and the command is a fault behind the checks
of its port. -/
theorem illegalWordsFault : Obligations.IllegalWordsFault := by
  intro port w s
  have hcpl : s.blk.faulted = false → exec (.illegal .cpl w) s = .next (s.faultWith .illegalCmd w) :=
    fun hf => congrArg Host.Outcome.next (raiseFault_eq_faultWith hf .illegalCmd w)
  refine ⟨?_, fun ⟨hf, hw⟩ => ?_, fun hf => ?_, hcpl, fun hf hw => cmdPort_held hf hw _⟩
  · rw [← opcOf, ← rsvOf, ← immOf, ← illegalWord_iff, ← decodeCommand_eq_illegal_iff]
    cases port <;> exact ⟨Except.ok.inj, congrArg Except.ok⟩
  · cases port with
    | cmd => exact (cmdPort_clear hf hw _).trans (hcpl hf)
    | cpl => exact hcpl hf
  · cases port with
    | cmd => exact cmdPort_frozen hf _
    | cpl => exact congrArg Host.Outcome.next (raiseFault_of_faulted hf .illegalCmd w)

/-- Settles O8: an event at the front that waits is passed over, and one that does not is taken. -/
theorem onlyCmdWritesAreHeld : Obligations.OnlyCmdWritesAreHeld := by
  intro s e rest hs held noStep mustWait
  have hwaits (e : Event) : waits s [] e = true ↔ mustWait e := by
    simp only [waits_nil, heldEvent_iff, agentWaits_iff, mustWait, held, noStep]
  have hready (e : Event) : waits s [] e = false ↔ ¬ mustWait e := by
    rw [← hwaits, Bool.not_eq_true]
  refine ⟨fun h => takeEvent_cons hs ((hready e).mpr h), fun h => ?_⟩
  obtain ⟨e', rest', htake, he', hother⟩ := takeEvent_cons_of_waits hs ((hwaits e).mpr h)
  exact ⟨e', rest', htake, (hready e').mp he', hother⟩

/-- Settles O20: the fields of LEVEL are the two counts, whose sum is R111's. -/
theorem levelAddsUp : Obligations.LevelAddsUp := by
  refine fun b => ⟨fun hi => by rw [Block.levelWord, hi]; rfl, fun hi h => ?_⟩
  obtain ⟨hh, ht⟩ := h.indexes hi
  obtain ⟨-, -, hzero⟩ := Block.levelWord_fields hi
  obtain ⟨hocc, havail⟩ := h.levelWord_counts hi
  exact ⟨hocc, havail, hzero, by rw [hocc, havail, Block.occ_add_avail hh ht]⟩

/-- Settles O60: each line presents the encoding of the instruction it stands for, each command line the word of its operand, and
the results are fields of STATUS and LEVEL. -/
theorem pseudoInstructionsExpand : Obligations.PseudoInstructionsExpand := by
  intro s who n x y v p cmd
  refine ⟨fun hn => ?_, fun hn => ?_, rfl, rfl, rfl,
    eventInstr_of_encode (Laws.RoundTrip.wrArg0 x) rfl (eventCode_line s who .arg0 (.write x)),
    eventInstr_of_encode (Laws.RoundTrip.wrArg1 y) rfl (eventCode_line s who .arg1 (.write y)),
    eventInstr_of_encode Laws.RoundTrip.complete rfl (eventCode_line s who .cpl (.write 0x00000004)),
    eventInstr_of_encode Laws.RoundTrip.rdStatus rfl (eventCode_line s who .status .read),
    eventInstr_of_encode Laws.RoundTrip.rdLevel rfl (eventCode_line s who .level .read), rfl, rfl, rfl,
    fun t ht => ?_, fun t h hi ht => ?_⟩
  · have hasm := asmCommand_of_lt hn
    have hcode := eventCode_lineWr_cmd s .producer n
    exact ⟨congrArg (Option.map _) (hasm 1), congrArg (Option.map _) (hasm 2),
      congrArg (Option.map _ ∘ Option.map _) (hasm 2), congrArg (Option.map _) (hasm 3),
      eventInstr_of_encode (Laws.RoundTrip.init _) rfl (hcode 1),
      eventInstr_of_encode (Laws.RoundTrip.enq _) rfl (hcode 2),
      eventInstr_of_encode (Laws.RoundTrip.wsb _) rfl (hcode 3)⟩
  · simp only [asmInit, asmEnq, asmWrite, asmWsb, asmCommand_of_le hn, Option.map_none, and_self]
  · cases ht
    obtain ⟨-, hresult, -⟩ := s.blk.statusWord_flags
    exact hresult
  · cases ht
    exact (h.levelWord_counts hi).symm

/-- Settles O18: the parts of the word, each code as its number. -/
theorem statusFields : Obligations.StatusFields := by
  intro b
  obtain ⟨hstate, hcause, hseq, hzero⟩ := b.statusWord_codes
  obtain ⟨hinited, hresult, hvalid, hwsb, hfaulted, hbit7⟩ := b.statusWord_flags
  refine ⟨?_, hinited, hresult, hvalid, hwsb, hfaulted, hbit7, ?_, ?_, hzero⟩
  · rw [hstate]
    cases b.state <;> rfl
  · rw [hcause]
    cases b.cause <;> rfl
  · rw [hseq]
    cases b.seqPc <;> rfl

/-- Settles O19: the parts of the three words. -/
theorem indexSessionAndDctlFields : Obligations.IndexSessionAndDctlFields := by
  intro b
  obtain ⟨hlen, hwsize, hzero⟩ := b.dctlWord_fields
  obtain ⟨hen, hminc, hpinc, hbit11⟩ := b.dctlWord_flags
  exact ⟨b.indexWord_fields, b.sessionWord_fields, hlen, hen, hminc, hpinc, hbit11, hwsize, hzero⟩

/-- Settles O23: the width and alignment check comes first, and its fault is kept only when it is the first. -/
theorem badAccessesFault : Obligations.BadAccessesFault := by
  intro off size v s h
  have hdec (dir : Dir) : decode (.access off size dir) = .ok (.badRegAccess off size dir) :=
    congrArg Except.ok (if_pos h)
  refine ⟨hdec .read, hdec (.write v), fun hf => ?_, fun hf => ?_⟩
  · rw [BitVec.ofNat_toNat, ← raiseFault_eq_faultWith hf]
    exact ⟨rfl, rfl⟩
  · have hkept := raiseFault_of_faulted hf .badRegAccess (off.setWidth 32)
    exact ⟨congrArg (fun t : State => Host.Outcome.next (t.setRdata 0)) hkept, congrArg Host.Outcome.next hkept⟩

end

section
/-! SUPPORT. The ring's index arithmetic (R110, R111, R116): positions counted from one slot on, modulo N, name different
slots, and HEAD lies the occupancy beyond TAIL. -/

namespace Sys2Proof.Machine

/-- Positions below `n`, counted from one slot on, name different slots. -/
theorem ringSlot_inj {c i j n : Nat} (hi : i < n) (hj : j < n) (h : (c + i) % n = (c + j) % n) : i = j :=
  (Nat.ModEq.add_left_cancel' c h).eq_of_lt_of_lt hi hj

/-- R110: HEAD lies the occupancy beyond TAIL. -/
theorem tail_add_occOf_mod {head tail n : Nat} (hh : head < n) (ht : tail < n) : (tail + occOf head tail n) % n = head := by
  unfold occOf
  split
  · rw [Nat.add_sub_cancel' ‹_›, Nat.mod_eq_of_lt hh]
  · rw [Nat.add_sub_cancel' (by omega), Nat.add_mod_right, Nat.mod_eq_of_lt hh]

/-- R110: the two-case form is the difference modulo N. -/
theorem occOf_eq_emod {head tail n : Nat} (hh : head < n) (ht : tail < n) :
    (occOf head tail n : Int) = ((head : Int) - (tail : Int)) % (n : Int) := by
  unfold occOf
  split
  · rw [Int.emod_eq_of_lt (by omega) (by omega)]
    omega
  · rw [← Int.add_emod_right, Int.emod_eq_of_lt (by omega) (by omega)]
    omega

theorem occOf_eq_zero_iff {head tail n : Nat} (ht : tail < n) : occOf head tail n = 0 ↔ head = tail := by
  unfold occOf
  split <;> omega

/-- R110: the ring is full exactly when HEAD stands in the slot before TAIL. -/
theorem occOf_full_iff {head tail n : Nat} (hh : head < n) (ht : tail < n) :
    occOf head tail n = n - 1 ↔ head = (tail + n - 1) % n := by
  have hocc := occOf_le hh ht
  have hhead := tail_add_occOf_mod hh ht
  rw [Nat.add_sub_assoc (by omega)]
  exact ⟨fun h => by rw [← h, hhead],
    fun h => ringSlot_inj (n := n) (by omega) (by omega) (hhead.trans h)⟩

/-- R110: with 256 slots the occupancy is the 8-bit difference. -/
theorem occOf_256 {head tail : Nat} (hh : head < 256) (ht : tail < 256) :
    occOf head tail 256 = (BitVec.ofNat 8 head - BitVec.ofNat 8 tail).toNat := by
  rw [BitVec.toNat_sub, BitVec.toNat_ofNat, BitVec.toNat_ofNat]
  unfold occOf
  split <;> omega

/-- R116: a free slot is no occupied slot. -/
theorem freeSlot_ne_occupiedSlot {head tail n i k : Nat} (hh : head < n) (ht : tail < n) (hi : i < availOf head tail n)
    (hk : k < occOf head tail n) : (head + i) % n ≠ (tail + k) % n := by
  intro h
  rw [← tail_add_occOf_mod hh ht, Nat.mod_add_mod, Nat.add_assoc] at h
  have hsum : occOf head tail n + availOf head tail n = n - 1 := Nat.add_sub_of_le (occOf_le hh ht)
  have := ringSlot_inj (by omega) (by omega) h
  omega

end Sys2Proof.Machine
end

section
/-! SUPPORT. ENQ's copy when its halfwords have no byte in common (R62, R114, R116): what lies outside the written slots reads as
before, and each word arrives in its slot. -/

namespace Sys2Proof.Machine

/-- Two halfwords, each by the address of its low byte, have no byte in common (R61). -/
def Apart (a c : Word) : Prop := a ≠ c ∧ a ≠ c + 1 ∧ a + 1 ≠ c

/-- The bytes of halfwords that are apart lie at different addresses. -/
theorem Apart.bytes {a c : Word} (h : Apart a c) :
    (a.toNat ≠ c.toNat ∧ a.toNat ≠ (c + 1).toNat) ∧ ((a + 1).toNat ≠ c.toNat ∧ (a + 1).toNat ≠ (c + 1).toNat) := by
  obtain ⟨hlow, hlowhigh, hhighlow⟩ := h
  have hhigh : a + 1 ≠ c + 1 := fun he => hlow ((BitVec.add_left_inj 1).mp he)
  exact ⟨⟨BitVec.toNat_ne.mp hlow, BitVec.toNat_ne.mp hlowhigh⟩, BitVec.toNat_ne.mp hhighlow, BitVec.toNat_ne.mp hhigh⟩

/-- A halfword write leaves a halfword that is apart alone. -/
theorem Memory.readHalf_writeHalf_apart (m : Memory) {a c : Word} (v : Half) (h : Apart a c) :
    Memory.readHalf (Memory.writeHalf m c v) a = Memory.readHalf m a := by
  obtain ⟨⟨hll, hlh⟩, hhl, hhh⟩ := h.bytes
  rw [readHalf, readHalf, read_writeHalf_other _ _ _ hll hlh, read_writeHalf_other _ _ _ hhl hhh]

/-! ### Addresses of halfwords -/

/-- The two bytes of the halfword `i` above `a`, below the end of the address space. -/
theorem halfAddr_toNat {a : Word} {i : Nat} (h : a.toNat + 2 * i + 2 ≤ 2 ^ 32) :
    (halfAddr a i).toNat = a.toNat + 2 * i ∧ (halfAddr a i + 1).toNat = a.toNat + 2 * i + 1 := by
  have hlow : (halfAddr a i).toNat = a.toNat + 2 * i := by
    rw [halfAddr, BitVec.toNat_add, BitVec.toNat_ofNat]
    omega
  refine ⟨hlow, ?_⟩
  calc (halfAddr a i + 1).toNat = ((halfAddr a i).toNat + 1) % 2 ^ 32 := BitVec.toNat_add ..
    _ = a.toNat + 2 * i + 1 := by rw [hlow, Nat.mod_eq_of_lt (by omega)]

/-- Halfwords below the end of the address space are apart when one ends at or before the start of the other. -/
theorem halfAddr_apart {a c : Word} {i j : Nat} (hi : a.toNat + 2 * i + 2 ≤ 2 ^ 32) (hj : c.toNat + 2 * j + 2 ≤ 2 ^ 32)
    (h : a.toNat + 2 * i + 2 ≤ c.toNat + 2 * j ∨ c.toNat + 2 * j + 2 ≤ a.toNat + 2 * i) :
    Apart (halfAddr a i) (halfAddr c j) := by
  obtain ⟨hilow, hihigh⟩ := halfAddr_toNat hi
  obtain ⟨hjlow, hjhigh⟩ := halfAddr_toNat hj
  refine ⟨?_, ?_, ?_⟩ <;> rw [BitVec.toNat_ne] <;> omega

/-- R62: different slots of the store are apart. -/
theorem Block.slotAddr_apart {b : Block} (hs : b.base.toNat + 2 * b.n.toNat ≤ 2 ^ 32) {i j : Nat} (hi : i < b.n.toNat)
    (hj : j < b.n.toNat) (hne : i ≠ j) : Apart (b.slotAddr i) (b.slotAddr j) :=
  halfAddr_apart (by omega) (by omega) (by omega)

/-! ### The copy -/

/-- A halfword that is apart from every written slot keeps its value. -/
theorem copyWords_readHalf_apart {p : Platform} {b : Block} {src : Word} {k i : Nat} {m m' : Memory}
    (h : copyWords p b src k i m = some m') {a : Word}
    (ha : ∀ j, i ≤ j → j < i + k → Apart a (b.slotAddr ((b.head.toNat + j) % b.n.toNat))) :
    Memory.readHalf m' a = Memory.readHalf m a := by
  rw [Memory.readHalf, Memory.readHalf, copyWords_read_other h fun j h1 h2 => (ha j h1 h2).bytes.1,
    copyWords_read_other h fun j h1 h2 => (ha j h1 h2).bytes.2]

/-- R114: when the written slots are apart from one another and from the words that are copied, each word arrives in its slot. -/
theorem copyWords_readHalf_slot {p : Platform} {b : Block} {src : Word} {k i : Nat} {m m' : Memory} (hm : Memory.wf m)
    (h : copyWords p b src k i m = some m')
    (hslots : ∀ j l, i ≤ j → j < l → l < i + k →
      Apart (b.slotAddr ((b.head.toNat + j) % b.n.toNat)) (b.slotAddr ((b.head.toNat + l) % b.n.toNat)))
    (hsrc : ∀ j l, i ≤ j → j < i + k → i ≤ l → l < i + k →
      Apart (halfAddr src j) (b.slotAddr ((b.head.toNat + l) % b.n.toNat)))
    {j : Nat} (h1 : i ≤ j) (h2 : j < i + k) :
    Memory.readHalf m' (b.slotAddr ((b.head.toNat + j) % b.n.toNat)) = Memory.readHalf m (halfAddr src j) := by
  induction k generalizing i m with
  | zero => exact absurd h2 (by omega)
  | succ k ih =>
    simp only [copyWords] at h
    split at h
    · rcases Nat.eq_or_lt_of_le h1 with rfl | hlt
      · rw [copyWords_readHalf_apart h fun l hl hl' => hslots i l (by omega) (by omega) (by omega),
          Memory.readHalf_writeHalf_same hm]
      · rw [ih (Memory.writeHalf_wf hm _ _) h (fun j l hj hl hl' => hslots j l (by omega) hl (by omega))
            (fun j l hj hj' hl hl' => hsrc j l (by omega) (by omega) (by omega) (by omega)) (by omega) (by omega),
          Memory.readHalf_writeHalf_apart _ _ (hsrc j i h1 h2 (by omega) (by omega))]
    · simp at h

end Sys2Proof.Machine
end

section
/-! SUPPORT. INIT and ENQ (R112, R113): their checks in numbers, the answer of each once the checks before it are passed, and
what stands behind an ENQ that is queued. -/

namespace Sys2Proof.Machine

/-! ### The checks -/

/-- R63. -/
theorem oddAddr_iff (a : Word) : oddAddr a = true ↔ a.toNat % 2 = 1 := by
  simp [oddAddr, BitVec.getLsbD, Nat.testBit_zero]

/-- R112, R113: the last byte lies above 0xFFFFFFFF when the end of the range passes 2^32. -/
theorem rangeOverflows_iff (a : Word) (count : Nat) : rangeOverflows a count = true ↔ 2 ^ 32 < a.toNat + 2 * count := by
  rw [rangeOverflows, decide_eq_true_iff]
  omega

theorem commandWord_init (n : Half) : commandWord 0x1 n = n ++ 1#16 := commandWord_eq_append 0x1 n

theorem commandWord_enq (len : Half) : commandWord 0x2 len = len ++ 2#16 := commandWord_eq_append 0x2 len

/-! ### INIT -/

section
variable {s : State} {n : Half} (ho : s.Open)
include ho

theorem exec_init_reinit (hi : s.blk.inited = true) : exec (.init n) s = .next (s.faultWith .reinit (n ++ 1#16)) := by
  obtain ⟨hf, hw⟩ := ho
  simp [exec, execInit, cmdPort_clear hf hw, hi, ← commandWord_init, raiseFault_eq_faultWith hf]

variable (hi : s.blk.inited = false)
include hi

theorem exec_init_badCapacity (hn : n.toNat < 1 ∨ 256 < n.toNat) :
    exec (.init n) s = .next (s.faultWith .badCapacity (n ++ 1#16)) := by
  obtain ⟨hf, hw⟩ := ho
  simp only [exec, execInit, cmdPort_clear hf hw, hi, hn, commandWord_init, raiseFault_eq_faultWith hf]
  rfl

variable (hn : 1 ≤ n.toNat ∧ n.toNat ≤ 256)
include hn

theorem exec_init_misaligned (hodd : s.blk.arg0.toNat % 2 = 1 ∨ s.blk.arg1.toNat % 2 = 1) :
    exec (.init n) s = .next (s.faultWith .misaligned (n ++ 1#16)) := by
  obtain ⟨hf, hw⟩ := ho
  have hcap : ¬ (n.toNat < 1 ∨ 256 < n.toNat) := by omega
  simp only [exec, execInit, cmdPort_clear hf hw, hi, hcap, Bool.or_eq_true, oddAddr_iff, hodd, commandWord_init,
    raiseFault_eq_faultWith hf]
  rfl

variable (heven : s.blk.arg0.toNat % 2 = 0 ∧ s.blk.arg1.toNat % 2 = 0)
include heven

theorem exec_init_badAddress (hover : 2 ^ 32 < s.blk.arg0.toNat + 2 * n.toNat) :
    exec (.init n) s = .next (s.faultWith .badAddress (n ++ 1#16)) := by
  obtain ⟨hf, hw⟩ := ho
  have hcap : ¬ (n.toNat < 1 ∨ 256 < n.toNat) := by omega
  have hodd : ¬ (s.blk.arg0.toNat % 2 = 1 ∨ s.blk.arg1.toNat % 2 = 1) := by omega
  simp only [exec, execInit, cmdPort_clear hf hw, hi, hcap, Bool.or_eq_true, oddAddr_iff, hodd, rangeOverflows_iff, hover,
    commandWord_init, raiseFault_eq_faultWith hf]
  rfl

theorem exec_init_done (hfit : s.blk.arg0.toNat + 2 * n.toNat ≤ 2 ^ 32) :
    exec (.init n) s = .next (s.setBlk { s.blk with
      n := BitVec.ofNat 9 n.toNat, base := s.blk.arg0, descDst := s.blk.arg1, head := 0, tail := 0, state := .idle,
      sessionValid := false, seqPc := .none, inited := true }) := by
  obtain ⟨hf, hw⟩ := ho
  have hcap : ¬ (n.toNat < 1 ∨ 256 < n.toNat) := by omega
  have hodd : ¬ (s.blk.arg0.toNat % 2 = 1 ∨ s.blk.arg1.toNat % 2 = 1) := by omega
  have hover : ¬ 2 ^ 32 < s.blk.arg0.toNat + 2 * n.toNat := by omega
  simp only [exec, execInit, cmdPort_clear hf hw, hi, hcap, Bool.or_eq_true, oddAddr_iff, hodd, rangeOverflows_iff, hover,
    BitVec.ofNat_toNat]
  rfl

end

/-! ### ENQ -/

/-- R113: the caller's buffer passes the checks of ENQ. -/
def SourceOk (a : Word) (count : Nat) : Prop := count = 0 ∨ (a.toNat % 2 = 0 ∧ a.toNat + 2 * count ≤ 2 ^ 32)

section
variable {s : State} {len : Half} (ho : s.Open) (hi : s.blk.inited = true)
include ho hi

theorem exec_enq_misaligned (h0 : 0 < len.toNat) (hodd : s.blk.arg0.toNat % 2 = 1) :
    exec (.enq len) s = .next (s.faultWith .misaligned (len ++ 2#16)) := by
  obtain ⟨hf, hw⟩ := ho
  simp [exec, execEnq, cmdPort_clear hf hw, hi, h0, oddAddr_iff, hodd, ← commandWord_enq, raiseFault_eq_faultWith hf]

theorem exec_enq_badAddress (h0 : 0 < len.toNat) (heven : s.blk.arg0.toNat % 2 = 0)
    (hover : 2 ^ 32 < s.blk.arg0.toNat + 2 * len.toNat) :
    exec (.enq len) s = .next (s.faultWith .badAddress (len ++ 2#16)) := by
  obtain ⟨hf, hw⟩ := ho
  have hfar := (rangeOverflows_iff _ _).mpr hover
  simp [exec, execEnq, cmdPort_clear hf hw, hi, h0, oddAddr_iff, heven, hfar, ← commandWord_enq,
    raiseFault_eq_faultWith hf]

variable (hsrc : SourceOk s.blk.arg0 len.toNat)
include hsrc

/-- R113: with the source's checks passed, the space decides, and then the copy. -/
theorem exec_enq_checked :
    exec (.enq len) s =
      if s.blk.avail < len.toNat then .next (s.setBlk { s.blk with result := true })
      else (copyWords s.platform s.blk s.blk.arg0 len.toNat 0 s.mem).elim (.fault .memoryNotAdmitted) fun m =>
        .next ((s.setMem m).setBlk (chunkBlock { s.blk with
          head := BitVec.ofNat 8 ((s.blk.head.toNat + len.toNat) % s.blk.n.toNat), result := false })) := by
  obtain ⟨hf, hw⟩ := ho
  have hodd : ¬ (0 < len.toNat ∧ oddAddr s.blk.arg0 = true) := by
    rw [oddAddr_iff]
    rcases hsrc with h0 | ⟨heven, -⟩ <;> omega
  have hover : ¬ (0 < len.toNat ∧ rangeOverflows s.blk.arg0 len.toNat = true) := by
    rw [rangeOverflows_iff]
    rcases hsrc with h0 | ⟨-, hfit⟩ <;> omega
  simp only [exec, execEnq, cmdPort_clear hf hw, hi, hodd, hover, Block.setResult]
  cases copyWords s.platform s.blk s.blk.arg0 len.toNat 0 s.mem <;> rfl

theorem exec_enq_dropped (ha : s.blk.avail < len.toNat) :
    exec (.enq len) s = .next (s.setBlk { s.blk with result := true }) := by
  rw [exec_enq_checked ho hi hsrc, if_pos ha]

variable (ha : len.toNat ≤ s.blk.avail)
include ha

theorem exec_enq_stuck (hm : copyWords s.platform s.blk s.blk.arg0 len.toNat 0 s.mem = none) :
    exec (.enq len) s = .fault .memoryNotAdmitted := by
  rw [exec_enq_checked ho hi hsrc, if_neg (Nat.not_lt.mpr ha), hm]
  rfl

theorem exec_enq_queued {m : Memory} (hm : copyWords s.platform s.blk s.blk.arg0 len.toNat 0 s.mem = some m) :
    exec (.enq len) s = .next ((s.setMem m).setBlk (chunkBlock { s.blk with
      head := BitVec.ofNat 8 ((s.blk.head.toNat + len.toNat) % s.blk.n.toNat), result := false })) := by
  rw [exec_enq_checked ho hi hsrc, if_neg (Nat.not_lt.mpr ha), hm]
  rfl

end

/-- R113: what stands behind an ENQ of an initialised ring that answers neither with FAULTED nor with a drop. -/
theorem enq_copied {len : Half} {s t : State} (hi : s.blk.inited = true) (h : exec (.enq len) s = .next t)
    (hf : t.blk.faulted = false) (hr : t.blk.result = false) :
    SourceOk s.blk.arg0 len.toNat ∧ len.toNat ≤ s.blk.avail ∧
      copyWords s.platform s.blk s.blk.arg0 len.toNat 0 s.mem = some t.mem := by
  cases hfs : s.blk.faulted with
  | true =>
    cases h.symm.trans (cmdPort_frozen hfs _)
    exact absurd (hf.symm.trans hfs) Bool.false_ne_true
  | false =>
    cases hw : s.blk.wsbPending with
    | true => cases h.symm.trans (cmdPort_held hfs hw _)
    | false =>
      have ho : s.Open := ⟨hfs, hw⟩
      by_cases hsrc : SourceOk s.blk.arg0 len.toNat
      · rcases Nat.lt_or_ge s.blk.avail len.toNat with ha | ha
        · cases h.symm.trans (exec_enq_dropped ho hi hsrc ha)
          cases hr
        · cases hm : copyWords s.platform s.blk s.blk.arg0 len.toNat 0 s.mem with
          | none => cases h.symm.trans (exec_enq_stuck ho hi hsrc ha hm)
          | some m =>
            cases h.symm.trans (exec_enq_queued ho hi hsrc ha hm)
            exact ⟨hsrc, ha, rfl⟩
      · rw [SourceOk, not_or] at hsrc
        obtain ⟨h0, hbad⟩ := hsrc
        rcases Nat.mod_two_eq_zero_or_one s.blk.arg0.toNat with heven | hodd
        · cases h.symm.trans (exec_enq_badAddress ho hi (by omega) heven (by omega))
          cases hf
        · cases h.symm.trans (exec_enq_misaligned ho hi (by omega) hodd)
          cases hf

/-! ### The slots that a queued ENQ writes -/

/-- R22: a position taken modulo N is a slot. -/
theorem Block.Inv.slot_lt {b : Block} (h : b.Inv) (hi : b.inited = true) (k : Nat) : k % b.n.toNat < b.n.toNat :=
  Nat.mod_lt _ (h.slots hi).1

/-- R116: the free slots that a queued ENQ writes are apart from one another. -/
theorem Block.Inv.freeSlots_apart {b : Block} (h : b.Inv) (hi : b.inited = true) {i j : Nat} (hij : i < j)
    (hj : j < b.avail) :
    Apart (b.slotAddr ((b.head.toNat + i) % b.n.toNat)) (b.slotAddr ((b.head.toNat + j) % b.n.toNat)) := by
  obtain ⟨hh, ht⟩ := h.indexes hi
  have hsum := Block.occ_add_avail hh ht
  exact Block.slotAddr_apart (h.store hi) (h.slot_lt hi _) (h.slot_lt hi _) fun he =>
    Nat.ne_of_lt hij (ringSlot_inj (by omega) (by omega) he)

/-- R116: they are apart from every occupied slot. -/
theorem Block.Inv.occupiedSlot_apart {b : Block} (h : b.Inv) (hi : b.inited = true) {i k : Nat} (hi' : i < b.avail)
    (hk : k < b.occ) :
    Apart (b.slotAddr ((b.tail.toNat + k) % b.n.toNat)) (b.slotAddr ((b.head.toNat + i) % b.n.toNat)) := by
  obtain ⟨hh, ht⟩ := h.indexes hi
  exact Block.slotAddr_apart (h.store hi) (h.slot_lt hi _) (h.slot_lt hi _) (freeSlot_ne_occupiedSlot hh ht hi' hk).symm

/-- R114: a word of a source that does not meet the store is apart from every slot. -/
theorem Block.Inv.source_apart {b : Block} (h : b.Inv) (hi : b.inited = true) {a : Word} {count j : Nat}
    (hsrc : SourceOk a count) (hj : j < count)
    (hout : a.toNat + 2 * count ≤ b.base.toNat ∨ b.base.toNat + 2 * b.n.toNat ≤ a.toNat) (k : Nat) :
    Apart (halfAddr a j) (b.slotAddr (k % b.n.toNat)) := by
  have hk := h.slot_lt hi k
  have hstore := h.store hi
  rcases hsrc with h0 | ⟨-, hfit⟩
  · omega
  · exact halfAddr_apart (by omega) (by omega) (by omega)

end Sys2Proof.Machine
end

section
/-! The statements of 40_ring.md that this part settles. -/

open Sys2Proof Sys2Proof.Machine

/-- Settles O9: each clause is a law of the occupancy; the examples are evaluated. -/
theorem occupancyAndAvailable : Obligations.OccupancyAndAvailable := by
  refine ⟨fun head tail n h1 h256 hh ht => ?_, by decide⟩
  have hocc := occOf_le hh ht
  have hzero := occOf_eq_zero_iff (head := head) ht
  have hsum : occOf head tail n + availOf head tail n = n - 1 := Nat.add_sub_of_le hocc
  refine ⟨occOf_eq_emod hh ht, hocc, by omega, hzero, occOf_full_iff hh ht, ?_, rfl, by omega, by omega, hsum⟩
  rintro rfl
  exact occOf_256 hh ht

/-- Settles O11: the checks in their order, each with the ones before it passed. -/
theorem initByCases : Obligations.InitByCases := by
  intro n s b
  exact ⟨fun hf => cmdPort_frozen hf _, fun hf hw => cmdPort_held hf hw _, exec_init_reinit, exec_init_badCapacity,
    fun ho hi h1 h2 => exec_init_misaligned ho hi ⟨h1, h2⟩,
    fun ho hi h1 h2 h3 h4 => exec_init_badAddress ho hi ⟨h1, h2⟩ ⟨h3, h4⟩,
    fun ho hi h1 h2 h3 h4 => exec_init_done ho hi ⟨h1, h2⟩ ⟨h3, h4⟩⟩

/-- Settles O12: the answers of ENQ, check by check; the copy is the sequence of its single-word copies, and CHUNK runs on what it
leaves. -/
theorem enqByCases : Obligations.EnqByCases := by
  intro len s b src slot passes
  refine ⟨fun hf => cmdPort_frozen hf _, fun hf hw => cmdPort_held hf hw _, fun ho hi => exec_enq_notInit ho hi len,
    exec_enq_misaligned, exec_enq_badAddress, fun ho hi ⟨_, hsrc⟩ ha => exec_enq_dropped ho hi hsrc ha,
    fun ho hi ⟨_, hsrc⟩ ha ⟨i, hlt, hbad⟩ => ?_, fun ho hi ⟨_, hsrc⟩ ha hadm => ?_⟩
  · exact exec_enq_stuck ho hi hsrc ha (copyWords_none (Nat.zero_le i) (by omega) hbad)
  · obtain ⟨ms, h0, hcopy, hstep⟩ := copyWords_some (p := s.platform) (b := b) (src := b.arg0) (k := len.toNat) (i := 0)
      (m := s.mem) fun j _ hj => hadm j (by omega)
    rw [Nat.zero_add] at hcopy
    exact ⟨ms, h0, fun i hi => hstep i (Nat.zero_le i) (by omega), _, exec_enq_queued ho hi hsrc ha hcopy, rfl⟩

/-- Settles O13: the free slots are apart from one another and from the source, so the copy delivers each word. -/
theorem enqPutsEachWordInItsSlot : Obligations.EnqPutsEachWordInItsSlot := by
  intro len s t ⟨hinv, hmem⟩ _ hi h hf hr hout i hlt
  obtain ⟨hsrc, ha, hcopy⟩ := enq_copied hi h hf hr
  exact copyWords_readHalf_slot hmem hcopy
    (fun j l _ hjl hl => hinv.freeSlots_apart hi hjl (by omega))
    (fun j l _ hj _ _ => hinv.source_apart hi hsrc (by omega) hout _)
    (Nat.zero_le i) (by omega)

/-- Settles O14: the copy writes the bytes of the free slots only, and these are apart from the occupied ones. -/
theorem enqWritesOnlyFreeSlots : Obligations.EnqWritesOnlyFreeSlots := by
  intro len s t ⟨hinv, _⟩ hi h hf hr
  obtain ⟨-, ha, hcopy⟩ := enq_copied hi h hf hr
  obtain ⟨hh, ht⟩ := hinv.indexes hi
  refine ⟨fun a hother => copyWords_read_other hcopy fun i _ hlt => ?_,
    fun i k hlt hk => freeSlot_ne_occupiedSlot hh ht (Nat.lt_of_lt_of_le hlt ha) hk,
    fun k hk => copyWords_readHalf_apart hcopy fun i _ hlt => hinv.occupiedSlot_apart hi (by omega) hk⟩
  have hstore := hinv.store hi
  have hslot := hinv.slot_lt hi (s.blk.head.toNat + i)
  obtain ⟨hlow, hhigh⟩ := halfAddr_toNat (a := s.blk.base) (i := (s.blk.head.toNat + i) % s.blk.n.toNat) (by omega)
  rw [Block.slotAddr, hhigh, ← hlow]
  exact hother i (by omega)

end

section
/-! SUPPORT. The chunker and the micro-steps (41_chunker.md): the run and CHUNK, when a micro-step has a transition, and the
addresses and words that the arming steps form. -/

namespace Sys2Proof.Machine

/-! ### The run and CHUNK (R130, R131) -/

/-- R130: a run ends inside the store. -/
theorem tail_add_runOf_le {head tail n : Nat} (ht : tail < n) : tail + runOf head tail n ≤ n := by
  have hend : runOf head tail n ≤ n - tail := min_le_right _ _
  omega

/-- R131, R218: a run of 0 or 1 words is not armed. -/
theorem chunkBlock_short {b : Block} (hr : b.run ≤ 1) : chunkBlock b = b := by
  rcases chunkBlock_cases b with ⟨h, -⟩ | ⟨-, hlong, -⟩
  · exact h
  · omega

/-- R131: a longer run is armed from Idle. -/
theorem chunkBlock_long {b : Block} (hs : b.state = .idle) (hr : 2 ≤ b.run) :
    chunkBlock b = { b with session := BitVec.ofNat 8 b.run, sessionValid := true, state := .armed, seqPc := .arm0 } := by
  rcases chunkBlock_cases b with ⟨-, hbusy | hshort⟩ | ⟨-, -, h⟩
  · exact absurd hs hbusy
  · omega
  · exact h

/-- R131: CHUNK alone. -/
theorem exec_chunk {s : State} {b : Block} (h : chunkBlock s.blk = b) : exec .chunk s = .next (s.setBlk b) :=
  congrArg (fun b => Host.Outcome.next (s.setBlk b)) h

/-! ### When a micro-step has a transition (R133 to R140, R151 to R153) -/

/-- A micro-step has no transition unless SEQ_PC holds it and FAULTED = 0. -/
theorem exec_microStep_disabled {i : Instr} {p : SeqStep} {s : State} (hi : isMicroStep i p)
    (h : ¬ (s.blk.seqPc = p ∧ s.blk.faulted = false)) : exec i s = .fault .notEnabled := by
  cases p <;> cases hi <;> exact if_neg h

/-- R142: the micro-step that SEQ_PC holds has a transition while FAULTED = 0; ARM6 needs its read to be admitted too (R67). -/
theorem exec_microStep_enabled {i : Instr} {s : State} (hi : isMicroStep i s.blk.seqPc) (hf : s.blk.faulted = false)
    (ha : i = .arm6 → admits s.platform (s.blk.slotAddr s.blk.tail.toNat) = true) : ∃ t, exec i s = .next t := by
  cases hp : s.blk.seqPc <;> rw [hp] at hi <;> cases hi
  case arm6 => exact ⟨_, (microStep_enabled hp hf _).trans (if_pos (ha rfl))⟩
  all_goals exact ⟨_, microStep_enabled hp hf _⟩

/-- What a transition of the micro-step that SEQ_PC holds tells of the state. -/
theorem exec_microStep_next {i : Instr} {s t : State} (hi : isMicroStep i s.blk.seqPc) (ht : exec i s = .next t) :
    s.blk.faulted = false ∧ (i = .arm6 → admits s.platform (s.blk.slotAddr s.blk.tail.toNat) = true) := by
  refine ⟨?_, ?_⟩
  · by_contra hf
    rw [exec_microStep_disabled hi fun h => hf h.2] at ht
    cases ht
  · rintro rfl
    obtain ⟨-, -, ht⟩ := microStep_next ht
    by_contra ha
    rw [if_neg ha] at ht
    cases ht

/-- Whether SEQ is enabled does not depend on the events still to come. -/
theorem SeqEnabled.setSched {s : State} (h : SeqEnabled s) (l : List Event) : SeqEnabled (s.setSched l) := by
  obtain ⟨i, t, hi, ht⟩ := h
  obtain ⟨hf, ha⟩ := exec_microStep_next hi ht
  obtain ⟨u, hu⟩ := exec_microStep_enabled (s := s.setSched l) hi hf ha
  exact ⟨i, u, hi, hu⟩

/-! ### The slots of a burst (R132) -/

theorem halfAddr_halfAddr (a : Word) (i j : Nat) : halfAddr (halfAddr a i) j = halfAddr a (i + j) := by
  rw [halfAddr, halfAddr, halfAddr, BitVec.add_assoc, ← BitVec.ofNat_add, Nat.mul_add]

/-! ### The words of the arming operations (R92, R93) -/

/-- R93: PUSH_WORD's byte operand is 0, so its word ends in the 16 bits `7`. -/
theorem AdapterOp.word_pushWord (w : Half) : (AdapterOp.pushWord w).word = 0#32 ++ w ++ 7#16 :=
  BitVec.append_assoc

end Sys2Proof.Machine
end

section
/-! SUPPORT. SEQ's turn in the schedule (R142): what it makes of the micro-step that SEQ_PC holds, and when it comes. -/

namespace Sys2Proof.Machine

theorem decode_seq_code {i : Instr} {p : SeqStep} (hi : isMicroStep i p) : decode (.seq p.code) = .ok i := by
  cases p <;> cases hi <;> rfl

/-- A turn of SEQ makes the transition of the micro-step that SEQ_PC holds. -/
theorem turn_seq {i : Instr} {s t : State} (hi : isMicroStep i s.blk.seqPc) (ht : exec i s = .next t) :
    turn .seq s = .next t := by
  have hcode : eventCode s .seq = some (.seq s.blk.seqPc.code) := if_neg fun hp => by rw [hp] at hi; cases hi
  rw [turn_of_decode hcode (decode_seq_code hi), ht]
  rfl

/-- The same as the step that takes the turn from the schedule. -/
theorem step_seq {i : Instr} {s t : State} {l : List Event} (hs : s.sched = .seq :: l) (hi : isMicroStep i s.blk.seqPc)
    (ht : exec i (s.setSched l) = .next t) : step s = .next t :=
  (step_cons hs (waits_of_no_agent rfl)).trans (turn_seq (s := s.setSched l) hi ht)

/-- No turn changes the events still to come. -/
theorem turn_sched {e : Event} {s t : State} (h : turn e s = .next t) : t.sched = s.sched := by
  rcases turn_next h with rfl | ⟨_, _, _, _, _, rfl⟩ | ⟨_, rfl⟩ | ⟨_, rfl⟩ | ⟨_, _, _, _, _, rfl⟩ |
    ⟨_, _, u, _, _, hu, rfl⟩
  · rfl
  · exact noteStuck_sched _ _
  · rfl
  · rfl
  · rfl
  · obtain ⟨-, -, -, hsched⟩ := exec_frame hu
    rw [noteWsb_sched, hsched]

/-- A step that is not SEQ's uses up one event of the schedule. -/
theorem step_sched_length {s t : State} (h : step s = .next t) (he : (takeEvent s).1 ≠ .seq) :
    t.sched.length + 1 = s.sched.length := by
  have hsched : t.sched = (takeEvent s).2 := turn_sched h
  rcases takeEvent_cases s with ⟨pre, post, hall, hrest, -⟩ | ⟨htake, -⟩
  · rw [hsched, hrest, hall]
    simp [Nat.add_assoc]
  · exact absurd (congrArg Prod.fst htake) he

/-- When SEQ is enabled and the step takes its turn, the step is SEQ's. -/
theorem SeqEnabled.stepsTo {s t : State} (h : SeqEnabled s) (he : (takeEvent s).1 = .seq) (ht : step s = .next t) :
    SeqStepsTo s t := by
  obtain ⟨i, u, hi, hu⟩ := h.setSched (takeEvent s).2
  have hstep : step s = .next u := by
    rw [step, he]
    exact turn_seq hi hu
  refine ⟨i, hi, he, ?_⟩
  rw [← hstep.symm.trans ht]
  exact hu

/-- R142: an enabled SEQ takes its step, or is no longer enabled, before the events that the schedule holds are over: every
step that is not SEQ's uses up one of them. -/
theorem IsRun.seq_bounded {σ : Nat → State} (hrun : IsRun σ) (n : Nat) (hen : SeqEnabled (σ n)) :
    ∃ m, n ≤ m ∧ m ≤ n + (σ n).sched.length ∧ (SeqStepsTo (σ m) (σ (m + 1)) ∨ ¬ SeqEnabled (σ m)) := by
  by_cases he : (takeEvent (σ n)).1 = .seq
  · exact ⟨n, Nat.le_refl n, Nat.le_add_right n _, .inl (hen.stepsTo he (hrun n))⟩
  have hlen := step_sched_length (hrun n) he
  by_cases hen' : SeqEnabled (σ (n + 1))
  · obtain ⟨m, hlow, hhigh, hm⟩ := hrun.seq_bounded (n + 1) hen'
    exact ⟨m, by omega, by omega, hm⟩
  · exact ⟨n + 1, by omega, by omega, .inr hen'⟩
termination_by (σ n).sched.length
decreasing_by omega

end Sys2Proof.Machine
end

section
/-! SUPPORT. The arming sequence (R141): which operation each step sends, and that turns of SEQ send them one after another. -/

namespace Sys2Proof.Machine

/-- R133 to R140: the operation that an arming step of the burst of `s` sends, and the step after it. -/
def armNext (s : State) (p : SeqStep) : Option (AdapterOp × SeqStep) :=
  match p with
  | .arm0 => some (.periphDisable, .arm1)
  | .arm1 => some (.clearCflag, .arm2)
  | .arm2 => some (.dmaProgram (s.blk.slotAddr (s.blk.tail.toNat + 1)) (BitVec.ofNat 8 (s.blk.session.toNat - 1)), .arm3)
  | .arm3 => some (.dmaEnable, .arm4)
  | .arm4 => some (.periphSetFrames s.blk.session, .arm5)
  | .arm5 => some (.periphEnable, .arm6)
  | .arm6 => some (.pushWord (Memory.readHalf s.mem (s.blk.slotAddr s.blk.tail.toNat)), .arm7)
  | .arm7 => some (.periphStart, .none)
  | .none | .ret0 | .ret1 | .ret2 => none

/-- The arming steps from `p` to `q` send the operations `ops`, in this order. -/
def ArmSends (s : State) (ops : List AdapterOp) (p q : SeqStep) : Prop :=
  match ops with
  | [] => p = q
  | op :: ops => ∃ p', armNext s p = some (op, p') ∧ ArmSends s ops p' q

/-- `t` arms the burst of `s` and stands before the step `p`, or, `p` being NONE, has started it. -/
structure Arming (s : State) (p : SeqStep) (t : State) : Prop where
  holds : t.blk.seqPc = p
  clear : t.blk.faulted = false
  base : t.blk.base = s.blk.base
  tail : t.blk.tail = s.blk.tail
  session : t.blk.session = s.blk.session
  mem : t.mem = s.mem
  platform : t.platform = s.platform
  started : p = .none → t.blk.state = .running

/-- Whatever events are still to come. -/
theorem Arming.setSched {s t : State} {p : SeqStep} (h : Arming s p t) (l : List Event) : Arming s p (t.setSched l) :=
  { h with }

theorem Arming.slotAddr_eq {s t : State} {p : SeqStep} (h : Arming s p t) (i : Nat) : t.blk.slotAddr i = s.blk.slotAddr i :=
  congrArg (halfAddr · i) h.base

/-- The operations are the burst's, whichever of its states they are read from. -/
theorem Arming.armNext_eq {s t : State} {p : SeqStep} (h : Arming s p t) : armNext t = armNext s := by
  funext q
  cases q <;> simp only [armNext, h.slotAddr_eq, h.tail, h.session, h.mem]

/-- Each arming step sends its operation and hands on to the next one. -/
theorem Arming.sends {s t : State} {p q : SeqStep} {op : AdapterOp} (h : Arming s p t)
    (ha : admits s.platform (s.blk.slotAddr s.blk.tail.toNat) = true) (hn : armNext s p = some (op, q)) :
    ∃ i u, isMicroStep i p ∧ exec i t = .next u ∧ Arming s q u ∧ u.ext.atrace = t.ext.atrace ++ [op.word] := by
  have hon := microStep_enabled h.holds h.clear
  have hadm : admits t.platform (t.blk.slotAddr t.blk.tail.toNat) = true := by
    rw [h.platform, h.slotAddr_eq, h.tail, ha]
  rw [← h.armNext_eq] at hn
  cases p with
  | none | ret0 | ret1 | ret2 => cases hn
  | arm6 =>
    cases hn
    exact ⟨.arm6, _, rfl, (hon _).trans (if_pos hadm), { h with holds := rfl, started := nofun }, rfl⟩
  | arm7 =>
    cases hn
    exact ⟨.arm7, _, rfl, hon _, { h with holds := rfl, started := fun _ => rfl }, rfl⟩
  | arm0 | arm1 | arm2 | arm3 | arm4 | arm5 =>
    cases hn
    exact ⟨_, _, rfl, hon _, { h with holds := rfl, started := nofun }, rfl⟩

/-- R141: one turn of SEQ for each of the operations sends them in order. -/
theorem Arming.runs {s t : State} {p q : SeqStep} {ops : List AdapterOp} {l : List Event} (h : Arming s p t)
    (ha : admits s.platform (s.blk.slotAddr s.blk.tail.toNat) = true) (hops : ArmSends s ops p q)
    (hs : t.sched = List.replicate ops.length .seq ++ l) :
    ∃ u, Runs ops.length t u ∧ Arming s q u ∧ u.sched = l ∧ u.ext.atrace = t.ext.atrace ++ ops.map AdapterOp.word := by
  induction ops generalizing p t with
  | nil =>
    cases hops
    exact ⟨t, rfl, h, hs, (List.append_nil _).symm⟩
  | cons op ops ih =>
    obtain ⟨p', hn, hops⟩ := hops
    obtain ⟨i, v, hi, hv, hvarm, hvsent⟩ := (h.setSched (List.replicate ops.length .seq ++ l)).sends ha hn
    obtain ⟨-, -, -, hvsched⟩ := exec_frame hv
    obtain ⟨u, hrun, harm, hsched, hsent⟩ := ih hvarm hops hvsched
    refine ⟨u, ⟨v, step_seq hs (h.holds ▸ hi) hv, hrun⟩, harm, hsched, ?_⟩
    rw [hsent, hvsent, List.append_assoc]
    rfl

end Sys2Proof.Machine
end

section
/-! The statements of 41_chunker.md that this part settles. -/

open Sys2Proof Sys2Proof.Machine

/-- Settles O30: the held micro-step is enabled, and a step that is not SEQ's uses up an event of the schedule. -/
theorem sequencerIsNeverBlocked : Obligations.SequencerIsNeverBlocked := by
  refine ⟨fun i s => exec_microStep_enabled, fun σ hrun => ⟨fun n hen => ?_, hrun.seq_bounded⟩⟩
  obtain ⟨m, hlow, -, hm⟩ := hrun.seq_bounded n hen
  exact ⟨m, hlow, hm⟩

/-- Settles O44: the arming steps of the burst, from ARM0 on, each taken by a turn of SEQ. -/
theorem armingSendsEightOperationsInOrder : Obligations.ArmingSendsEightOperationsInOrder := by
  intro s rest _ hf hp ha hs
  have hstart : Arming s .arm0 s := ⟨hp, hf, rfl, rfl, rfl, rfl, rfl, nofun⟩
  have hops : ArmSends s
      [.periphDisable, .clearCflag,
        .dmaProgram (s.blk.slotAddr (s.blk.tail.toNat + 1)) (BitVec.ofNat 8 (s.blk.session.toNat - 1)), .dmaEnable,
        .periphSetFrames s.blk.session, .periphEnable,
        .pushWord (Memory.readHalf s.mem (s.blk.slotAddr s.blk.tail.toNat)), .periphStart] .arm0 .none :=
    ⟨_, rfl, _, rfl, _, rfl, _, rfl, _, rfl, _, rfl, _, rfl, _, rfl, rfl⟩
  obtain ⟨t, hrun, h, hsched, hsent⟩ := hstart.runs ha hops hs
  exact ⟨t, hrun, h.started rfl, h.holds, hsched, h.mem, h.tail, h.session, hsent⟩

/-- Settles O49: the session ends inside the store, and the descriptor counts on from slot TAIL+1, so no address passes 2^32. -/
theorem noBurstWraps : Obligations.NoBurstWraps := by
  intro b h hi hs
  obtain ⟨-, -, hend⟩ := h.session hs
  have hstore := h.store hi
  refine ⟨hend, fun hp k hk => ?_⟩
  obtain ⟨hsrc, hlen⟩ := h.descriptor hp
  have haddr : (b.descSrc + BitVec.ofNat 32 (2 * k)).toNat = b.base.toNat + 2 * (b.tail.toNat + 1 + k) := by
    obtain ⟨hlow, -⟩ := halfAddr_toNat (a := b.base) (i := b.tail.toNat + 1 + k) (by omega)
    rw [hsrc, ← hlow, ← halfAddr_halfAddr]
    rfl
  exact ⟨haddr, by omega⟩

/-- Settles O10: the run is the smaller of the occupancy and the distance to the end of the store; the example is evaluated. -/
theorem runLengthStaysInTheStore : Obligations.RunLengthStaysInTheStore := by
  refine ⟨fun head tail n _ _ hh ht => ?_, by decide⟩
  have hocc := occOf_le hh ht
  have hzero := occOf_eq_zero_iff (head := head) ht
  have hend := tail_add_runOf_le (head := head) ht
  have hle : runOf head tail n ≤ occOf head tail n := min_le_left _ _
  refine ⟨rfl, ?_, ?_, ?_, hend, ?_, ?_⟩ <;> omega

/-- Settles O24: what CHUNK makes of a busy block, a short run and a longer run. -/
theorem chunkByCases : Obligations.ChunkByCases := by
  intro s r legal
  exact ⟨fun hs => exec_chunk (chunkBlock_busy hs), fun _ _ hr => exec_chunk (chunkBlock_short hr),
    fun hs _ hr => exec_chunk (chunkBlock_long hs hr)⟩

/-- Settles O25: each step is a `microStep`, and with SEQ_PC holding it and FAULTED = 0 its body is the state written out. -/
theorem armStepsWithoutOperands : Obligations.ArmStepsWithoutOperands := by
  intro s on
  exact ⟨fun ⟨hp, hf⟩ => microStep_enabled hp hf _, fun ⟨hp, hf⟩ => microStep_enabled hp hf _,
    fun ⟨hp, hf⟩ => microStep_enabled hp hf _, fun ⟨hp, hf⟩ => microStep_enabled hp hf _,
    fun ⟨hp, hf⟩ => microStep_enabled hp hf _, exec_microStep_disabled rfl, exec_microStep_disabled rfl,
    exec_microStep_disabled rfl, exec_microStep_disabled rfl, exec_microStep_disabled rfl⟩

/-- Settles O26: the same for the two steps with operands; D_REMAIN is the length in 9 bits. -/
theorem armStepsWithOperands : Obligations.ArmStepsWithOperands := by
  intro s on src len
  refine ⟨fun ⟨hp, hf⟩ _ => ?_, fun ⟨hp, hf⟩ => microStep_enabled hp hf _, exec_microStep_disabled rfl,
    exec_microStep_disabled rfl⟩
  rw [BitVec.ofNat_toNat]
  exact microStep_enabled hp hf _

/-- Settles O27: an enabled ARM6 asks the platform for the read of slot TAIL. -/
theorem armPushesTheFirstWord : Obligations.ArmPushesTheFirstWord := by
  intro s on a w
  refine ⟨fun ⟨hp, hf⟩ ha => ?_, fun ⟨hp, hf⟩ ha => ?_, exec_microStep_disabled rfl⟩
  · rw [← AdapterOp.word_pushWord]
    exact (microStep_enabled hp hf _).trans (if_pos ha)
  · exact (microStep_enabled hp hf _).trans (if_neg (ne_true_of_eq_false ha))

end

section
/-! SUPPORT. The completion handler (42_completion.md): the answers of COMPLETE, the answer of RET2, what its CHUNK finds when the
burst ended at the last slot, and what instructions make of a session in flight. -/

namespace Sys2Proof.Machine

/-! ### COMPLETE (R150, R157) -/

theorem commandWord_complete : commandWord 0x4 0 = 0x00000004 := by decide

theorem exec_complete_frozen {s : State} (hf : s.blk.faulted = true) : exec .complete s = .next s :=
  congrArg Host.Outcome.next (if_pos hf)

theorem exec_complete_spurious {s : State} (hf : s.blk.faulted = false) (hi : s.blk.inited = true)
    (hs : s.blk.state ≠ .running) : exec .complete s = .next (s.faultWith .spuriousCompletion 0x00000004) := by
  rw [← commandWord_complete]
  simp [exec, execComplete, enterCompletion, hf, hi, hs, raiseFault_eq_faultWith hf]

theorem exec_complete_done {s : State} (hf : s.blk.faulted = false) (hi : s.blk.inited = true)
    (hs : s.blk.state = .running) :
    exec .complete s = .next (s.setBlk { s.blk with state := .retiring, seqPc := .ret0 }) := by
  simp [exec, execComplete, enterCompletion, hf, hi, hs]

/-! ### RET2 (R153, R155) -/

/-- R153: an enabled RET2 retires the session and runs CHUNK. -/
theorem exec_ret2 {s : State} (hp : s.blk.seqPc = .ret2) (hf : s.blk.faulted = false) :
    exec .ret2 s = .next (s.setBlk (chunkBlock (retireBlock s.blk))) :=
  microStep_enabled hp hf _

/-- R153: under R22 the new TAIL fits in its 8 bits. -/
theorem retireBlock_tail_toNat {b : Block} (h1 : 1 ≤ b.n.toNat) (h2 : b.n.toNat ≤ 256) :
    (retireBlock b).tail.toNat = (b.tail.toNat + b.session.toNat) % b.n.toNat :=
  toNat_ofNat_mod h1 h2

/-- R155: a burst that ends at the last slot leaves TAIL at slot 0. -/
theorem retireBlock_tail_of_end {b : Block} (hend : b.tail.toNat + b.session.toNat = b.n.toNat) :
    (retireBlock b).tail = 0 := by
  simp [retireBlock, hend]

/-- R130: from slot 0 on the run is everything up to HEAD. -/
theorem runOf_zero {head n : Nat} (hh : head < n) : runOf head 0 n = head := by
  simp [runOf, occOf, hh.le]

/-- R155: what is left then is the part from slot 0 up to HEAD. -/
theorem retireBlock_run_of_end {b : Block} (hend : b.tail.toNat + b.session.toNat = b.n.toNat)
    (hh : b.head.toNat < b.n.toNat) : (retireBlock b).run = b.head.toNat := by
  rw [Block.run, retireBlock_tail_of_end hend]
  exact runOf_zero hh

/-! ### A session in flight (R28, R154) -/

/-- R154: while a burst is in flight an instruction leaves SESSION and TAIL alone, or is RET2: INIT needs INITED = 0, and CHUNK
does nothing. -/
theorem Effect.session_of_busy {s t : State} {i : Instr} (he : Effect s i t) (h : s.blk.Inv) (hs : s.blk.state ≠ .idle) :
    (t.blk.session = s.blk.session ∧ t.blk.tail = s.blk.tail) ∨ (i = .ret2 ∧ t.blk.tail = (retireBlock s.blk).tail) := by
  cases he with
  | init _ _ _ hi => exact absurd (hi.symm.trans (h.inited_of_busy hs)) nofun
  | enqQueued | chunk =>
    rw [State.setBlk_blk, chunkBlock_busy (by exact hs)]
    exact .inl ⟨rfl, rfl⟩
  | ret2 => exact .inr ⟨rfl, chunkBlock_tail _⟩
  | _ => exact .inl ⟨rfl, rfl⟩

end Sys2Proof.Machine
end

section
/-! The statements of 42_completion.md that this part settles. -/

open Sys2Proof Sys2Proof.Machine

/-- Settles O48: the step changes the registers by an instruction's effect, and of these only RET2's touches the session. -/
theorem retireTakesTheCommittedCount : Obligations.RetireTakesTheCommittedCount := by
  rintro s t e rest ⟨hinv, -⟩ hi htake hstep hreset hbusy
  rcases step_blk htake hstep with hb | ⟨he, -⟩ | ⟨i, u, hev, heff, hb⟩
  · rw [hb]
    exact .inl ⟨rfl, rfl⟩
  · exact absurd he hreset
  · rw [hb]
    refine (heff.session_of_busy hinv hbusy).imp_right ?_
    rintro ⟨rfl, htail⟩
    obtain ⟨h1, h2⟩ := hinv.slots hi
    exact ⟨hev, htail ▸ retireBlock_tail_toNat h1 h2⟩

/-- Settles O50: TAIL wraps to slot 0, so the run that RET2's CHUNK finds is HEAD words long. -/
theorem wrappedRegionIsSentNext : Obligations.WrappedRegionIsSentNext := by
  rintro s ⟨hinv, -⟩ hi hf hp hend
  obtain ⟨hh, -⟩ := hinv.indexes hi
  have hrun := retireBlock_run_of_end hend hh
  refine ⟨_, exec_ret2 hp hf, (chunkBlock_tail _).trans (retireBlock_tail_of_end hend), fun hlong => ?_, fun hshort => ?_⟩
  · rw [State.setBlk_blk, chunkBlock_long rfl (hrun ▸ hlong), hrun, BitVec.ofNat_toNat, BitVec.setWidth_eq]
    exact ⟨rfl, rfl, rfl, rfl⟩
  · rw [State.setBlk_blk, chunkBlock_short (hrun ▸ hshort)]
    exact ⟨rfl, rfl, rfl⟩

/-- Settles O16: one answer for each check that fails, in order, and the entry of the handler when all pass. -/
theorem completeByCases : Obligations.CompleteByCases := fun _ =>
  ⟨exec_complete_frozen, exec_complete_notInit, exec_complete_spurious, exec_complete_done⟩

/-- Settles O28: each step is a `microStep`, and with SEQ_PC holding it and FAULTED = 0 its body is the state written out. -/
theorem retireClearsAndDisables : Obligations.RetireClearsAndDisables := by
  intro s on
  exact ⟨fun ⟨hp, hf⟩ => microStep_enabled hp hf _, fun ⟨hp, hf⟩ => microStep_enabled hp hf _,
    exec_microStep_disabled rfl, exec_microStep_disabled rfl⟩

/-- Settles O29: an enabled RET2 is CHUNK run on the retired block. -/
theorem retireAdvancesTail : Obligations.RetireAdvancesTail := by
  intro s on
  exact ⟨fun ⟨hp, hf⟩ _ => ⟨_, exec_ret2 hp hf, rfl, exec_chunk (b := chunkBlock (retireBlock s.blk)) rfl⟩,
    exec_microStep_disabled rfl⟩

end

section
/-! SUPPORT. WSB, and the steps of the environment (43_adapter_single_word.md): when each has a transition and what it
answers. -/

namespace Sys2Proof.Machine

/-! ### WSB (R184) -/

theorem commandWord_wsb (w : Half) : commandWord 0x3 w = w ++ 3#16 := commandWord_eq_append 0x3 w

theorem exec_wsb_burst {s : State} (ho : s.Open) (hi : s.blk.inited = true) (hs : s.blk.state ≠ .idle) (w : Half) :
    exec (.wsb w) s = .next (s.faultWith .singleWhileBurst (w ++ 3#16)) := by
  obtain ⟨hf, hw⟩ := ho
  simp [exec, execWsb, cmdPort_clear hf hw, hi, hs, ← commandWord_wsb, raiseFault_eq_faultWith hf]

theorem exec_wsb_done {s : State} (ho : s.Open) (hi : s.blk.inited = true) (hs : s.blk.state = .idle) (w : Half) :
    exec (.wsb w) s = .next ((emit (.pushWord w) s).setBlk { s.blk with wsbPending := true }) := by
  obtain ⟨hf, hw⟩ := ho
  simp [exec, execWsb, cmdPort_clear hf hw, hi, hs]

/-! ### The DMA's steps (R180, R181) -/

theorem Adapter.xferEnabled_iff (x : Adapter) :
    x.xferEnabled = true ↔ x.dEn = true ∧ x.pEn = true ∧ x.pStart = true ∧ 0 < x.dRemain.toNat := by
  simp [Adapter.xferEnabled, and_assoc, Nat.pos_iff_ne_zero, BitVec.toNat_eq]

theorem Adapter.tcEnabled_iff (x : Adapter) :
    x.tcEnabled = true ↔ x.dEn = true ∧ x.tcArmed = true ∧ x.dRemain.toNat = 0 ∧ x.txq = [] := by
  simp [Adapter.tcEnabled, and_assoc, BitVec.toNat_eq]

/-- R180: `D_SRC + 2*(D_LEN - D_REMAIN)` over the integers, taken modulo 2^32 (notes/assumptions/9.md). -/
theorem xferAddr_eq_ofInt (x : Adapter) :
    xferAddr x = BitVec.ofInt 32 (x.dSrc.toNat + 2 * ((x.dLen.toNat : Int) - x.dRemain.toNat)) := by
  have hcast (z : Int) : BitVec.ofInt 32 z = (z : BitVec 32) := rfl
  rw [hcast]
  push_cast
  simp only [BitVec.natCast_eq_ofNat, BitVec.ofNat_toNat, BitVec.setWidth_eq]
  rfl

/-- R180: while D_REMAIN is at most D_LEN, it is the address of the halfword above D_SRC that comes next. -/
theorem xferAddr_eq_halfAddr {x : Adapter} (h : x.dRemain.toNat ≤ x.dLen.toNat) :
    xferAddr x = halfAddr x.dSrc (x.dLen.toNat - x.dRemain.toNat) := by
  unfold xferAddr halfAddr
  bv_omega

/-- R132, R180: with the channel on the burst from slot `t` on, the next word is the one after those handed over. -/
theorem xferAddr_eq_slotAddr {b : Block} {x : Adapter} {t : Nat} (h : x.dRemain.toNat ≤ x.dLen.toNat)
    (hsrc : x.dSrc = b.slotAddr (t + 1)) :
    xferAddr x = b.slotAddr (t + (1 + (x.dLen.toNat - x.dRemain.toNat))) := by
  rw [xferAddr_eq_halfAddr h, hsrc, ← Nat.add_assoc]
  exact halfAddr_halfAddr _ _ _

/-- R180: D_REMAIN counts down. -/
theorem sub_one_eq_ofNat {r : BitVec 9} (h : 0 < r.toNat) : r - 1 = BitVec.ofNat 9 (r.toNat - 1) := by
  bv_omega

theorem exec_envDmaXfer_disabled {s : State} (h : s.ext.xferEnabled = false) : exec .envDmaXfer s = .fault .notEnabled := by
  simp [exec, execEnvDmaXfer, h]

theorem exec_envDmaXfer_stuck {s : State} (h : s.ext.xferEnabled = true) (ha : admits s.platform (xferAddr s.ext) = false) :
    exec .envDmaXfer s = .fault .memoryNotAdmitted := by
  simp [exec, execEnvDmaXfer, h, ha]

theorem exec_envDmaXfer_moved {s : State} (h : s.ext.xferEnabled = true)
    (ha : admits s.platform (xferAddr s.ext) = true) :
    exec .envDmaXfer s =
      .next (s.setExt { s.ext.push (Memory.readHalf s.mem (xferAddr s.ext)) with dRemain := s.ext.dRemain - 1 }) := by
  simp [exec, execEnvDmaXfer, h, ha]

/-! ### SHIFT and DISPATCH (R182, R189) -/

/-- R182: the oldest waiting word goes to the wire. -/
theorem exec_envShift_sent {s : State} {w : Half} {rest : List Half} (hq : s.ext.txq = w :: rest) :
    exec .envShift s = .next (s.setExt
      { s.ext with txq := rest, wire := s.ext.wire ++ [w], txc := s.ext.txc || rest.isEmpty }) := by
  simp [exec, execEnvShift, hq]

/-- R189: a pending interrupt is acknowledged and COMPLETE is performed. -/
theorem exec_envDispatch_pending {s : State} (h : s.ext.irqPend = true) :
    exec .envDispatch s = exec .complete (s.setExt { s.ext with irqPend := false }) :=
  if_pos h

end Sys2Proof.Machine
end

section
/-! SUPPORT. What the platform's contract (R36, R231, R232, R244) leaves of an event. -/

namespace Sys2Proof.Machine

theorem adapterOpOf_decodeCommand (port : Port) (w : Word) : adapterOpOf (decodeCommand port w) = none := by
  unfold decodeCommand
  cases port <;> split_ifs <;> rfl

theorem adapterOpOf_decodeRead (off : BitVec 6) : adapterOpOf (decodeRead off) = none := by
  revert off
  decide

theorem adapterOpOf_decodeWrite (off : BitVec 6) (v : Word) : adapterOpOf (decodeWrite off v) = none := by
  unfold decodeWrite
  split_ifs
  · exact adapterOpOf_decodeCommand .cmd v
  · exact adapterOpOf_decodeCommand .cpl v
  all_goals rfl

theorem adapterOpOf_decodeAccess (off : BitVec 6) (size : Nat) (dir : Dir) :
    adapterOpOf (decodeAccess off size dir) = none := by
  unfold decodeAccess
  split
  · rfl
  · cases dir with
    | read => exact adapterOpOf_decodeRead off
    | write v => exact adapterOpOf_decodeWrite off v

theorem adapterOpOf_decodeSeq {code : BitVec 4} {i : Instr} (h : decodeSeq code = .ok i) : adapterOpOf i = none := by
  unfold decodeSeq at h
  split at h
  · cases h
  · rename_i p _
    cases p <;> cases h <;> rfl

/-- R93: only a word on the adapter port decodes to an adapter operation. -/
theorem adapterOpOf_of_event {s : State} {e : Event} {c : Code} {i : Instr} (hc : eventCode s e = some c)
    (hi : decode c = .ok i) (he : ∀ w, e ≠ .adapterWord w) : adapterOpOf i = none := by
  cases c with
  | access off size dir => exact Except.ok.inj hi ▸ adapterOpOf_decodeAccess off size dir
  | seq code => exact adapterOpOf_decodeSeq hi
  | adapter w =>
    cases e with
    | adapterWord v => exact absurd rfl (he v)
    | _ => simp [eventCode] at hc
  | env v => cases v <;> cases hi <;> rfl
  | chunk => cases hi; rfl

/-- What the platform's contract leaves of the instruction that an event presents: it is no adapter operation and no CHUNK
alone, an INIT finds the boot condition, and a COMPLETE finds no Running burst. -/
structure Permitted (s : State) (i : Instr) : Prop where
  noAdapterOp : adapterOpOf i = none
  noChunk : i ≠ .chunk
  boot : ∀ n, i = .init n → s.blk.inited = false → s.ext.bootReady = true
  noCompletion : i = .complete → s.blk.state ≠ .running

/-- Everything that an event under the platform's contract can make of registers, adapter and memory: nothing; a state before
INIT, with ENV_FAULT as it was; a store that misses the ring in use; or the effect of a permitted instruction. -/
theorem turn_permitted {e : Event} {s t : State} (hk : PlatformKeeps s e) (ht : turn e s = .next t) :
    (t.blk = s.blk ∧ t.ext = s.ext ∧ t.mem = s.mem) ∨
    (t.blk.inited = false ∧ t.ext.envFault = s.ext.envFault) ∨
    (∃ (addr : Word) (v : Byte), (s.blk.inited && s.blk.inStore addr.toNat) = false ∧
      t = s.setMem (Memory.write s.mem addr.toNat v)) ∨
    ∃ i u, Permitted s i ∧ Effect s i u ∧ t.blk = u.blk ∧ t.ext = u.ext ∧ t.mem = u.mem := by
  obtain ⟨hport, hsetup, hboot, hcomplete⟩ := hk
  rcases turn_next ht with rfl | ⟨_, _, _, _, _, rfl⟩ | ⟨_, rfl⟩ | ⟨he, rfl⟩ | ⟨_, addr, v, _, hout, rfl⟩ |
    ⟨_, i, u, hc, hi, hu, rfl⟩
  · exact .inl ⟨rfl, rfl, rfl⟩
  · exact .inl ⟨noteStuck_blk _ _, noteStuck_ext _ _, noteStuck_mem _ _⟩
  · exact .inr (.inl ⟨rfl, rfl⟩)
  · exact .inr (.inl ⟨hsetup he, rfl⟩)
  · exact .inr (.inr (.inl ⟨addr, v, hout, rfl⟩))
  · have hev := eventInstr_of_decode hc hi
    have hp : Permitted s i := ⟨adapterOpOf_of_event hc hi hport, ne_chunk_of_event hc hi,
      fun n hn => hboot n (hn ▸ hev), fun hn => hcomplete (hn ▸ hev)⟩
    exact .inr (.inr (.inr ⟨i, u, hp, exec_effect hu, noteWsb_blk _ _ _, noteWsb_ext _ _ _, noteWsb_mem _ _ _⟩))

theorem PlatformKeeps.setSched {s : State} {e : Event} (h : PlatformKeeps s e) (l : List Event) :
    PlatformKeeps (s.setSched l) e := by
  rwa [PlatformKeeps, eventInstr_setSched]

end Sys2Proof.Machine
end

section
/-! SUPPORT. The coupling of block and adapter (R183, R235): how each effect of a permitted instruction keeps it, and that
none sets ENV_FAULT. -/

namespace Sys2Proof.Machine

/-- Where no frame waits, read off STATE, SEQ_PC and WSB_PENDING. -/
abbrev DrainedAt (st : BurstState) (p : SeqStep) (wsb : Bool) : Prop :=
  st = .retiring ∨ (1 ≤ p.code.toNat ∧ p.code.toNat ≤ 7) ∨ (st = .idle ∧ wsb = false)

/-- Where a programmed burst has not moved a word, read off SEQ_PC. -/
abbrev UnmovedAt (p : SeqStep) : Prop := 4 ≤ p.code.toNat ∧ p.code.toNat ≤ 8

/-- Where the peripheral is not started, read off SEQ_PC. -/
abbrev StoppedAt (p : SeqStep) : Prop := 2 ≤ p.code.toNat ∧ p.code.toNat ≤ 8

/-- Where the peripheral is disabled, read off SEQ_PC. -/
abbrev DisabledAt (p : SeqStep) : Prop := 2 ≤ p.code.toNat ∧ p.code.toNat ≤ 6

/-- From one STATE and SEQ_PC to another, the coupling asks for nothing new of queue, descriptor and completion. -/
abbrev GoesOn (st : BurstState) (p : SeqStep) (wsb : Bool) (st' : BurstState) (p' : SeqStep) : Prop :=
  programmedAt st' p' = programmedAt st p ∧ (DrainedAt st' p' wsb → DrainedAt st p wsb) ∧ (UnmovedAt p' → UnmovedAt p) ∧
    (st' = .retiring → st = .retiring)

theorem Block.programmed_of_running {b : Block} (hs : b.state = .running) : b.programmed = true := by
  rw [Block.programmed_eq, hs]
  rfl

/-- A step that leaves queue, descriptor and completion alone keeps the coupling when it sets the enable flag like the shadow
flag and leaves the peripheral stopped and disabled where the arming sequence has it so. -/
theorem Coupling.goOn {b : Block} {x : Adapter} (h : Coupling b x) {st : BurstState} {p : SeqStep}
    (hg : GoesOn b.state b.seqPc b.wsbPending st p) {en en' start per cflag f : Bool} {frames : BitVec 8} {tr : List DWord}
    (hen : en' = en) (hstart : StoppedAt p → start = false) (hper : DisabledAt p → per = false) :
    Coupling { b with state := st, seqPc := p, descEn := en }
      { x with
        pEn := per, pFrames := frames, pStart := start, dEn := en', cflag := cflag, atrace := tr, envFault := f } := by
  obtain ⟨hprog, hdrained, hunmoved, hretiring⟩ := hg
  exact
    { txc := h.txc
      channel := hen
      quiet := fun hp => h.quiet (hprog.symm.trans hp)
      drained := fun hd => h.drained (hdrained hd)
      stopped := hstart
      disabled := hper
      programmed := fun hp => h.programmed (hprog.symm.trans hp)
      unmoved := fun hu => h.unmoved (hunmoved hu)
      moved := fun hr => h.moved (hretiring hr)
      finished := fun hp => h.finished (hprog.symm.trans hp) }

/-! ### INIT, and a Running burst -/

/-- R231, R232: the boot condition couples an Idle block to the adapter. -/
theorem Coupling.ofBootReady {b : Block} {x : Adapter} (hs : b.state = .idle) (hp : b.seqPc = .none)
    (hen : b.descEn = false) (hx : x.bootReady = true) : Coupling b x := by
  simp only [Adapter.bootReady, Bool.and_eq_true, Bool.not_eq_true', List.isEmpty_iff] at hx
  obtain ⟨⟨⟨⟨⟨hq, htxc⟩, hdEn⟩, htc⟩, -⟩, hirq⟩ := hx
  have hprog : b.programmed = false := by rw [Block.programmed_eq, hs, hp]; rfl
  have hcode : b.seqPc.code = 0 := by rw [hp]; rfl
  exact
    { txc := by rw [htxc, hq]; rfl
      channel := hdEn.trans hen.symm
      quiet := fun _ => ⟨htc, hirq⟩
      drained := fun _ => hq
      stopped := by simp [hcode]
      disabled := by simp [hcode]
      programmed := by simp [hprog]
      unmoved := by simp [hcode]
      moved := by simp [hs]
      finished := by simp [hprog] }

/-- What couples a Running burst to the adapter. -/
theorem Coupling.ofRunning {b : Block} {x : Adapter} (hs : b.state = .running) (hp : b.seqPc = .none)
    (htxc : x.txc = x.txq.isEmpty) (hen : x.dEn = b.descEn)
    (hdesc : x.dSrc = b.descSrc ∧ x.dLen = b.descLen ∧ x.dRemain.toNat ≤ b.descLen.toNat ∧ x.tcArmed = !x.irqPend)
    (hfin : x.irqPend = true → x.dRemain = 0 ∧ x.txq = []) : Coupling b x := by
  have hprog := Block.programmed_of_running hs
  have hcode : b.seqPc.code = 0 := by rw [hp]; rfl
  exact
    { txc := htxc
      channel := hen
      quiet := by simp [hprog]
      drained := by simp [hs, hcode]
      stopped := by simp [hcode]
      disabled := by simp [hcode]
      programmed := fun _ => hdesc
      unmoved := by simp [hcode]
      moved := by simp [hs]
      finished := fun _ => hfin }

/-! ### CHUNK and the words pushed -/

/-- R131: CHUNK on a ring at rest: no frame waits, so a burst may be armed. -/
theorem Coupling.chunk {b : Block} {x : Adapter} (h : Coupling b x) (hr : b.AtRest) : Coupling (chunkBlock b) x := by
  rcases chunkBlock_cases b with ⟨heq, -⟩ | ⟨-, -, heq⟩ <;> rw [heq]
  · exact h
  · have hgo : GoesOn b.state b.seqPc b.wsbPending .armed .arm0 := by
      rw [hr.idle, hr.noStep, hr.noWsb]; decide
    exact { h.goOn hgo h.channel (absurd · (by decide)) (absurd · (by decide)) with }

/-- R175: a word is pushed where frames may wait and no completion interrupt is pending. -/
theorem Coupling.push {b : Block} {x : Adapter} (h : Coupling b x) (hd : ¬ DrainedAt b.state b.seqPc b.wsbPending)
    (hirq : x.irqPend = false) (w : Half) (tr : List DWord) : Coupling b (Adapter.push { x with atrace := tr } w) :=
  { h with
    txc := by simp
    drained := fun hd' => absurd hd' hd
    finished := fun _ hq => absurd (hirq.symm.trans hq) Bool.false_ne_true }

/-! ### The environment's steps -/

/-- R180: the DMA moves a word only while the burst is Running. -/
theorem Coupling.running_of_xferEnabled {b : Block} {x : Adapter} (hc : Coupling b x) (h : b.Inv)
    (he : x.xferEnabled = true) : b.state = .running := by
  obtain ⟨hen, -, hstart, hremain⟩ := x.xferEnabled_iff.mp he
  have hon : b.channelOn = true := h.channel.mp (hc.channel ▸ hen)
  by_contra hs
  have hcode : 5 ≤ b.seqPc.code.toNat ∧ b.seqPc.code.toNat ≤ 10 := by simpa [Block.channelOn, hs] using hon
  have hstarted : ¬ (2 ≤ b.seqPc.code.toNat ∧ b.seqPc.code.toNat ≤ 8) := fun hr =>
    absurd ((hc.stopped hr).symm.trans hstart) Bool.false_ne_true
  have hret : b.state = .retiring := h.retiring.mpr (decide_eq_true (by omega))
  rw [hc.moved hret] at hremain
  exact absurd hremain (by decide)

/-- R181: the completion is raised only while the burst is Running. -/
theorem Coupling.running_of_tcEnabled {b : Block} {x : Adapter} (hc : Coupling b x) (h : b.Inv)
    (he : x.tcEnabled = true) : b.state = .running := by
  obtain ⟨-, harmed, hremain, -⟩ := x.tcEnabled_iff.mp he
  have hprog : b.programmed = true := by
    by_contra hp
    obtain ⟨htc, -⟩ := hc.quiet (Bool.eq_false_iff.mpr hp)
    exact absurd (htc.symm.trans harmed) Bool.false_ne_true
  by_contra hs
  have hcode : 4 ≤ b.seqPc.code.toNat ∧ b.seqPc.code.toNat ≤ 8 := by simpa [Block.programmed, hs] using hprog
  have harm : b.state = .armed := h.armed.mpr (by
    rw [SeqStep.isArm, Bool.and_eq_true, decide_eq_true_iff, decide_eq_true_iff]
    omega)
  obtain ⟨hlow, -⟩ := h.session (by rw [harm]; nofun)
  obtain ⟨-, hlen⟩ := h.descriptor hprog
  obtain ⟨hunmoved, -⟩ := hc.unmoved hcode
  omega

/-- R180: the DMA's move of a word. -/
theorem Coupling.xfer {b : Block} {x : Adapter} (hc : Coupling b x) (h : b.Inv) (he : x.xferEnabled = true) (w : Half) :
    Coupling b { x.push w with dRemain := x.dRemain - 1 } := by
  have hs := hc.running_of_xferEnabled h he
  have hprog := Block.programmed_of_running hs
  obtain ⟨-, -, -, hpos⟩ := x.xferEnabled_iff.mp he
  obtain ⟨hsrc, hlen, hle, htc⟩ := hc.programmed hprog
  have hle' : (x.dRemain - 1).toNat ≤ b.descLen.toNat := by bv_omega
  refine .ofRunning hs (h.seqPc_none (by simp [hs]) (by simp [hs])) (by simp) hc.channel ⟨hsrc, hlen, hle', htc⟩ ?_
  intro hirq
  rw [(hc.finished hprog hirq).1] at hpos
  exact absurd hpos (by decide)

/-- R181: the completion of a burst. -/
theorem Coupling.raiseCompletion {b : Block} {x : Adapter} (hc : Coupling b x) (h : b.Inv) (he : x.tcEnabled = true) :
    Coupling b { x with cflag := true, irqPend := true, tcArmed := false } := by
  have hs := hc.running_of_tcEnabled h he
  obtain ⟨-, -, hremain, hq⟩ := x.tcEnabled_iff.mp he
  obtain ⟨hsrc, hlen, hle, -⟩ := hc.programmed (Block.programmed_of_running hs)
  exact .ofRunning hs (h.seqPc_none (by simp [hs]) (by simp [hs])) hc.txc hc.channel ⟨hsrc, hlen, hle, rfl⟩
    fun _ => ⟨BitVec.eq_of_toNat_eq hremain, hq⟩

/-- R182: where a frame waits the coupling asks for no empty queue, and TXC follows the queue. -/
theorem Coupling.shift {b : Block} {x : Adapter} (hc : Coupling b x) {w : Half} {rest : List Half}
    (hq : x.txq = w :: rest) :
    Coupling b { x with txq := rest, wire := x.wire ++ [w], txc := x.txc || rest.isEmpty } := by
  have hne : x.txq ≠ [] := by simp [hq]
  exact
    { hc with
      txc := by simp [hc.txc, hq]
      drained := fun hd => absurd (hc.drained hd) hne
      finished := fun hp hirq => absurd (hc.finished hp hirq).2 hne }

/-- R189: the dispatch of a Running burst's completion. -/
theorem Coupling.complete {b : Block} {x : Adapter} (hc : Coupling b x) (hs : b.state = .running) (hq : x.irqPend = true) :
    Coupling { b with state := .retiring, seqPc := .ret0 } { x with irqPend := false } := by
  have hprog := Block.programmed_of_running hs
  obtain ⟨hremain, hempty⟩ := hc.finished hprog hq
  obtain ⟨-, -, -, htc⟩ := hc.programmed hprog
  exact
    { txc := hc.txc
      channel := hc.channel
      quiet := fun _ => ⟨htc.trans (by rw [hq]; rfl), rfl⟩
      drained := fun _ => hempty
      stopped := (absurd · (show ¬ StoppedAt .ret0 by decide))
      disabled := (absurd · (show ¬ DisabledAt .ret0 by decide))
      programmed := (absurd · Bool.false_ne_true)
      unmoved := (absurd · (show ¬ UnmovedAt .ret0 by decide))
      moved := fun _ => hremain
      finished := (absurd · Bool.false_ne_true) }

/-! ### The micro-steps and the commands -/

/-- R135, R177: ARM2 programs the channel with the block's new descriptor, all of it unmoved. -/
theorem Coupling.arm2 {b : Block} {x : Adapter} (hc : Coupling b x) (hp : b.seqPc = .arm2) (hs : b.state = .armed)
    (src dst : Word) (len : BitVec 8) (tr : List DWord) :
    Coupling { b with
        seqPc := .arm3, descSrc := src, descLen := len, descMinc := true, descPinc := false, descWsize := 0b01 }
      (applyOp (.dmaProgram src len) dst { x with atrace := tr }) := by
  have hcode : b.seqPc.code = 3 := by rw [hp]; rfl
  obtain ⟨-, hirq⟩ := hc.quiet (by rw [Block.programmed_eq, hs, hp]; rfl)
  have hremain : (len.setWidth 9).toNat = len.toNat := by
    rw [BitVec.toNat_setWidth]
    omega
  exact
    { txc := hc.txc
      channel := hc.channel
      quiet := fun hq => absurd hq (by simp [Block.programmed, SeqStep.code])
      drained := fun _ => hc.drained (by simp [hcode])
      stopped := fun _ => hc.stopped (by simp [hcode])
      disabled := fun _ => hc.disabled (by simp [hcode])
      programmed := fun _ => ⟨rfl, rfl, hremain.le, congrArg not hirq.symm⟩
      unmoved := fun _ => ⟨hremain, hirq⟩
      moved := fun hr => absurd (hs.symm.trans hr) nofun
      finished := fun _ hq => absurd (hirq.symm.trans hq) Bool.false_ne_true }

/-- An arming step that leaves queue, descriptor and completion alone keeps the coupling. -/
theorem Coupling.nextArm {b : Block} {x : Adapter} (hc : Coupling b x) (h : b.Inv) {p p' : SeqStep} {st st' : BurstState}
    (hp : b.seqPc = p) (ha : SeqStep.isArm p = true) (hst : st = st') (hg : GoesOn .armed p false st' p')
    {en en' start per cflag f : Bool} {frames : BitVec 8} {tr : List DWord} (hen : en' = en)
    (hstart : StoppedAt p' → start = false) (hper : DisabledAt p' → per = false) :
    Coupling { b with state := st, seqPc := p', descEn := en }
      { x with
        pEn := per, pFrames := frames, pStart := start, dEn := en', cflag := cflag, atrace := tr, envFault := f } := by
  have hs := h.armed_of_seqPc hp ha
  rw [← hst, ← hp, ← hs, ← h.noWsb_of_busy (by simp [hs])] at hg
  exact hc.goOn hg hen hstart hper

/-- R139: ARM6 pushes the first word. -/
theorem Coupling.arm6 {b : Block} {x : Adapter} (hc : Coupling b x) (h : b.Inv) (hp : b.seqPc = .arm6) (w : Half)
    (tr : List DWord) : Coupling { b with seqPc := .arm7 } (Adapter.push { x with atrace := tr } w) := by
  have hs := h.armed_of_seqPc hp rfl
  have hstop := hc.stopped (by rw [hp]; decide)
  obtain ⟨-, hirq⟩ := hc.unmoved (by rw [hp]; decide)
  have hnext : Coupling { b with seqPc := .arm7 } x :=
    hc.nextArm h hp rfl hs (by decide) hc.channel (fun _ => hstop) (absurd · (by decide))
  exact hnext.push (by simp [hs, SeqStep.code]) hirq w tr

/-- A retire step keeps the coupling. -/
theorem Coupling.nextRet {b : Block} {x : Adapter} (hc : Coupling b x) (h : b.Inv) {p p' : SeqStep} {st st' : BurstState}
    (hp : b.seqPc = p) (hr : SeqStep.isRet p = true) (hst : st = st')
    (hg : GoesOn .retiring p false st' p' ∧ ¬ StoppedAt p' ∧ ¬ DisabledAt p') {en en' cflag : Bool} {tr : List DWord}
    (hen : en' = en) :
    Coupling { b with state := st, seqPc := p', descEn := en } { x with dEn := en', cflag := cflag, atrace := tr } := by
  obtain ⟨hg, hstop, hdis⟩ := hg
  have hs := h.retiring_of_seqPc hp hr
  rw [← hst, ← hp, ← hs, ← h.noWsb_of_busy (by simp [hs])] at hg
  exact hc.goOn hg hen (absurd · hstop) (absurd · hdis)

/-- R153: RET2 retires the session and runs CHUNK. -/
theorem Coupling.retire {b : Block} {x : Adapter} (hc : Coupling b x) (h : b.Inv) (hp : b.seqPc = .ret2) :
    Coupling (chunkBlock (retireBlock b)) x := by
  have hidle : Coupling { b with state := .idle, seqPc := .none } x :=
    hc.nextRet h hp rfl rfl (by decide) hc.channel
  have hretired : Coupling (retireBlock b) x := { hidle with }
  exact hretired.chunk (h.retireAtRest hp)

/-- R113: a queued ENQ, CHUNK included. -/
theorem Coupling.enq {b : Block} {x : Adapter} (hc : Coupling b x) (h : b.Inv) (hi : b.inited = true)
    (hw : b.wsbPending = false) (k : Nat) :
    Coupling (chunkBlock { b with head := BitVec.ofNat 8 (k % b.n.toNat), result := false }) x := by
  by_cases hs : b.state = .idle
  · exact Coupling.chunk { hc with } ((h.atRest hi hs hw).setHead _ _)
  · rw [chunkBlock_busy (by exact hs)]
    exact { hc with }

/-- R184: a WSB from Idle pushes its word, and until it is done frames may wait. -/
theorem Coupling.wsb {b : Block} {x : Adapter} (hc : Coupling b x) (h : b.Inv) (hs : b.state = .idle)
    (hw : b.wsbPending = false) (w : Half) (tr : List DWord) :
    Coupling { b with wsbPending := true } (Adapter.push { x with atrace := tr } w) := by
  have hp : b.seqPc = .none := h.seqPc_none (by simp [hs]) (by simp [hs])
  obtain ⟨-, hirq⟩ := hc.quiet (by rw [Block.programmed_eq, hs, hp]; rfl)
  have hset : Coupling { b with wsbPending := true } x :=
    { hc with drained := fun _ => hc.drained (.inr (.inr ⟨hs, hw⟩)) }
  exact hset.push (by simp [hs, hp, SeqStep.code]) hirq w tr

/-! ### Every effect -/

/-- Every effect of a permitted instruction keeps the coupling. -/
theorem Effect.coupled {s u : State} {i : Instr} (he : Effect s i u) (hi : Permitted s i) (h : s.blk.Inv)
    (hc : s.Coupled) : u.Coupled := by
  intro hinit hfault
  cases he with
  | nothing | read => exact hc hinit hfault
  | fault | faultRead | dispatchFault => exact absurd hfault.symm Bool.false_ne_true
  | dispatchFrozen _ hf => exact absurd (hfault.symm.trans hf) Bool.false_ne_true
  | init n _ _ hno =>
    obtain ⟨-, -, -, -, hen⟩ := h.beforeInit hno
    exact .ofBootReady rfl rfl hen (hi.boot n rfl hno)
  | enqDropped | wrArg0 | wrArg1 => exact { hc hinit hfault with }
  | enqQueued len m hf hw hs => exact (hc hs hf).enq h hs hw _
  | wsb w hf hw _ hs => exact (hc hinit hf).wsb h hs hw w _
  | complete _ _ hs => exact absurd hs (hi.noCompletion rfl)
  | chunk => exact absurd rfl hi.noChunk
  | adapter _ op ho => exact absurd (hi.noAdapterOp.symm.trans ho) nofun
  | arm0 hp hf =>
    have hc := hc hinit hf
    exact hc.nextArm h hp rfl (h.armed_of_seqPc hp rfl) (by decide) hc.channel (fun _ => rfl) (fun _ => rfl)
  | arm1 hp hf | arm4 hp hf =>
    have hc := hc hinit hf
    exact hc.nextArm h hp rfl (h.armed_of_seqPc hp rfl) (by decide) hc.channel
      (fun _ => hc.stopped (by rw [hp]; decide)) (fun _ => hc.disabled (by rw [hp]; decide))
  | arm2 hp hf => exact (hc hinit hf).arm2 hp (h.armed_of_seqPc hp rfl) _ _ _ _
  | arm3 hp hf =>
    have hc := hc hinit hf
    exact hc.nextArm h hp rfl (h.armed_of_seqPc hp rfl) (by decide) rfl
      (fun _ => hc.stopped (by rw [hp]; decide)) (fun _ => hc.disabled (by rw [hp]; decide))
  | arm5 hp hf =>
    have hc := hc hinit hf
    exact hc.nextArm h hp rfl (h.armed_of_seqPc hp rfl) (by decide) hc.channel
      (fun _ => hc.stopped (by rw [hp]; decide)) (absurd · (by decide))
  | arm6 hp hf => exact (hc hinit hf).arm6 h hp _ _
  | arm7 hp hf =>
    have hc := hc hinit hf
    exact hc.nextArm h hp rfl rfl (by decide) hc.channel (absurd · (by decide)) (absurd · (by decide))
  | ret0 hp hf =>
    have hc := hc hinit hf
    exact hc.nextRet h hp rfl (h.retiring_of_seqPc hp rfl) (by decide) hc.channel
  | ret1 hp hf => exact (hc hinit hf).nextRet h hp rfl (h.retiring_of_seqPc hp rfl) (by decide) rfl
  | ret2 hp hf =>
    have hs := h.retiring_of_seqPc hp rfl
    exact (hc (h.inited_of_busy (by simp [hs])) hf).retire h hp
  | envDmaXfer hen => exact (hc hinit hfault).xfer h hen _
  | envDmaTc hen => exact (hc hinit hfault).raiseCompletion h hen
  | envShift w rest hq => exact (hc hinit hfault).shift hq
  | dispatch hq hf _ hs => exact (hc hinit hf).complete hs hq
  | wsbDone hw htxc =>
    have hc := hc hinit hfault
    exact { hc with drained := fun _ => List.isEmpty_iff.mp (hc.txc.symm.trans htxc) }

/-- R183: no effect of a permitted instruction breaks a rule of the adapter: ARM0 finds no frame waiting, ARM2 the channel
disabled, ARM4 the peripheral disabled. -/
theorem Effect.envFault_eq {s u : State} {i : Instr} (he : Effect s i u) (hi : Permitted s i) (h : s.blk.Inv)
    (hc : s.Coupled) : u.ext.envFault = s.ext.envFault := by
  have hcoupled {p : SeqStep} (hp : s.blk.seqPc = p) (ha : SeqStep.isArm p = true) (hf : s.blk.faulted = false) :
      Coupling s.blk s.ext := hc (h.inited_of_busy (by simp [h.armed_of_seqPc hp ha])) hf
  cases he with
  | adapter _ op ho => exact absurd (hi.noAdapterOp.symm.trans ho) nofun
  | arm0 hp hf =>
    have hq := (hcoupled hp rfl hf).drained (.inr (.inl (by rw [hp]; decide)))
    simp [applyOp, hq]
  | arm2 hp hf =>
    have hen : s.ext.dEn = false :=
      (hcoupled hp rfl hf).channel.trans (h.descEn_eq.trans (by rw [h.armed_of_seqPc hp rfl, hp]; rfl))
    simp [applyOp, hen]
  | arm4 hp hf =>
    have hper := (hcoupled hp rfl hf).disabled (by rw [hp]; decide)
    simp [applyOp, hper]
  | _ => rfl

end Sys2Proof.Machine
end

section
/-! SUPPORT. The wire (R187): the words handed over, and how each effect of a permitted instruction keeps them in slot
order. -/

namespace Sys2Proof.Machine

/-! ### The words handed over -/

theorem State.slotWords_succ (s : State) (t k : Nat) :
    s.slotWords t (k + 1) = s.slotWords t k ++ [Memory.readHalf s.mem (s.blk.slotAddr (t + k))] := by
  simp [State.slotWords, List.range_succ]

/-- The slots' words stay when their halfwords do. -/
theorem State.slotWords_congr {s u : State} {t k : Nat}
    (h : ∀ i, i < k → Memory.readHalf u.mem (u.blk.slotAddr (t + i)) = Memory.readHalf s.mem (s.blk.slotAddr (t + i))) :
    u.slotWords t k = s.slotWords t k :=
  List.map_congr_left fun i hi => h i (List.mem_range.mp hi)

/-- R139: before ARM6 has pushed a word, nothing of the burst is handed over. -/
theorem State.handedOver_eq_zero {s : State} (hp : s.blk.seqPc ≠ .arm7) (hs : s.blk.state ≠ .running) : s.handedOver = 0 :=
  if_neg (not_or.mpr ⟨hp, hs⟩)

theorem State.handedOver_of_sent {s : State} (h : s.blk.seqPc = .arm7 ∨ s.blk.state = .running) :
    s.handedOver = 1 + (s.ext.dLen.toNat - s.ext.dRemain.toNat) :=
  if_pos h

/-- R187 asks nothing where nothing is handed over. -/
theorem State.wireInOrder_of_nothing_sent {s : State} (hp : s.blk.seqPc ≠ .arm7) (hs : s.blk.state ≠ .running) :
    s.WireInOrder := by
  intro _ _ _
  rw [State.handedOver_eq_zero hp hs]
  exact List.nil_suffix

/-- R131: after CHUNK nothing of a burst is handed over. -/
theorem State.wireInOrder_of_chunk {s : State} {b : Block} (hr : b.AtRest) (hb : s.blk = chunkBlock b) : s.WireInOrder := by
  rcases chunkBlock_cases b with ⟨heq, -⟩ | ⟨-, -, heq⟩ <;> rw [heq] at hb
  · exact State.wireInOrder_of_nothing_sent (by simp [hb, hr.noStep]) (by simp [hb, hr.idle])
  · exact State.wireInOrder_of_nothing_sent (by simp [hb]) (by simp [hb])

/-- Registers, adapter and memory say whether the wire is in order. -/
theorem State.WireInOrder.congr {s t : State} (h : s.WireInOrder) (hb : t.blk = s.blk) (hx : t.ext = s.ext)
    (hm : t.mem = s.mem) : t.WireInOrder := by
  simpa only [State.WireInOrder, State.slotWords, State.handedOver, hb, hx, hm] using h

/-- R39: no more words are handed over than the session has. -/
theorem Coupling.handedOver_le {s : State} (hc : Coupling s.blk s.ext) (h : s.blk.Inv)
    (hs : s.blk.state = .armed ∨ s.blk.state = .running) : s.handedOver ≤ s.blk.session.toNat := by
  unfold State.handedOver
  split
  · rename_i hsent
    have hprog : s.blk.programmed = true := by
      rcases hsent with hp | hr
      · simp [Block.programmed, hp, SeqStep.code]
      · exact Block.programmed_of_running hr
    obtain ⟨-, hlen⟩ := h.descriptor hprog
    obtain ⟨-, hdLen, -, -⟩ := hc.programmed hprog
    obtain ⟨hlow, -⟩ := h.session (by rcases hs with hs | hs <;> simp [hs])
    rw [hdLen, hlen]
    omega
  · exact Nat.zero_le _

/-! ### Memory -/

/-- R76: a store that misses the backing store leaves a halfword of every slot alone. -/
theorem Block.Inv.readHalf_slot_of_store {b : Block} (h : b.Inv) (hi : b.inited = true) {addr : Word}
    (hout : b.inStore addr.toNat = false) (m : Memory) (v : Byte) {i : Nat} (hlt : i < b.n.toNat) :
    Memory.readHalf (Memory.write m addr.toNat v) (b.slotAddr i) = Memory.readHalf m (b.slotAddr i) := by
  have hstore := h.store hi
  have hout := (Block.inStore_eq_false _ _).mp hout
  obtain ⟨hlow, hhigh⟩ := halfAddr_toNat (a := b.base) (i := i) (by omega)
  rw [Memory.readHalf, Memory.readHalf, Block.slotAddr, Memory.read_write_other _ _ (by omega),
    Memory.read_write_other _ _ (by omega)]

/-- R116: a queued ENQ leaves the words of the burst in flight alone. -/
theorem Block.Inv.readHalf_session_of_copy {b : Block} (h : b.Inv) (hs : b.state ≠ .idle) {p : Platform} {src : Word}
    {len : Nat} {m m' : Memory} (hl : len ≤ b.avail) (hm : copyWords p b src len 0 m = some m') {i : Nat}
    (hlt : i < b.session.toNat) :
    Memory.readHalf m' (b.slotAddr (b.tail.toNat + i)) = Memory.readHalf m (b.slotAddr (b.tail.toNat + i)) := by
  have hi := h.inited_of_busy hs
  obtain ⟨-, hocc, hend⟩ := h.session hs
  refine copyWords_readHalf_apart hm fun j _ hj => ?_
  have hapart := h.occupiedSlot_apart hi (i := j) (k := i) (by omega) (by omega)
  rwa [Nat.mod_eq_of_lt (by omega : b.tail.toNat + i < b.n.toNat)] at hapart

/-- R187: a change of memory that leaves the words of the burst in flight alone keeps the wire in order, HEAD and RESULT
whatever they become. -/
theorem State.WireInOrder.setMem {s : State} (hw : s.WireInOrder) (h : s.blk.Inv) (hc : s.Coupled) {m : Memory}
    {head : BitVec 8} {r : Bool}
    (hm : s.blk.state ≠ .idle → ∀ i, i < s.blk.session.toNat →
      Memory.readHalf m (s.blk.slotAddr (s.blk.tail.toNat + i)) =
        Memory.readHalf s.mem (s.blk.slotAddr (s.blk.tail.toNat + i))) :
    ((s.setMem m).setBlk { s.blk with head := head, result := r }).WireInOrder := by
  intro hi hf hs
  have hle := (hc hi hf).handedOver_le h hs
  have hbusy : s.blk.state ≠ .idle := by rcases hs with hs | hs <;> exact ne_of_eq_of_ne hs nofun
  have hwords : (s.setMem m).slotWords s.blk.tail.toNat s.handedOver = s.slotWords s.blk.tail.toNat s.handedOver :=
    State.slotWords_congr fun i hlt => hm hbusy i (by omega)
  have hsent := hw hi hf hs
  rw [← hwords] at hsent
  exact hsent

/-! ### Every effect -/

/-- R139, R180, R187: one more word is handed over, that of the slot after those handed over so far. -/
theorem State.suffix_of_push {s u : State} {a : Word}
    (hsent : s.slotWords s.blk.tail.toNat s.handedOver <:+ s.ext.wire ++ s.ext.txq) (hbase : u.blk.base = s.blk.base)
    (htail : u.blk.tail = s.blk.tail) (hm : u.mem = s.mem) (hcount : u.handedOver = s.handedOver + 1)
    (ha : a = s.blk.slotAddr (s.blk.tail.toNat + s.handedOver)) (hwire : u.ext.wire = s.ext.wire)
    (hq : u.ext.txq = s.ext.txq ++ [Memory.readHalf s.mem a]) :
    u.slotWords u.blk.tail.toNat u.handedOver <:+ u.ext.wire ++ u.ext.txq := by
  have hwords (k : Nat) : u.slotWords s.blk.tail.toNat k = s.slotWords s.blk.tail.toNat k := by
    simp only [State.slotWords, Block.slotAddr, hm, hbase]
  rw [htail, hwords, hcount, State.slotWords_succ, hwire, hq, ha, ← List.append_assoc]
  exact List.suffix_append_self_iff.mpr hsent

/-- R139: the word that ARM6 pushes is that of slot TAIL, the first of the burst. -/
theorem State.WireInOrder.arm6 {s : State} (hw : s.WireInOrder) (h : s.blk.Inv) (hc : s.Coupled) (hp : s.blk.seqPc = .arm6) :
    ((emit (.pushWord (Memory.readHalf s.mem (s.blk.slotAddr s.blk.tail.toNat))) s).setBlk
      { s.blk with seqPc := .arm7 }).WireInOrder := by
  intro hi hf _
  have hc := hc hi hf
  have hs := h.armed_of_seqPc hp rfl
  obtain ⟨hremain, -⟩ := hc.unmoved (by rw [hp]; decide)
  obtain ⟨-, hlen, -, -⟩ := hc.programmed (by simp [Block.programmed, hp, SeqStep.code])
  have hunmoved : s.ext.dLen.toNat - s.ext.dRemain.toNat = 0 := by rw [hlen, hremain, Nat.sub_self]
  have hnone : s.handedOver = 0 := State.handedOver_eq_zero (by simp [hp]) (by simp [hs])
  refine State.suffix_of_push (hw hi hf (.inl hs)) rfl rfl rfl ?_ ?_ rfl rfl
  · rw [hnone]
    exact (State.handedOver_of_sent (.inl rfl)).trans (congrArg (1 + ·) hunmoved)
  · rw [hnone]
    rfl

/-- R140: the start hands nothing over. -/
theorem State.WireInOrder.arm7 {s : State} (hw : s.WireInOrder) (h : s.blk.Inv) (hp : s.blk.seqPc = .arm7) :
    ((emit .periphStart s).setBlk { s.blk with state := .running, seqPc := .none }).WireInOrder := by
  intro hi hf _
  have hsent := hw hi hf (.inl (h.armed_of_seqPc hp rfl))
  rw [State.handedOver_of_sent (.inl hp)] at hsent
  rw [State.handedOver_of_sent (.inr rfl)]
  exact hsent

/-- R180: the word that the DMA moves is that of the next slot, since the channel reads on from slot TAIL+1. -/
theorem State.WireInOrder.xfer {s : State} (hw : s.WireInOrder) (h : s.blk.Inv) (hc : s.Coupled)
    (he : s.ext.xferEnabled = true) :
    (s.setExt { s.ext.push (Memory.readHalf s.mem (xferAddr s.ext)) with dRemain := s.ext.dRemain - 1 }).WireInOrder := by
  intro hi hf _
  have hc := hc hi hf
  have hs := hc.running_of_xferEnabled h he
  have hsent := State.handedOver_of_sent (s := s) (.inr hs)
  obtain ⟨-, -, -, hpos⟩ := s.ext.xferEnabled_iff.mp he
  obtain ⟨hsrc, hlen, hle, -⟩ := hc.programmed (Block.programmed_of_running hs)
  obtain ⟨hslot, -⟩ := h.descriptor (Block.programmed_of_running hs)
  have haddr := xferAddr_eq_slotAddr (hlen ▸ hle) (hsrc.trans hslot)
  have hcount : 1 + (s.ext.dLen.toNat - (s.ext.dRemain - 1).toNat) =
      1 + (s.ext.dLen.toNat - s.ext.dRemain.toNat) + 1 := by
    rw [hlen]
    bv_omega
  rw [← hsent] at haddr hcount
  refine State.suffix_of_push (hw hi hf (.inr hs)) rfl rfl rfl (Eq.trans ?_ hcount) haddr rfl rfl
  exact State.handedOver_of_sent (.inr hs)

/-- R182: a frame that is sent moves from the queue's front to the wire's end. -/
theorem State.WireInOrder.shift {s : State} (hw : s.WireInOrder) {w : Half} {rest : List Half}
    (hq : s.ext.txq = w :: rest) {txc : Bool} :
    (s.setExt { s.ext with txq := rest, wire := s.ext.wire ++ [w], txc := txc }).WireInOrder := by
  intro hi hf hs
  have hsent := hw hi hf hs
  have hsame : (s.ext.wire ++ [w]) ++ rest = s.ext.wire ++ s.ext.txq := by simp [hq]
  rw [← hsame] at hsent
  exact hsent

/-- Every effect of a permitted instruction keeps the wire in order. -/
theorem Effect.wireInOrder {s u : State} {i : Instr} (he : Effect s i u) (hi : Permitted s i) (h : s.blk.Inv)
    (hc : s.Coupled) (hw : s.WireInOrder) : u.WireInOrder := by
  cases he with
  | nothing | read | enqDropped | wrArg0 | wrArg1 | envDmaTc | dispatchFrozen | wsbDone => exact hw
  | fault | faultRead | dispatchFault => exact fun _ hf => absurd hf.symm Bool.false_ne_true
  | init | complete | dispatch => exact State.wireInOrder_of_nothing_sent nofun nofun
  | enqQueued len m hf hw' hi' ho hr ha hm =>
    by_cases hs : s.blk.state = .idle
    · exact State.wireInOrder_of_chunk ((h.atRest hi' hs hw').setHead _ _) rfl
    · rw [chunkBlock_busy (by exact hs)]
      exact hw.setMem h hc fun hs i => h.readHalf_session_of_copy hs ha hm
  | wsb w hf hw' hi' hs => exact State.wireInOrder_of_nothing_sent (by simp [h.seqPc_none, hs]) (by simp [hs])
  | chunk => exact absurd rfl hi.noChunk
  | adapter _ op ho => exact absurd (hi.noAdapterOp.symm.trans ho) nofun
  | arm0 hp | arm1 hp | arm2 hp | arm3 hp | arm4 hp | arm5 hp =>
    exact State.wireInOrder_of_nothing_sent nofun (by simp [h.armed_of_seqPc hp rfl])
  | arm6 hp => exact hw.arm6 h hc hp
  | arm7 hp => exact hw.arm7 h hp
  | ret0 hp | ret1 hp => exact State.wireInOrder_of_nothing_sent nofun (by simp [h.retiring_of_seqPc hp rfl])
  | ret2 hp => exact State.wireInOrder_of_chunk (h.retireAtRest hp) rfl
  | envDmaXfer hen => exact hw.xfer h hc hen
  | envShift w rest hq => exact hw.shift hq

end Sys2Proof.Machine
end

section
/-! SUPPORT. A burst run by the reference environment in its plain order (R246). -/

namespace Sys2Proof.Machine

@[simp] theorem chunkBlock_faulted (b : Block) : (chunkBlock b).faulted = b.faulted := by
  obtain ⟨-, -, -, -, -, -, -, -, -, -, -, h, -⟩ := chunkBlock_frame b
  exact h

theorem Runs.trans {a b : Nat} {s t u : State} (h : Runs a s t) (h' : Runs b t u) : Runs (a + b) s u := by
  induction a generalizing s with
  | zero =>
    cases h
    rwa [Nat.zero_add]
  | succ a ih =>
    obtain ⟨v, hv, h⟩ := h
    rw [Nat.succ_add]
    exact ⟨v, hv, ih h⟩

/-- `k` events of one kind, each of which takes `P j` to `P (j + 1)`. -/
theorem runs_replicate {P : Nat → State → Prop} {e : Event} {n : Nat}
    (hstep : ∀ j t l, j < n → P j t → t.sched = e :: l → ∃ u, step t = .next u ∧ P (j + 1) u ∧ u.sched = l)
    {k j : Nat} {t : State} {l : List Event} (hn : j + k = n) (h : P j t) (hs : t.sched = List.replicate k e ++ l) :
    ∃ u, Runs k t u ∧ P n u ∧ u.sched = l := by
  induction k generalizing j t with
  | zero => exact ⟨t, rfl, hn ▸ h, hs⟩
  | succ k ih =>
    obtain ⟨v, hv, hP, hsched⟩ := hstep j t _ (by omega) h hs
    obtain ⟨u, hrun, hu⟩ := ih (by omega) hP hsched
    exact ⟨u, ⟨v, hv, hrun⟩, hu⟩

/-- The step that takes a step of the environment from the schedule. -/
theorem step_env {v : EnvStep} {i : Instr} {s t : State} {l : List Event} (hs : s.sched = .env v :: l)
    (hi : decode (.env v) = .ok i) (ht : exec i (s.setSched l) = .next t) : step s = .next t := by
  rw [step_cons hs (waits_of_no_agent rfl), turn_of_decode (s := s.setSched l) rfl hi, ht]
  rfl

/-- `t` runs the burst of `s`: `m` of its words are handed to the peripheral and `k` of them have been sent. -/
structure Sending (s : State) (m k : Nat) (t : State) : Prop where
  state : t.blk.state = .running
  inited : t.blk.inited = true
  clear : t.blk.faulted = false
  n : t.blk.n = s.blk.n
  tail : t.blk.tail = s.blk.tail
  session : t.blk.session = s.blk.session
  mem : t.mem = s.mem
  platform : t.platform = s.platform
  enabled : t.ext.dEn = true ∧ t.ext.pEn = true ∧ t.ext.pStart = true
  source : t.ext.dSrc = s.blk.slotAddr (s.blk.tail.toNat + 1)
  len : t.ext.dLen.toNat = s.blk.session.toNat - 1
  remain : t.ext.dRemain.toNat + m = s.blk.session.toNat
  armed : t.ext.tcArmed = true
  line : t.ext.wire ++ t.ext.txq = s.ext.wire ++ s.slotWords s.blk.tail.toNat m
  sent : t.ext.wire.length = s.ext.wire.length + k
  unbroken : t.ext.envFault = s.ext.envFault

/-- The adapter after operations sent to it one after another, DESC_DST being `dst` (R170). -/
def receive (dst : Word) (ops : List AdapterOp) (x : Adapter) : Adapter :=
  match ops with
  | [] => x
  | op :: ops => receive dst ops (applyOp op dst { x with atrace := x.atrace ++ [op.word] })

/-- What a transition of an arming step makes of the adapter, and what it leaves. -/
theorem exec_armNext {i : Instr} {p q : SeqStep} {op : AdapterOp} {s u : State} (hi : isMicroStep i p)
    (hn : armNext s p = some (op, q)) (h : exec i s = .next u) :
    u.ext = (emit op s).ext ∧ u.blk.descDst = s.blk.descDst ∧ u.blk.n = s.blk.n ∧ u.blk.inited = s.blk.inited := by
  cases p with
  | none | ret0 | ret1 | ret2 => cases hn
  | arm6 =>
    cases hi
    cases hn
    obtain ⟨-, -, h⟩ := microStep_next h
    split at h <;> cases h
    exact ⟨rfl, rfl, rfl, rfl⟩
  | arm0 | arm1 | arm2 | arm3 | arm4 | arm5 | arm7 =>
    cases hi
    cases hn
    obtain ⟨-, -, h⟩ := microStep_next h
    cases h
    exact ⟨rfl, rfl, rfl, rfl⟩

/-- R141: the turns of SEQ that arm a burst leave the adapter with the operations received. -/
theorem Arming.runs_received {s t : State} {p q : SeqStep} {ops : List AdapterOp} {l : List Event} (h : Arming s p t)
    (ha : admits s.platform (s.blk.slotAddr s.blk.tail.toNat) = true) (hops : ArmSends s ops p q)
    (hs : t.sched = List.replicate ops.length .seq ++ l) :
    ∃ u, Runs ops.length t u ∧ Arming s q u ∧ u.sched = l ∧ u.ext = receive t.blk.descDst ops t.ext ∧
      u.blk.n = t.blk.n ∧ u.blk.inited = t.blk.inited := by
  induction ops generalizing p t with
  | nil =>
    cases hops
    exact ⟨t, rfl, h, hs, rfl, rfl, rfl⟩
  | cons op ops ih =>
    obtain ⟨p', hn, hops⟩ := hops
    have h' := h.setSched (List.replicate ops.length .seq ++ l)
    obtain ⟨i, v, hi, hv, hvarm, -⟩ := h'.sends ha hn
    obtain ⟨hvext, hvdst, hvn, hvi⟩ := exec_armNext hi (h'.armNext_eq ▸ hn) hv
    obtain ⟨-, -, -, hvsched⟩ := exec_frame hv
    obtain ⟨u, hrun, harm, hsched, hext, hn', hi'⟩ := ih hvarm hops hvsched
    rw [hvdst, hvext] at hext
    exact ⟨u, ⟨v, step_seq hs (h.holds ▸ hi) hv, hrun⟩, harm, hsched, hext, hn'.trans hvn, hi'.trans hvi⟩

/-- The eight operations of the arming sequence of the burst of `s` (R141). -/
def armingOps (s : State) : List AdapterOp :=
  [.periphDisable, .clearCflag,
    .dmaProgram (s.blk.slotAddr (s.blk.tail.toNat + 1)) (BitVec.ofNat 8 (s.blk.session.toNat - 1)), .dmaEnable,
    .periphSetFrames s.blk.session, .periphEnable,
    .pushWord (Memory.readHalf s.mem (s.blk.slotAddr s.blk.tail.toNat)), .periphStart]

theorem armSends_armingOps (s : State) : ArmSends s (armingOps s) .arm0 .none :=
  ⟨_, rfl, _, rfl, _, rfl, _, rfl, _, rfl, _, rfl, _, rfl, _, rfl, rfl⟩

/-- R141: the arming sequence hands the first word over. -/
theorem runs_arming {s : State} {l : List Event} (h : s.blk.Inv) (hc : Coupling s.blk s.ext) (hi : s.blk.inited = true)
    (hf : s.blk.faulted = false) (hp : s.blk.seqPc = .arm0)
    (ha : admits s.platform (s.blk.slotAddr s.blk.tail.toNat) = true) (hs : s.sched = List.replicate 8 .seq ++ l) :
    ∃ t, Runs 8 s t ∧ Sending s 1 0 t ∧ t.sched = l := by
  have harmed := h.armed_of_seqPc hp rfl
  have hlow : 2 ≤ s.blk.session.toNat := (h.session (by simp [harmed])).1
  have hempty : s.ext.txq = [] := hc.drained (.inr (.inl (by rw [hp]; decide)))
  have hoff : s.ext.dEn = false := hc.channel.trans (h.descEn_eq.trans (by rw [harmed, hp]; rfl))
  have hstart : Arming s .arm0 s := ⟨hp, hf, rfl, rfl, rfl, rfl, rfl, nofun⟩
  obtain ⟨t, hrun, harm, hsched, hx, hn, hi'⟩ := hstart.runs_received ha (armSends_armingOps s) hs
  have hlen : t.ext.dLen = BitVec.ofNat 8 (s.blk.session.toNat - 1) := by rw [hx]; rfl
  have hremain : t.ext.dRemain = t.ext.dLen.setWidth 9 := by rw [hx]; rfl
  have hqueue : t.ext.txq = s.ext.txq ++ [Memory.readHalf s.mem (s.blk.slotAddr s.blk.tail.toNat)] := by rw [hx]; rfl
  have hwire : t.ext.wire = s.ext.wire := by rw [hx]; rfl
  have hclean : t.ext.envFault = (((s.ext.envFault || !s.ext.txq.isEmpty) || s.ext.dEn) || false) := by rw [hx]; rfl
  have hlen' : t.ext.dLen.toNat = s.blk.session.toNat - 1 := by
    rw [hlen, BitVec.toNat_ofNat]
    omega
  refine ⟨t, hrun, ?_, hsched⟩
  exact
    { state := harm.started rfl
      inited := hi'.trans hi
      clear := harm.clear
      n := hn
      tail := harm.tail
      session := harm.session
      mem := harm.mem
      platform := harm.platform
      enabled := by rw [hx]; exact ⟨rfl, rfl, rfl⟩
      source := by rw [hx]; rfl
      len := hlen'
      remain := by
        rw [hremain, BitVec.toNat_setWidth]
        omega
      armed := by rw [hx]; rfl
      line := by simp [hwire, hqueue, hempty, State.slotWords]
      sent := congrArg List.length hwire
      unbroken := by simp [hclean, hempty, hoff] }

/-- R180: the DMA hands the next word over. -/
theorem Sending.xfer {s t : State} {m : Nat} {l : List Event} (h : Sending s m 0 t) (h1 : 1 ≤ m)
    (hm : m < s.blk.session.toNat) (ha : admits s.platform (s.blk.slotAddr (s.blk.tail.toNat + m)) = true)
    (hs : t.sched = .env .dmaXfer :: l) : ∃ u, step t = .next u ∧ Sending s (m + 1) 0 u ∧ u.sched = l := by
  obtain ⟨hdEn, hpEn, hstart⟩ := h.enabled
  have hlen := h.len
  have hremain := h.remain
  have hen : t.ext.xferEnabled = true := t.ext.xferEnabled_iff.mpr ⟨hdEn, hpEn, hstart, by omega⟩
  have haddr : xferAddr t.ext = s.blk.slotAddr (s.blk.tail.toNat + m) := by
    rw [xferAddr_eq_slotAddr (by omega) h.source]
    congr 2
    omega
  have hadm : admits t.platform (xferAddr t.ext) = true := by rw [h.platform, haddr, ha]
  have hdec : (t.ext.dRemain - 1).toNat + (m + 1) = s.blk.session.toNat := by bv_omega
  refine ⟨_, step_env hs rfl (exec_envDmaXfer_moved (s := t.setSched l) hen hadm), ?_, rfl⟩
  exact
    { h with
      remain := hdec
      line := by
        show t.ext.wire ++ (t.ext.txq ++ [Memory.readHalf t.mem (xferAddr t.ext)]) = _
        rw [State.slotWords_succ, ← List.append_assoc, h.line, h.mem, haddr, List.append_assoc] }

/-- R182: the words that are handed over and not yet sent wait. -/
theorem Sending.waiting {s t : State} {m k : Nat} (h : Sending s m k t) : k + t.ext.txq.length = m := by
  have hline := congrArg List.length h.line
  rw [List.length_append, h.sent] at hline
  simp only [List.length_append, State.slotWords, List.length_map, List.length_range] at hline
  omega

theorem Sending.queue_empty {s t : State} {m : Nat} (h : Sending s m m t) : t.ext.txq = [] := by
  have hwait := h.waiting
  exact List.length_eq_zero_iff.mp (by omega)

/-- R182: the oldest waiting word is sent. -/
theorem Sending.shift {s t : State} {m k : Nat} {l : List Event} (h : Sending s m k t) (hk : k < m)
    (hs : t.sched = .env .shift :: l) : ∃ u, step t = .next u ∧ Sending s m (k + 1) u ∧ u.sched = l := by
  have hwait := h.waiting
  have hline := h.line
  obtain ⟨w, rest, hq⟩ := List.exists_cons_of_length_pos (by omega : 0 < t.ext.txq.length)
  refine ⟨_, step_env hs rfl (exec_envShift_sent (s := t.setSched l) hq), ?_, rfl⟩
  exact
    { h with
      line := by simpa [hq] using hline
      sent := by simp [h.sent, Nat.add_assoc] }

/-- R181, R189: the completion of a burst that is sent, and its dispatch. -/
theorem Sending.complete {s t : State} {l : List Event} (h : Sending s s.blk.session.toNat s.blk.session.toNat t)
    (hs : t.sched = .env .dmaTc :: .env .dispatch :: l) :
    ∃ u, Runs 2 t u ∧ u.sched = l ∧ u.mem = t.mem ∧ u.blk = { t.blk with state := .retiring, seqPc := .ret0 } ∧
      u.ext.wire = t.ext.wire ∧ u.ext.txq = t.ext.txq ∧ u.ext.envFault = t.ext.envFault := by
  obtain ⟨hdEn, -, -⟩ := h.enabled
  have hremain := h.remain
  have hen : t.ext.tcEnabled = true := t.ext.tcEnabled_iff.mpr ⟨hdEn, h.armed, by omega, h.queue_empty⟩
  exact ⟨_, ⟨_, step_env hs rfl (if_pos hen),
    _, step_env rfl rfl ((exec_envDispatch_pending rfl).trans (exec_complete_done h.clear h.inited h.state)), rfl⟩,
    rfl, rfl, rfl, rfl, rfl, rfl⟩

/-- A turn of SEQ, and then a run. -/
theorem Runs.seq {k : Nat} {i : Instr} {p : SeqStep} {s t u : State} {l : List Event} (hs : s.sched = .seq :: l)
    (hp : s.blk.seqPc = p) (hi : isMicroStep i p) (ht : exec i (s.setSched l) = .next u) (h : Runs k u t) :
    Runs (k + 1) s t :=
  ⟨u, step_seq hs (hp ▸ hi) ht, h⟩

/-- R151 to R153: three turns of SEQ retire the session. -/
theorem runs_retire {s : State} {l : List Event} (hp : s.blk.seqPc = .ret0) (hf : s.blk.faulted = false)
    (hs : s.sched = .seq :: .seq :: .seq :: l) :
    ∃ t, Runs 3 s t ∧ t.sched = l ∧ t.mem = s.mem ∧ t.ext.wire = s.ext.wire ∧ t.ext.txq = s.ext.txq ∧
      t.ext.envFault = s.ext.envFault ∧ t.blk.faulted = false ∧ t.blk.tail = (retireBlock s.blk).tail := by
  have hrun := Runs.seq hs hp rfl (microStep_enabled (p := .ret0) hp hf _) <|
    Runs.seq (p := .ret1) rfl rfl rfl (microStep_enabled rfl (by exact hf) _) <|
    Runs.seq (p := .ret2) rfl rfl rfl (exec_ret2 rfl (by exact hf)) (k := 0) rfl
  refine ⟨_, hrun, rfl, rfl, rfl, rfl, rfl, ?_, chunkBlock_tail _⟩
  exact (chunkBlock_faulted _).trans hf

end Sys2Proof.Machine
end

section
/-! The statements of 43_adapter_single_word.md that this part settles. -/

open Sys2Proof Sys2Proof.Machine

/-- Settles O42: what an event makes of block and adapter under the contract, effect by effect. -/
theorem txringNeverBreaksAnAdapterRule : Obligations.TxringNeverBreaksAnAdapterRule := by
  rintro s t ⟨h, -⟩ hc hk hstep
  rcases turn_permitted (hk.setSched _) hstep with ⟨hb, hx, -⟩ | ⟨hi, hx⟩ | ⟨addr, v, -, rfl⟩ | ⟨i, u, hi, he, hb, hx, -⟩
  · rw [State.Coupled, hb, hx]
    exact ⟨rfl, hc⟩
  · exact ⟨hx, fun hi' => absurd (hi.symm.trans hi') Bool.false_ne_true⟩
  · exact ⟨rfl, hc⟩
  · rw [State.Coupled, hb, hx]
    exact ⟨he.envFault_eq hi h hc, he.coupled hi h hc⟩

/-- Settles O43: the same for the words handed over; a store misses the slots of the burst. -/
theorem wireKeepsSlotOrder : Obligations.WireKeepsSlotOrder := by
  rintro s t ⟨h, -⟩ hc hw hk hstep
  rcases turn_permitted (hk.setSched _) hstep with hsame | ⟨hi, -⟩ | ⟨addr, v, hout, rfl⟩ | ⟨i, u, hi, he, hsame⟩
  · exact State.WireInOrder.congr hw hsame.1 hsame.2.1 hsame.2.2
  · exact fun hi' => absurd (hi.symm.trans hi') Bool.false_ne_true
  · refine State.WireInOrder.setMem (s := s) hw h hc fun hs i hlt => ?_
    have hi := h.inited_of_busy hs
    obtain ⟨-, -, hend⟩ := h.session hs
    exact h.readHalf_slot_of_store hi (by simpa [hi] using hout) _ _ (by omega)
  · exact State.WireInOrder.congr (he.wireInOrder hi h hc hw) hsame.1 hsame.2.1 hsame.2.2

/-- Settles O45: the arming sequence, the DMA's words, the frames, the completion and the retire, one run after another. -/
theorem burstReachesTheWire : Obligations.BurstReachesTheWire := by
  rintro s rest ⟨h, -⟩ hc hi hf hp hadm hs
  have hbusy : s.blk.state ≠ .idle := by simp [h.armed_of_seqPc hp rfl]
  have hlow := (h.session hbusy).1
  obtain ⟨h1, h2⟩ := h.slots hi
  simp only [burstEvents, List.append_assoc] at hs
  obtain ⟨t₁, hrun₁, hsend₁, hsched₁⟩ := runs_arming h (hc hi hf) hi hf hp (hadm 0 (by omega)) hs
  obtain ⟨t₂, hrun₂, ⟨-, hsend₂⟩, hsched₂⟩ := runs_replicate (P := fun m t => 1 ≤ m ∧ Sending s m 0 t)
    (fun m t l hm ⟨h1, hsend⟩ hs => by
      obtain ⟨u, hu, hsend, hsched⟩ := hsend.xfer h1 hm (hadm m hm) hs
      exact ⟨u, hu, ⟨by omega, hsend⟩, hsched⟩)
    (by omega : 1 + (s.blk.session.toNat - 1) = s.blk.session.toNat) ⟨Nat.le_refl 1, hsend₁⟩ hsched₁
  obtain ⟨t₃, hrun₃, hsend₃, hsched₃⟩ := runs_replicate (P := Sending s s.blk.session.toNat)
    (fun k t l hk hsend hs => hsend.shift hk hs) (Nat.zero_add s.blk.session.toNat) hsend₂ hsched₂
  obtain ⟨t₄, hrun₄, hsched₄, hmem₄, hblk₄, hwire₄, hq₄, hclean₄⟩ := hsend₃.complete hsched₃
  obtain ⟨t, hrun, hsched, hmem, hwire, hq, hclean, hclear, htail⟩ :=
    runs_retire (s := t₄) (by rw [hblk₄]) (by rw [hblk₄]; exact hsend₃.clear) hsched₄
  refine ⟨t, ((hrun₁.trans hrun₂).trans hrun₃).trans (hrun₄.trans hrun), hsched, ?_⟩
  have hempty := hsend₃.queue_empty
  have hline := hsend₃.line
  rw [hempty, List.append_nil] at hline
  refine ⟨hmem.trans (hmem₄.trans hsend₃.mem), hwire.trans (hwire₄.trans hline), hq.trans (hq₄.trans hempty), hclear,
    hclean.trans (hclean₄.trans hsend₃.unbroken), ?_⟩
  rw [htail, hblk₄, retireBlock, hsend₃.tail, hsend₃.session, hsend₃.n]
  exact toNat_ofNat_mod h1 h2

/-- Settles O15: one answer for each check that fails, in order, and the push when all pass. -/
theorem wsbByCases : Obligations.WsbByCases := by
  intro w s
  refine ⟨fun hf => cmdPort_frozen hf _, fun hf hw => cmdPort_held hf hw _, fun ho hi => exec_wsb_notInit ho hi w,
    fun ho hi hs => exec_wsb_burst ho hi hs w, fun ho hi hs => ?_⟩
  rw [exec_wsb_done ho hi hs, ← AdapterOp.word_pushWord]
  rfl

/-- Settles O31: each operation is one emission, whose word is written out by its fields. -/
theorem peripheralOperations : Obligations.PeripheralOperations := by
  intro n w s
  rw [← AdapterOp.word_pushWord]
  exact ⟨rfl, rfl, rfl, rfl, rfl⟩

/-- Settles O32: the same for the channel; D_REMAIN is the length in 9 bits. -/
theorem dmaOperations : Obligations.DmaOperations := by
  intro src len s
  rw [BitVec.ofNat_toNat]
  exact ⟨rfl, rfl, rfl, rfl⟩

/-- Settles O33: the move is guarded by its enabling and by the read of the next address. -/
theorem dmaMovesOneWord : Obligations.DmaMovesOneWord := by
  intro s enabled a
  have ha : a = xferAddr s.ext := (xferAddr_eq_ofInt s.ext).symm
  have hen : s.ext.xferEnabled = true ↔ enabled := s.ext.xferEnabled_iff
  rw [ha, ← hen]
  refine ⟨fun h => exec_envDmaXfer_disabled (Bool.eq_false_iff.mpr h), exec_envDmaXfer_stuck, fun h hadm => ?_⟩
  obtain ⟨-, -, -, hremain⟩ := hen.mp h
  rw [exec_envDmaXfer_moved h hadm, sub_one_eq_ofNat hremain]
  rfl

/-- Settles O34: DMA_TC is guarded by its enabling, and SHIFT takes the queue apart. -/
theorem completionAndShift : Obligations.CompletionAndShift := by
  intro s w waiting enabled
  have hen : s.ext.tcEnabled = true ↔ enabled := s.ext.tcEnabled_iff
  rw [← hen]
  refine ⟨fun h => if_pos h, fun h => if_neg h, fun hq => ?_, fun hq => ?_⟩
  · rw [exec_envShift_sent hq]
    cases waiting <;> simp [State.setExt]
  · simp [exec, execEnvShift, hq]

/-- Settles O35: an acknowledged interrupt is a COMPLETE, and both steps are guarded by their enabling. -/
theorem dispatchAndWsbDone : Obligations.DispatchAndWsbDone := by
  intro s
  refine ⟨fun h => ⟨_, exec_envDispatch_pending h, rfl⟩, fun h => if_neg (by simp [h]),
    fun ⟨hw, hc⟩ => if_pos (by simp [hw, hc]), fun h => if_neg (by simpa using h)⟩

end

section
/-! SUPPORT. The register window (44_register_access.md): the two answers of a register write, and the accesses that decode as
inert. -/

namespace Sys2Proof.Machine

theorem writeReg_clear {s : State} (hf : s.blk.faulted = false) (b : Block) : writeReg s b = .next (s.setBlk b) :=
  if_neg (ne_true_of_eq_false hf)

theorem writeReg_frozen {s : State} (hf : s.blk.faulted = true) (b : Block) : writeReg s b = .next s := if_pos hf

theorem wellFormed_inert_read_iff (off : BitVec 6) :
    WellFormed (.inert off .read) = true ↔
      off.toNat = 0x00 ∨ off.toNat = 0x04 ∨ off.toNat = 0x34 ∨ off.toNat = 0x38 ∨ off.toNat = 0x3C := by
  simp [WellFormed, inertAccess, BitVec.toNat_eq, or_assoc]

theorem wellFormed_inert_write_iff (off : BitVec 6) (v : Word) :
    WellFormed (.inert off (.write v)) = true ↔ 0x10 ≤ off.toNat ∧ off.toNat % 4 = 0 := by
  simp [WellFormed, inertAccess, and_comm]

end Sys2Proof.Machine
end

section
/-! The statements of 44_register_access.md that this part settles. -/

open Sys2Proof Sys2Proof.Machine

/-- Settles O17: each read is a `readReg` of its word, and the words of INDEX, LEVEL, SESSION and DCTL are written out. -/
theorem readsReturnTheirRegister : Obligations.ReadsReturnTheirRegister := fun _ =>
  ⟨rfl, rfl, rfl, rfl, rfl, rfl, rfl, rfl, rfl, rfl, rfl⟩

/-- Settles O21: both writes are a `writeReg`, which FAULTED guards. -/
theorem argumentWrites : Obligations.ArgumentWrites := fun _ _ =>
  ⟨fun hf => ⟨writeReg_clear hf _, writeReg_clear hf _⟩, fun hf => ⟨writeReg_frozen hf _, writeReg_frozen hf _⟩⟩

/-- Settles O22: the offsets named are those of a well-formed inert access, which the decoder gives back from its code. -/
theorem inertAccesses : Obligations.InertAccesses :=
  ⟨fun off _ hoff => ⟨Laws.RoundTrip.inert off .read ((wellFormed_inert_read_iff off).mpr hoff), rfl⟩,
    fun off v _ hlow halign =>
      ⟨Laws.RoundTrip.inert off (.write v) ((wellFormed_inert_write_iff off v).mpr ⟨hlow, halign⟩), rfl⟩⟩

end

section
/-! SUPPORT. Faults (60_exceptions.md): what an instruction makes of FAULTED, FAULT_CAUSE and FINFO (R212), and what is left of
an instruction and of an event while FAULTED = 1 (R213, R214). -/

namespace Sys2Proof.Machine

/-! ### The fault registers (R212) -/

/-- R212: an instruction leaves the fault's registers as they were, or takes a first fault, which changes them alone of
TXRING's registers and neither memory nor ATRACE. -/
theorem Effect.fault_cases {s t : State} {i : Instr} (he : Effect s i t) :
    (t.blk.faulted = s.blk.faulted ∧ t.blk.cause = s.blk.cause ∧ t.blk.finfo = s.blk.finfo) ∨
    (s.blk.faulted = false ∧ ∃ (c : FaultCause) (v : Word), c ≠ .none ∧
      t.blk = { s.blk with faulted := true, cause := c, finfo := v } ∧ t.mem = s.mem ∧ t.ext.atrace = s.ext.atrace) := by
  cases he with
  | fault _ c v hc hf | faultRead _ c v hc hf | dispatchFault c v hc _ hf => exact .inr ⟨hf, c, v, hc, rfl, rfl, rfl⟩
  | enqQueued | chunk | ret2 =>
    obtain ⟨-, -, -, -, -, -, -, -, -, -, -, hfaulted, hcause, hinfo⟩ := chunkBlock_frame _
    exact .inl ⟨hfaulted, hcause, hinfo⟩
  | _ => exact .inl ⟨rfl, rfl, rfl⟩

/-! ### While FAULTED = 1 (R213) -/

theorem exec_illegal_frozen {s : State} (hf : s.blk.faulted = true) (port : Port) (w : Word) :
    exec (.illegal port w) s = .next s := by
  cases port with
  | cmd => exact cmdPort_frozen hf _
  | cpl => exact congrArg Host.Outcome.next (raiseFault_of_faulted hf _ _)

/-- R189, R213: the dispatch acknowledges the interrupt and its completion is ignored. -/
theorem exec_envDispatch_frozen {s : State} (hf : s.blk.faulted = true) (hq : s.ext.irqPend = true) :
    exec .envDispatch s = .next { s with ext := { s.ext with irqPend := false } } :=
  (exec_envDispatch_pending hq).trans (exec_complete_frozen hf)

/-- R213, R214: while FAULTED = 1 an instruction leaves TXRING's registers as they were, or is WSB_DONE. CHUNK is left out: it
has no event of its own (R99). -/
theorem Effect.blk_of_faulted {s t : State} {i : Instr} (he : Effect s i t) (hf : s.blk.faulted = true) (hne : i ≠ .chunk) :
    t.blk = s.blk ∨ (i = .wsbDone ∧ t.blk = { s.blk with wsbPending := false }) := by
  cases he with
  | nothing | read | adapter | envDmaXfer | envDmaTc | envShift | dispatchFrozen => exact .inl rfl
  | wsbDone => exact .inr ⟨rfl, rfl⟩
  | chunk => exact absurd rfl hne
  | _ => exact absurd hf (ne_true_of_eq_false ‹_›)

/-! ### The events of the environment's steps -/

theorem code_of_eventInstr {s : State} {e : Event} {i : Instr} (h : eventInstr s e = some i) :
    ∃ c, eventCode s e = some c ∧ decode c = .ok i := by
  unfold eventInstr at h
  split at h
  · cases h
  · rename_i c hc
    split at h <;> cases h
    exact ⟨c, hc, ‹_›⟩

theorem encode_decodeCommand_ne_env (port : Port) (w : Word) (v : EnvStep) : encode (decodeCommand port w) ≠ .env v := by
  unfold decodeCommand
  cases port <;> split_ifs <;> nofun

theorem encode_decodeRead_ne_env (off : BitVec 6) (v : EnvStep) : encode (decodeRead off) ≠ .env v := by
  revert off
  cases v <;> decide

theorem encode_decodeAccess_ne_env (off : BitVec 6) (size : Nat) (dir : Dir) (v : EnvStep) :
    encode (decodeAccess off size dir) ≠ .env v := by
  unfold decodeAccess
  split
  · nofun
  cases dir with
  | read => exact encode_decodeRead_ne_env off v
  | write val =>
    dsimp only [decodeWrite]
    split_ifs
    · exact encode_decodeCommand_ne_env .cmd val v
    · exact encode_decodeCommand_ne_env .cpl val v
    all_goals nofun

theorem encode_ne_env_of_decodeSeq {code : BitVec 4} {i : Instr} (h : decodeSeq code = .ok i) (v : EnvStep) :
    encode i ≠ .env v := by
  unfold decodeSeq at h
  split at h
  · cases h
  · rename_i p _
    cases p <;> cases h <;> nofun

theorem encode_ne_env_of_decodeAdapter {w : DWord} {i : Instr} (h : decodeAdapter w = .ok i) (v : EnvStep) :
    encode i ≠ .env v := by
  unfold decodeAdapter at h
  split at h
  case h_10 => cases h
  all_goals
    dsimp only at h
    split_ifs at h
    all_goals cases h; nofun

/-- An environment step is the instruction of its own event only. -/
theorem event_of_encode_env {s : State} {e : Event} {i : Instr} {v : EnvStep} (h : eventInstr s e = some i)
    (hv : encode i = .env v) : e = .env v := by
  obtain ⟨c, hc, hi⟩ := code_of_eventInstr h
  cases c with
  | access off size dir => cases hi; exact absurd hv (encode_decodeAccess_ne_env off size dir v)
  | seq code => exact absurd hv (encode_ne_env_of_decodeSeq hi v)
  | adapter w => exact absurd hv (encode_ne_env_of_decodeAdapter hi v)
  | env v' =>
    have hv' : v' = v := by cases hi; cases v' <;> cases hv <;> rfl
    cases e with
    | env w => exact congrArg Event.env ((Code.env.inj (Option.some.inj hc)).trans hv')
    | _ => simp [eventCode] at hc
  | chunk => cases hi; cases hv

/-- R213, R214: in a step while FAULTED = 1, TXRING's registers change only by reset or by WSB_DONE. -/
theorem step_blk_of_faulted {s t : State} (hf : s.blk.faulted = true) (h : step s = .next t) :
    t.blk = s.blk ∨ ((takeEvent s).1 = .reset ∧ t.blk = Block.reset) ∨
      ((takeEvent s).1 = .env .wsbDone ∧ t.blk = { s.blk with wsbPending := false }) := by
  rcases step_blk Prod.mk.eta.symm h with hb | hreset | ⟨i, u, hev, heff, hb⟩
  · exact .inl hb
  · exact .inr (.inl hreset)
  · obtain ⟨c, hc, hi⟩ := code_of_eventInstr hev
    rw [hb]
    rcases heff.blk_of_faulted hf (ne_chunk_of_event hc hi) with hsame | ⟨rfl, hdone⟩
    · exact .inl hsame
    · exact .inr (.inr ⟨event_of_encode_env hev rfl, hdone⟩)

end Sys2Proof.Machine
end

section
/-! SUPPORT. A Running burst (R224, R240): what ends it, and that its pending completion interrupt stays pending until the
dispatch. -/

namespace Sys2Proof.Machine

/-- R224: an instruction that is neither COMPLETE nor the dispatch leaves a Running burst Running: INIT needs INITED = 0, SEQ_PC
holds no micro-step, and CHUNK does nothing. -/
theorem Effect.keeps_running {s t : State} {i : Instr} (he : Effect s i t) (h : s.blk.Inv) (hs : s.blk.state = .running)
    (hd : i ≠ .envDispatch) (hc : i ≠ .complete) : t.blk.state = .running := by
  have hbusy : s.blk.state ≠ .idle := by rw [hs]; nofun
  have hp : s.blk.seqPc = .none := h.seqPc_none (by rw [hs]; nofun) (by rw [hs]; nofun)
  cases he with
  | init _ _ _ hi => exact absurd (hi.symm.trans (h.inited_of_busy hbusy)) nofun
  | enqQueued | chunk =>
    rw [State.setBlk_blk, chunkBlock_busy (by exact hbusy)]
    exact hs
  | complete => exact absurd rfl hc
  | dispatch => exact absurd rfl hd
  | arm0 hq | arm1 hq | arm2 hq | arm3 hq | arm4 hq | arm5 hq | arm6 hq | arm7 hq | ret0 hq | ret1 hq | ret2 hq =>
    exact absurd (hp.symm.trans hq) nofun
  | _ => exact hs

/-- R189: only the dispatch acknowledges a pending completion interrupt. -/
theorem Effect.keeps_irqPend {s t : State} {i : Instr} (he : Effect s i t) (hd : i ≠ .envDispatch)
    (hq : s.ext.irqPend = true) : t.ext.irqPend = true := by
  cases he with
  | dispatchFrozen | dispatchFault | dispatch => exact absurd rfl hd
  | envDmaTc => rfl
  | wsb | arm0 | arm1 | arm2 | arm3 | arm4 | arm5 | arm6 | arm7 | ret0 | ret1 | adapter =>
    exact (applyOp_irqPend _ _ _).trans hq
  | _ => exact hq

/-- R150, R189: the dispatch of a pending interrupt to a Running burst ends it: the burst retires, or, before INIT, which no
run reaches, the completion faults. -/
theorem exec_envDispatch_running {s : State} (hf : s.blk.faulted = false) (hs : s.blk.state = .running)
    (hq : s.ext.irqPend = true) :
    ∃ t, exec .envDispatch s = .next t ∧ (t.blk.faulted = true ∨ t.blk.state = .retiring) := by
  rw [exec_envDispatch_pending hq]
  cases hi : s.blk.inited with
  | false => exact ⟨_, exec_complete_notInit hf hi, .inl rfl⟩
  | true => exact ⟨_, exec_complete_done hf hi hs, .inr rfl⟩

/-- The step that takes the dispatch's event ends a Running burst in the same way. -/
theorem step_dispatch_running {s t : State} (h : step s = .next t) (he : (takeEvent s).1 = .env .dispatch)
    (hf : s.blk.faulted = false) (hs : s.blk.state = .running) (hq : s.ext.irqPend = true) :
    t.blk.faulted = true ∨ t.blk.state = .retiring := by
  obtain ⟨u, hu, hend⟩ := exec_envDispatch_running (s := s.setSched (takeEvent s).2) hf hs hq
  rw [step, he, turn_of_decode rfl rfl, show decodeEnv .dispatch = .envDispatch from rfl, hu] at h
  cases h
  exact hend

/-- R189: a step that takes neither the dispatch's event nor the platform's setup leaves a completion interrupt pending. -/
theorem step_keeps_irqPend {s t : State} (h : step s = .next t) (hd : (takeEvent s).1 ≠ .env .dispatch)
    (hp : (takeEvent s).1 ≠ .platformSetup) (hq : s.ext.irqPend = true) : t.ext.irqPend = true := by
  rcases turn_next h with rfl | ⟨_, _, _, _, _, rfl⟩ | ⟨_, rfl⟩ | ⟨he, _⟩ | ⟨_, _, _, _, _, rfl⟩ |
    ⟨_, i, u, hc, hi, hu, rfl⟩
  · exact hq
  · rwa [noteStuck_ext]
  · exact hq
  · exact absurd he hp
  · exact hq
  · rw [noteWsb_ext]
    refine (exec_effect hu).keeps_irqPend ?_ hq
    rintro rfl
    exact hd (event_of_encode_env (eventInstr_of_decode hc hi) rfl)

/-- R240: a fair run without a fault and without a second setup of the adapter does not stay Running with the completion
interrupt pending: the interrupt would stay pending and the dispatch enabled, so the dispatch would come, and it ends the
burst. -/
theorem EnvFair.running_ends {σ : Nat → State} {n : Nat} (hfair : EnvFair σ) (hrun : IsRun σ)
    (hok : ∀ m, n ≤ m → (σ m).blk.faulted = false ∧ (takeEvent (σ m)).1 ≠ .platformSetup)
    (hq : (σ n).ext.irqPend = true) : ∃ m, n ≤ m ∧ (σ m).blk.state ≠ .running := by
  by_contra hstay
  have hs : ∀ m, n ≤ m → (σ m).blk.state = .running := fun m hm => by
    by_contra hne
    exact hstay ⟨m, hm, hne⟩
  have hnot : ∀ m, n ≤ m → (σ m).ext.irqPend = true → (takeEvent (σ m)).1 ≠ .env .dispatch := fun m hm hq he => by
    have hm' : n ≤ m + 1 := Nat.le_succ_of_le hm
    rcases step_dispatch_running (hrun m) he (hok m hm).1 (hs m hm) hq with hf | hr
    · exact absurd ((hok (m + 1) hm').1.symm.trans hf) nofun
    · exact absurd ((hs (m + 1) hm').symm.trans hr) nofun
  have hpend : ∀ m, n ≤ m → (σ m).ext.irqPend = true := fun m hm => by
    induction m, hm using Nat.le_induction with
    | base => exact hq
    | succ m hm ih => exact step_keeps_irqPend (hrun m) (hnot m hm ih) (hok m hm).2 ih
  have hen : ∀ m, n ≤ m → EnvEnabled .dispatch (σ m) := fun m hm => by
    obtain ⟨t, ht, -⟩ := exec_envDispatch_running (hok m hm).1 (hs m hm) (hpend m hm)
    exact ⟨.envDispatch, t, rfl, ht⟩
  obtain ⟨m, hm, he | hdis⟩ := hfair .dispatch n nofun (hen n le_rfl)
  · exact hnot m hm (hpend m hm) he
  · exact hdis (hen m hm)

end Sys2Proof.Machine
end

section
/-! The statements of 60_exceptions.md that this part settles. -/

open Sys2Proof Sys2Proof.Machine

/-- Settles O36: the fault's registers change only in a first fault, and that is precise. -/
theorem faultsArePrecise : Obligations.FaultsArePrecise := by
  intro i s t h
  rcases (exec_effect h).fault_cases with ⟨hfaulted, hcause, hinfo⟩ | ⟨hf, hfault⟩
  · refine ⟨fun hs ht => ?_, fun hs => ⟨hfaulted.trans hs, hcause, hinfo⟩⟩
    exact absurd (hs.symm.trans (hfaulted.symm.trans ht)) nofun
  · exact ⟨fun _ _ => hfault, fun hs => absurd (hf.symm.trans hs) nofun⟩

/-- Settles O37: each write's frozen answer, the enabling of a micro-step, and what a step can make of the registers. -/
theorem frozenWhileFaulted : Obligations.FrozenWhileFaulted := by
  intro s hf
  refine ⟨fun n port w v => ?_, fun i p hi => ?_, exec_envDispatch_frozen hf, fun t => step_blk_of_faulted hf⟩
  · simp only [List.forall_mem_cons]
    exact ⟨cmdPort_frozen hf _, cmdPort_frozen hf _, cmdPort_frozen hf _, exec_complete_frozen hf,
      exec_illegal_frozen hf port w, writeReg_frozen hf _, writeReg_frozen hf _, nofun⟩
  · exact exec_microStep_disabled hi fun h => absurd (hf.symm.trans h.2) nofun

/-- Settles O54: of the instructions' effects only the two completions end a Running burst, and a fair run takes the enabled
dispatch. -/
theorem runningWaitsForCompletion : Obligations.RunningWaitsForCompletion := by
  refine ⟨?_, fun σ n hrun hfair hok _ hq => hfair.running_ends hrun hok hq⟩
  intro s t e rest hinv htake hstep hs hreset hd hc
  rcases step_blk htake hstep with hb | ⟨he, -⟩ | ⟨i, u, hev, heff, hb⟩
  · rw [hb]
    exact hs
  · exact absurd he hreset
  · rw [hb]
    rw [hev] at hd hc
    exact heff.keeps_running hinv.blk hs (fun h => hd (congrArg some h)) (fun h => hc (congrArg some h))

end

section
/-! SUPPORT. The ring after INIT (R233), TAIL and STATE at Idle (R237, R239), and the slots that a burst in flight needs
(R238). -/

namespace Sys2Proof.Machine

/-! ### The ring after INIT (R21 to R23) -/

/-- R233: after INIT no instruction changes the ring: a second INIT faults, and CHUNK writes none of its registers. -/
theorem Effect.keeps_ring {s t : State} {i : Instr} (he : Effect s i t) (hi : s.blk.inited = true) :
    t.blk.inited = true ∧ t.blk.n = s.blk.n ∧ t.blk.base = s.blk.base ∧ t.blk.descDst = s.blk.descDst := by
  cases he with
  | init _ _ _ hbefore => exact absurd (hbefore.symm.trans hi) nofun
  | enqQueued | chunk | ret2 =>
    obtain ⟨hinited, hn, hbase, -, -, -, hdst, -⟩ := chunkBlock_frame _
    exact ⟨hinited.trans hi, hn, hbase, hdst⟩
  | _ => exact ⟨hi, rfl, rfl, rfl⟩

/-- R233: after INIT a step that is no reset leaves the ring as it was. -/
theorem step_keeps_ring {s t : State} (h : step s = .next t) (hi : s.blk.inited = true)
    (hreset : (takeEvent s).1 ≠ .reset) :
    t.blk.inited = true ∧ t.blk.n = s.blk.n ∧ t.blk.base = s.blk.base ∧ t.blk.descDst = s.blk.descDst := by
  rcases step_blk Prod.mk.eta.symm h with hb | ⟨he, -⟩ | ⟨i, u, -, heff, hb⟩
  · rw [hb]
    exact ⟨hi, rfl, rfl, rfl⟩
  · exact absurd he hreset
  · rw [hb]
    exact heff.keeps_ring hi

/-- R230: a reset leaves TXRING Idle. -/
theorem step_idle_of_reset {s t : State} (h : step s = .next t) (he : (takeEvent s).1 = .reset) : t.blk.state = .idle := by
  rw [step, he] at h
  cases h
  rfl

/-! ### From Idle -/

/-- R30: at Idle SEQ_PC holds no micro-step. -/
theorem Block.Inv.seqPc_none_of_idle {b : Block} (h : b.Inv) (hs : b.state = .idle) : b.seqPc = .none :=
  h.seqPc_none (by rw [hs]; nofun) (by rw [hs]; nofun)

/-- R25: at Idle, after INIT, no instruction moves TAIL: INIT faults and RET2 is not enabled. -/
theorem Effect.tail_of_idle {s t : State} {i : Instr} (he : Effect s i t) (h : s.blk.Inv) (hi : s.blk.inited = true)
    (hs : s.blk.state = .idle) : t.blk.tail = s.blk.tail := by
  cases he with
  | init _ _ _ hbefore => exact absurd (hbefore.symm.trans hi) nofun
  | enqQueued | chunk => exact chunkBlock_tail _
  | ret2 hp => exact absurd ((h.seqPc_none_of_idle hs).symm.trans hp) nofun
  | _ => rfl

/-- R25: at Idle, after INIT, a step that is no reset does not move TAIL. -/
theorem step_tail_of_idle {s t : State} (h : step s = .next t) (hinv : s.blk.Inv) (hi : s.blk.inited = true)
    (hs : s.blk.state = .idle) (hreset : (takeEvent s).1 ≠ .reset) : t.blk.tail = s.blk.tail := by
  rcases step_blk Prod.mk.eta.symm h with hb | ⟨he, -⟩ | ⟨i, u, -, heff, hb⟩
  · rw [hb]
  · exact absurd he hreset
  · rw [hb]
    exact heff.tail_of_idle hinv hi hs

/-- R239: of the instructions that an event can present, only ENQ leaves Idle: SEQ_PC holds no micro-step, and a completion
needs a Running burst. -/
theorem Effect.enq_of_leaves_idle {s t : State} {i : Instr} (he : Effect s i t) (h : s.blk.Inv)
    (hs : s.blk.state = .idle) (ht : t.blk.state ≠ .idle) (hne : i ≠ .chunk) : ∃ len, i = .enq len := by
  have hp := h.seqPc_none_of_idle hs
  cases he with
  | init => exact absurd rfl ht
  | enqQueued len => exact ⟨len, rfl⟩
  | chunk => exact absurd rfl hne
  | complete _ _ hrun | dispatch _ _ _ hrun => exact absurd (hs.symm.trans hrun) nofun
  | arm0 hq | arm1 hq | arm2 hq | arm3 hq | arm4 hq | arm5 hq | arm6 hq | arm7 hq | ret0 hq | ret1 hq | ret2 hq =>
    exact absurd (hp.symm.trans hq) nofun
  | _ => exact absurd hs ht

/-! ### A burst in flight -/

/-- R39(iii), R237: a burst in flight does not start in the last slot: its two words or more end inside the store. -/
theorem Block.Inv.tail_add_two_le {b : Block} (h : b.Inv) (hs : b.state ≠ .idle) : b.tail.toNat + 2 ≤ b.n.toNat := by
  obtain ⟨hlong, -, hend⟩ := h.session hs
  omega

/-- R39(iii): at least two words are queued while a burst is in flight. -/
theorem Block.Inv.two_le_occ {b : Block} (h : b.Inv) (hs : b.state ≠ .idle) : 2 ≤ b.occ := by
  obtain ⟨hlong, hocc, -⟩ := h.session hs
  exact hlong.trans hocc

/-- R238: as one slot stays free, two queued words need a ring of 3 slots, and fill it. -/
theorem Block.Inv.three_le_slots {b : Block} (h : b.Inv) (hi : b.inited = true) (hs : b.state ≠ .idle) :
    3 ≤ b.n.toNat ∧ (b.n.toNat = 3 → b.tail.toNat ≤ 1 ∧ b.occ = 2) := by
  obtain ⟨hh, ht⟩ := h.indexes hi
  have hfree : b.occ ≤ b.n.toNat - 1 := occOf_le hh ht
  have hqueued := h.two_le_occ hs
  have hfits := h.tail_add_two_le hs
  omega

end Sys2Proof.Machine
end

section
/-! The statements of 70_reset_and_hazards.md that this part settles. -/

open Sys2Proof Sys2Proof.Machine

/-- Settles O47: a step that is no reset changes the registers by an instruction's effect at most, and none changes the ring. -/
theorem ringIsNeverResized : Obligations.RingIsNeverResized := fun _ _ => step_keeps_ring

/-- Settles O51: TAIL stays in the last slot, and the invariant after the step has no burst that starts there. -/
theorem tailInTheLastSlotStalls : Obligations.TailInTheLastSlotStalls := by
  intro s t hinv hi hs hlast hstep hreset
  obtain ⟨hinited, hn, -, -⟩ := step_keeps_ring hstep hi hreset
  have htail := step_tail_of_idle hstep hinv.blk hi hs hreset
  refine ⟨hinited, hn, ?_, htail⟩
  by_contra hbusy
  have hfits := (stepKeepsTheInvariant s t hinv hstep).blk.tail_add_two_le hbusy
  rw [htail, hn] at hfits
  omega

/-- Settles O52: the bound holds wherever the invariant does, so after every step; a reset leaves no burst in flight. -/
theorem smallRingsNeverTransmit : Obligations.SmallRingsNeverTransmit := by
  refine ⟨fun b => Block.Inv.three_le_slots, fun s t hinv hi hstep hbusy => ?_⟩
  have hreset : (takeEvent s).1 ≠ .reset := fun he => hbusy (step_idle_of_reset hstep he)
  obtain ⟨hinited, hn, -, -⟩ := step_keeps_ring hstep hi hreset
  exact ⟨hn, hn ▸ (stepKeepsTheInvariant s t hinv hstep).blk.three_le_slots hinited hbusy⟩

/-- Settles O53: the step left Idle, so it is neither a reset nor a step without an instruction, and the instruction is ENQ. -/
theorem onlyEnqLeavesIdle : Obligations.OnlyEnqLeavesIdle := by
  intro s t e rest hinv htake hstep hs hbusy
  rcases step_blk htake hstep with hb | ⟨-, hb⟩ | ⟨i, u, hev, heff, hb⟩ <;> rw [hb] at hbusy
  · exact absurd hs hbusy
  · exact absurd rfl hbusy
  · obtain ⟨c, hc, hi⟩ := code_of_eventInstr hev
    obtain ⟨len, rfl⟩ := heff.enq_of_leaves_idle hinv.blk hs hbusy (ne_chunk_of_event hc hi)
    exact ⟨len, hev⟩

end

section
/-! SUPPORT. The decoder and the encoder are inverse to each other (30_encoding.md): every well-formed instruction comes back from
its code, and every code that decodes is the code of its instruction, format by format. -/

namespace Sys2Proof.Laws.RoundTrip

/-- The round trip of every instruction, constructor by constructor. -/
theorem statement : ∀ i : Instr, Statement i
  -- CMD32
  | .init n => init n
  | .enq len => enq len
  | .wsb w => wsb w
  | .complete => complete
  | .illegal port w => illegal port w
  -- MMIO32
  | .wrArg0 v => wrArg0 v
  | .rdArg0 => rdArg0
  | .wrArg1 v => wrArg1 v
  | .rdArg1 => rdArg1
  | .rdStatus => rdStatus
  | .rdIndex => rdIndex
  | .rdLevel => rdLevel
  | .rdSession => rdSession
  | .rdBase => rdBase
  | .rdDsrc => rdDsrc
  | .rdDdst => rdDdst
  | .rdDctl => rdDctl
  | .rdFinfo => rdFinfo
  | .inert off dir => inert off dir
  | .badRegAccess off size dir => badRegAccess off size dir
  -- SEQ_UOP
  | .chunk => chunk
  | .arm0 => arm0
  | .arm1 => arm1
  | .arm2 => arm2
  | .arm3 => arm3
  | .arm4 => arm4
  | .arm5 => arm5
  | .arm6 => arm6
  | .arm7 => arm7
  | .ret0 => ret0
  | .ret1 => ret1
  | .ret2 => ret2
  -- ADAPTER64
  | .periphDisable => periphDisable
  | .clearCflag => clearCflag
  | .dmaProgram src len => dmaProgram src len
  | .dmaEnable => dmaEnable
  | .periphSetFrames n => periphSetFrames n
  | .periphEnable => periphEnable
  | .pushWord w => pushWord w
  | .periphStart => periphStart
  | .dmaDisable => dmaDisable
  -- ENV_STEP
  | .envDmaXfer => envDmaXfer
  | .envDmaTc => envDmaTc
  | .envShift => envShift
  | .envDispatch => envDispatch
  | .wsbDone => wsbDone

end Sys2Proof.Laws.RoundTrip

namespace Sys2Proof.Laws

open Sys2Proof.Machine

/-- The code is the encoding of the instruction, and the instruction is well formed. -/
def IsCodeOf (c : Code) (i : Instr) : Prop := encode i = c ∧ WellFormed i = true

/-- Each code has one meaning: the decoder answers the instruction whose code it is. -/
theorem IsCodeOf.decode_eq {c : Code} {i : Instr} (h : IsCodeOf c i) : decode c = .ok i := by
  obtain ⟨rfl, hw⟩ := h
  exact RoundTrip.statement i hw

/-! ### Commands (R87, R88, R90) -/

/-- R87: the fields of a command word make up the word. -/
theorem commandWord_fields {w : Word} (hr : rsvOf w = 0) : commandWord (opcOf w) (immOf w) = w := by
  have hparts : immOf w ++ rsvOf w ++ opcOf w = w := by
    unfold immOf rsvOf opcOf
    rw [BitVec.extractLsb'_append_extractLsb'_eq_extractLsb' (show 16 = 4 + 12 from rfl),
      BitVec.extractLsb'_append_extractLsb'_eq_extractLsb' (show 4 = 0 + 4 from rfl), BitVec.extractLsb'_eq_self]
  rwa [hr] at hparts

/-- R90: a write of CMD is INIT, ENQ or WSB with the word's immediate, or an illegal command. -/
theorem exists_isCodeOf_write_cmd (w : Word) : ∃ i, IsCodeOf (.access 0x00 32 (.write w)) i := by
  by_cases hill : illegalWord .cmd w = true
  · exact ⟨.illegal .cmd w, rfl, hill⟩
  · obtain ⟨hr, hopc⟩ : rsvOf w = 0 ∧ (opcOf w = 1 ∨ opcOf w = 2 ∨ opcOf w = 3) := by
      simp only [illegalWord_iff, BitVec.toNat_eq, BitVec.reduceToNat, reduceCtorEq, ne_eq, true_and, false_and] at hill ⊢
      omega
    rw [← commandWord_fields hr]
    rcases hopc with ho | ho | ho <;> rw [ho]
    · exact ⟨.init (immOf w), rfl, rfl⟩
    · exact ⟨.enq (immOf w), rfl, rfl⟩
    · exact ⟨.wsb (immOf w), rfl, rfl⟩

/-- R90: a write of CPL is COMPLETE or an illegal command. -/
theorem exists_isCodeOf_write_cpl (w : Word) : ∃ i, IsCodeOf (.access 0x04 32 (.write w)) i := by
  by_cases hill : illegalWord .cpl w = true
  · exact ⟨.illegal .cpl w, rfl, hill⟩
  · obtain ⟨hr, ho, hi⟩ : rsvOf w = 0 ∧ opcOf w = 4 ∧ immOf w = 0 := by
      simp only [illegalWord_iff, BitVec.toNat_eq, BitVec.reduceToNat, reduceCtorEq, ne_eq, true_and, false_and] at hill ⊢
      omega
    rw [← commandWord_fields hr, ho, hi]
    exact ⟨.complete, rfl, rfl⟩

/-! ### Accesses of the register window (R80, R81, R201) -/

/-- R80, R201: an aligned read is that of a register, or inert. -/
theorem isCodeOf_read (off : BitVec 6) (h : off.toNat % 4 = 0) : IsCodeOf (.access off 32 .read) (decodeRead off) := by
  revert off
  unfold IsCodeOf
  decide

/-- R80: the aligned offsets below the read-only registers are those of the four writable ones. -/
theorem offset_cases {off : BitVec 6} (h : off.toNat % 4 = 0) :
    off = 0x00 ∨ off = 0x04 ∨ off = 0x08 ∨ off = 0x0C ∨ 0x10 ≤ off.toNat := by
  simp only [BitVec.toNat_eq, BitVec.reduceToNat]
  omega

theorem exists_isCodeOf_write {off : BitVec 6} (h : off.toNat % 4 = 0) (v : Word) :
    ∃ i, IsCodeOf (.access off 32 (.write v)) i := by
  rcases offset_cases h with rfl | rfl | rfl | rfl | hro
  · exact exists_isCodeOf_write_cmd v
  · exact exists_isCodeOf_write_cpl v
  · exact ⟨.wrArg0 v, rfl, rfl⟩
  · exact ⟨.wrArg1 v, rfl, rfl⟩
  · exact ⟨.inert off (.write v), rfl, (wellFormed_inert_write_iff off v).mpr ⟨hro, h⟩⟩

/-- R81: every access is the code of an instruction; the check of width and alignment comes first. -/
theorem exists_isCodeOf_access (off : BitVec 6) (size : Nat) (dir : Dir) : ∃ i, IsCodeOf (.access off size dir) i := by
  by_cases hbad : badAccess off size = true
  · exact ⟨.badRegAccess off size dir, rfl, hbad⟩
  · obtain ⟨rfl, halign⟩ : size = 32 ∧ off.toNat % 4 = 0 := by simpa [badAccess] using hbad
    cases dir with
    | read => exact ⟨_, isCodeOf_read off halign⟩
    | write v => exact exists_isCodeOf_write halign v

/-! ### Micro-steps (R30) -/

theorem code_of_seqStepOf {code : BitVec 4} {p : SeqStep} (h : seqStepOf code = some p) : p.code = code := by
  revert code
  cases p <;> decide

theorem isCodeOf_of_seqInstr {p : SeqStep} {i : Instr} (h : seqInstr p = some i) : IsCodeOf (.seq p.code) i := by
  cases p <;> cases h <;> exact ⟨rfl, rfl⟩

theorem isCodeOf_of_decodeSeq {code : BitVec 4} {i : Instr} (h : decodeSeq code = .ok i) : IsCodeOf (.seq code) i := by
  unfold decodeSeq at h
  split at h
  · cases h
  · rename_i p hp
    split at h
    · cases h
    · rename_i j hj
      cases h
      exact code_of_seqStepOf hp ▸ isCodeOf_of_seqInstr hj

/-! ### Adapter operations (R92, R93) -/

/-- R92: the fields of an adapter word make up the word. -/
theorem adapterWord_fields (w : DWord) : adapterWord (a32Of w) (h16Of w) (b8Of w) (aopOf w) = w := by
  unfold adapterWord a32Of h16Of b8Of aopOf
  rw [BitVec.extractLsb'_append_extractLsb'_eq_extractLsb' (show 32 = 16 + 16 from rfl),
    BitVec.extractLsb'_append_extractLsb'_eq_extractLsb' (show 16 = 8 + 8 from rfl),
    BitVec.extractLsb'_append_extractLsb'_eq_extractLsb' (show 8 = 0 + 8 from rfl),
    BitVec.extractLsb'_eq_self]

/-- R92: an adapter word by the number of its operation. -/
theorem adapterWord_of_aop {w : DWord} {k : Nat} (ha : (aopOf w).toNat = k) :
    adapterWord (a32Of w) (h16Of w) (b8Of w) (BitVec.ofNat 8 k) = w := by
  rw [← ha, BitVec.ofNat_toNat, BitVec.setWidth_eq]
  exact adapterWord_fields w

/-- R93: what decodes is one of the nine operations, and the fields that it does not use are 0. -/
theorem isCodeOf_of_decodeAdapter {w : DWord} {i : Instr} (h : decodeAdapter w = .ok i) : IsCodeOf (.adapter w) i := by
  unfold decodeAdapter at h
  simp only [Bool.and_eq_true, beq_iff_eq] at h
  split at h
  case h_2 => cases h
  case h_1 j hj =>
    cases h
    split at hj
    case h_10 => cases hj
    all_goals
      rename_i ha
      obtain ⟨hfields, hj⟩ := Option.ite_none_right_eq_some.mp hj
      cases hj
      have hw := adapterWord_of_aop ha
      simp only [hfields] at hw
      exact ⟨congrArg Code.adapter hw, rfl⟩

/-! ### Every code -/

/-- Each instruction has one code: a code that decodes is the code of an instruction. -/
theorem exists_isCodeOf {c : Code} {i : Instr} (h : decode c = .ok i) : ∃ j, IsCodeOf c j := by
  cases c with
  | access off size dir => exact exists_isCodeOf_access off size dir
  | seq code => exact ⟨i, isCodeOf_of_decodeSeq h⟩
  | adapter w => exact ⟨i, isCodeOf_of_decodeAdapter h⟩
  | env e => exact ⟨decodeEnv e, by cases e <;> exact ⟨rfl, rfl⟩⟩
  | chunk => exact ⟨.chunk, rfl, rfl⟩

theorem isCodeOf_of_decode {c : Code} {i : Instr} (h : decode c = .ok i) : IsCodeOf c i := by
  obtain ⟨j, hj⟩ := exists_isCodeOf h
  cases h.symm.trans hj.decode_eq
  exact hj

end Sys2Proof.Laws
end

section
/-! SUPPORT. A bus access by its place against the register window (R80). -/

namespace Sys2Proof.Machine

/-- R80, R222: an access at REG_BASE + offset presents the access at the offset, whoever makes it. -/
theorem eventCode_access_window (s : State) (who : Agent) (off : BitVec 6) (size : Nat) (dir : Dir) :
    eventCode s (.access who (s.platform.regBase + off.setWidth 32) size dir) = some (.access off size dir) :=
  congrArg (Option.map _) (windowOffset_eq_some.mpr rfl)

/-- An access outside the window presents no code. -/
theorem eventCode_access_outside {s : State} {addr : Word}
    (h : ∀ off : BitVec 6, addr ≠ s.platform.regBase + off.setWidth 32) (who : Agent) (size : Nat) (dir : Dir) :
    eventCode s (.access who addr size dir) = none :=
  congrArg (Option.map _) (Option.eq_none_iff_forall_ne_some.mpr fun off hoff => h off (windowOffset_eq_some.mp hoff))

/-- A bus access that presents no code changes nothing. -/
theorem turn_access_of_no_code {s : State} {who : Agent} {addr : Word} {size : Nat} {dir : Dir}
    (h : eventCode s (.access who addr size dir) = none) : turn (.access who addr size dir) s = .next s := by
  simp only [turn, runCode, h]

end Sys2Proof.Machine
end

section
/-! The statements of 30_encoding.md on the decoder, the encoder and the window, that this part settles. -/

open Sys2Proof Sys2Proof.Machine

/-- Settles O3: one round trip for each constructor. -/
theorem decodeOfEncodeIsTheInstruction : Obligations.DecodeOfEncodeIsTheInstruction := Laws.RoundTrip.statement

/-- Settles O4: a code that decodes is the code of an instruction, and by the round trip that is the one decoded. -/
theorem encodeOfDecodeIsTheCode : Obligations.EncodeOfDecodeIsTheCode := fun _ _ => Laws.isCodeOf_of_decode

/-- Settles O7: the window is the addresses REG_BASE + offset, and an access elsewhere presents no code. -/
theorem busAccessesReachTheWindow : Obligations.BusAccessesReachTheWindow := by
  refine ⟨eventCode_access_window, fun s who addr size dir rest htake hout => ?_⟩
  rw [step_eq_turn htake]
  exact turn_access_of_no_code (eventCode_access_outside hout who size dir)

/-- Settles O2: each word is the code of its instruction, so the round trip gives the instruction back. -/
theorem wordsOfTheSpecDecode : Obligations.WordsOfTheSpecDecode :=
  ⟨Laws.RoundTrip.init 256 rfl, Laws.RoundTrip.enq 10 rfl, Laws.RoundTrip.wsb 0x1234 rfl, Laws.RoundTrip.complete rfl,
    Laws.RoundTrip.illegal .cmd 0x80000012 rfl, Laws.RoundTrip.rdDctl rfl, Laws.RoundTrip.badRegAccess 0x10 8 .read rfl,
    Laws.RoundTrip.ret2 rfl, Laws.RoundTrip.dmaProgram 0x20000192 55 rfl, Laws.RoundTrip.pushWord 0xA5C3 rfl⟩

end
